-- ==== Sys2Proof/Word.lean ====
section
/-! DEFINITION. The words of CORE (spec/00_scope.md rules R5, R9, R12; spec/30_encoding.md rule R70): every value is
unsigned, and arithmetic is on natural numbers unless a rule says otherwise (rule R10). -/

namespace Sys2Proof

/-- An operand word, a result word or an arithmetic register: `W = 64` bits (R5). -/
abbrev Word := BitVec 64

/-- A byte of a stream buffer or of a payload (R21, R78). -/
abbrev Byte := BitVec 8

/-- A command word, `CW` (R70, R71). -/
abbrev CommandWord := BitVec 32

end Sys2Proof
end

