-- ==== Sys2Proof/Config.lean ====
section
/-! DEFINITION. What an implementation of CORE fixes (spec/00_scope.md rules R5 to R8), and the one free value of the model.

The two OPEN parameters are `Params`. The state carries them (`State.slots.length` and `State.capacity`), no command
changes them, and a statement over all states is a statement about every value of them (log 1). -/

namespace Sys2Proof

/-- `M_MAX`, the largest precision `m` (R6). -/
def Config.mMax : Nat := 32

/-- The largest `n_bits` of BS_WRITE_NUMBER and BS_READ_NUMBER (R74). -/
def Config.maxNumberBits : Nat := 64

/-- The OPEN parameters: `NUM_STREAMS` (R7) and `BS_CAPACITY_BYTES` (R8), where `none` is `UNBOUNDED`. -/
structure Params where
  numStreams : Nat
  capacity : Option Nat
deriving DecidableEq, Repr

/-- The values of the parameters that R7 and R8 allow. -/
abbrev Params.Ok (p : Params) : Prop :=
  2 ≤ p.numStreams ∧ p.numStreams ≤ 16 ∧ (∀ c, p.capacity = some c → 1 ≤ c)

/-- DESIGN CHOICE (log 1): the parameters `State.reset` is built with, those of the spec's own test vectors
(spec/95_test_vectors.md, Conventions). No rule depends on them. -/
def Config.defaultParams : Params := { numStreams := 4, capacity := none }

/-- DESIGN CHOICE (log 5): the result word of a count that does not fit in 64 bits. The spec states no result there
(spec/10_state.md R30 gives the fit only for capacities below `2^61`), so nothing is known of this value. -/
opaque Config.freeWord : Nat → Word

end Sys2Proof
end

