-- ==== Sys2Proof/Syntax.lean ====
section
/-! DEFINITION. The commands of CORE: one constructor per row of spec/opcode_table.json (spec/30_encoding.md rule R79), with
the operands R71 and R73 give it, and the request that carries a command (R70). Operands have the names of R11: slots `S` and
`T`, the count `N`, the bits `V` and `P`, the operand words `A` and `B`, the payload `IN`. -/

namespace Sys2Proof

/-- A command with its operands. A field or operand word that a command does not use is no argument of its constructor
(R70: unused operand words are ignored; R72: unused fields are zero). -/
inductive Instr where
  /-- Read the error record (R170). -/
  | coreErrinfo
  /-- Create an empty stream in slot `S` (R105). -/
  | bsNew (S : Nat)
  /-- Append the bit `V` (R106). -/
  | bsWriteBit (S : Nat) (V : Bool)
  /-- Append the `N` low bits of `A` (R107). -/
  | bsWriteNumber (S N : Nat) (A : Word)
  /-- Switch slot `S` to read mode (R108). -/
  | bsToRead (S : Nat)
  /-- Read one bit (R109). -/
  | bsReadBit (S : Nat)
  /-- Read `N` bits as a number (R110). -/
  | bsReadNumber (S N : Nat)
  /-- Append slot `T`'s bits to slot `S` and free slot `T` (R111). -/
  | bsMerge (S T : Nat)
  /-- The unread bit count (R112). -/
  | bsRemaining (S : Nat)
  /-- The meaningful bit count (R113). -/
  | bsTotalSize (S : Nat)
  /-- Set the byte cursor to 0 (R114). -/
  | bsRewind (S : Nat)
  /-- Return the image of slot `S` (R115). -/
  | bsExport (S : Nat)
  /-- Fill slot `S` from the image `IN` (R116). -/
  | bsImport (S : Nat) (IN : List Byte)
  /-- Read the whole state of slot `S` (R117). -/
  | bsInfo (S : Nat)
  /-- Construct the encoder with precision `N` (R134). -/
  | encNew (N : Nat)
  /-- Encode the symbol `V` under the Context `(P, A, B)` into slot `S` (R135). -/
  | encEncode (S : Nat) (V P : Bool) (A B : Word)
  /-- Flush the interval into slot `S` (R136). -/
  | encClose (S : Nat)
  /-- Read the encoder's interval (R137). -/
  | encGetState
  /-- Set the encoder's interval to `(A, B)` (R138). -/
  | encSetState (A B : Word)
  /-- Read the encoder's parameters (R139). -/
  | encInfo
  /-- Construct the decoder with precision `N` on slot `S` (R150). -/
  | decNew (S N : Nat)
  /-- Read the tag (R151). -/
  | decInit
  /-- Decode one symbol under the Context `(P, A, B)` (R153). -/
  | decDecode (P : Bool) (A B : Word)
  /-- Read the decoder's interval (R154). -/
  | decGetState
  /-- Set the decoder's interval to `(A, B)` (R155). -/
  | decSetState (A B : Word)
  /-- The status snapshot (R156). -/
  | decStatus
  /-- Read the decoder's parameters (R157). -/
  | decInfo
deriving DecidableEq, Repr

/-- A request on the command port (R70): the command word, the two operand words and the input payload. -/
structure Request where
  cw : CommandWord
  a : Word
  b : Word
  input : List Byte
deriving DecidableEq, Repr

end Sys2Proof
end

