-- ==== Sys2Proof/Machine/State.lean ====
section
/-! DEFINITION. The state of CORE (spec/10_state.md rules R20 to R41): the stream slots, the encoder unit, the decoder unit
and the error record; the two OPEN parameters; and two fields of the model's own, what the host does next and the responses
of the current run. Counts, sizes and indexes are natural numbers whose widths `Safety.lean` states as an invariant (log 10);
what the spec shifts or masks is a bit vector. -/

namespace Sys2Proof.Machine

/-- `owner` of a slot (R22). -/
inductive Owner where
  | free | host | decoder
deriving DecidableEq, Repr

/-- `mode` of a slot (R23). -/
inductive Mode where
  | write | read
deriving DecidableEq, Repr

/-- `progress` of a slot (R24). -/
inductive Progress where
  | notStarted | reading | finished
deriving DecidableEq, Repr

/-- `enc.phase` (R34). -/
inductive EncPhase where
  | uninit | ready | closed
deriving DecidableEq, Repr

/-- `dec.phase` (R37). -/
inductive DecPhase where
  | absent | uninit | ready
deriving DecidableEq, Repr

/-- The status codes (R176). Their numbers are `Status.code` in `Flags.lean`. -/
inductive Status where
  | ok
  | eIllegal
  | eParam
  | eFree
  | eOwned
  | eState
  | eMode
  | eDomain
  | eExhausted
  | eFmtEmpty
  | eFmtHeader
  | eFmtHeaderOnly
  | eFmtNibble
  | eCapacity
deriving DecidableEq, Repr

/-- One stream slot (R21). `len` is `buf.length`. -/
structure Slot where
  owner : Owner
  mode : Mode
  progress : Progress
  buf : List Byte
  wrAcc : Byte
  wrCnt : Nat
  cursor : Nat
  rdByte : Byte
  rdLeft : Nat
  lastValid : Nat
deriving DecidableEq, Repr

/-- `EmptySlot(o)` (R27). -/
def emptySlot (o : Owner) : Slot :=
  { owner := o, mode := .write, progress := .notStarted, buf := [], wrAcc := 0, wrCnt := 0, cursor := 0, rdByte := 0,
    rdLeft := 0, lastValid := 8 }

/-- The memory of CORE is the slots' buffers, a byte being named by a slot index and a byte index (R50). -/
abbrev Memory := List Slot

/-- A slot's buffer as (address, byte) pairs: byte `j` of the buffer stands at address `j`. -/
def Slot.cells (t : Slot) : List Host.Cell := t.buf.zipIdx.map fun p => (p.2, p.1)

/-- The canonical form of the memory: in every slot the addresses rise strictly. A buffer lists every byte it has, so no
address beside the listed ones reads as anything (log 6). -/
abbrev Memory.wf (m : Memory) : Prop := ∀ t ∈ m, List.Pairwise (fun x y => x.1 < y.1) t.cells

/-- The encoder unit (R33). The masks are derived from `m` (R35). -/
structure EncoderUnit where
  phase : EncPhase
  m : Nat
  low : Word
  high : Word
deriving DecidableEq, Repr

/-- The decoder unit (R36). -/
structure DecoderUnit where
  phase : DecPhase
  m : Nat
  low : Word
  high : Word
  tag : Word
  count : Word
  slot : Nat
deriving DecidableEq, Repr

/-- The error record (R40). -/
structure ErrorRecord where
  valid : Bool
  code : Status
  cw : CommandWord
  count : BitVec 32
deriving DecidableEq, Repr

/-- The result words of a response. A word that a command does not name is 0 (R70). -/
structure Results where
  r0 : Word := 0
  r1 : Word := 0
  r2 : Word := 0
  r3 : Word := 0
  r4 : Word := 0
  r5 : Word := 0
  r6 : Word := 0
  r7 : Word := 0
  r8 : Word := 0
  r9 : Word := 0
deriving DecidableEq, Repr

/-- A response on the command port (R70). -/
structure Response where
  status : Status
  results : Results
  out : List Byte
deriving DecidableEq, Repr

/-- What the host can do to the block (R198): issue a request, or assert reset. A request does not change once it is issued:
DESIGN CHOICE (log 19). -/
inductive HostEvent where
  | request (r : Request)
  | reset
deriving DecidableEq, Repr

/-- The state of the model. -/
structure State where
  /-- The stream slots (R20); their number is `NUM_STREAMS` (R7). -/
  slots : Memory
  /-- `BS_CAPACITY_BYTES` (R8); `none` is `UNBOUNDED`. -/
  capacity : Option Nat
  /-- The encoder unit (R33). -/
  enc : EncoderUnit
  /-- The decoder unit (R36). -/
  dec : DecoderUnit
  /-- The error record (R40). -/
  err : ErrorRecord
  /-- The model's own (log 2): what the host does next, first event first. The port has no queue (R194): an event is offered
  only when the command before it has answered. -/
  pending : List HostEvent
  /-- The model's own (log 3): the responses of the current run, oldest first (R197). -/
  responses : List Response
deriving DecidableEq, Repr

/-- A step of CORE never stops in a fault: every error is a status code, and the block goes on (R175, R189, R196). So this
type has no constructor: nothing raises it (log 15). -/
inductive Fault where
deriving DecidableEq, Repr

/-- Why an instruction has no meaning. -/
inductive Refusal where
  /-- Raised by `exec` for an instruction that has no meaning yet: safe. No arm raises it now. -/
  | notModelled (mnemonic : String)
deriving DecidableEq, Repr

/-- What a step answers. -/
abbrev Result := Host.Outcome State Fault Refusal

/-- The state after reset (R41, R190) of a block with the given parameters: nothing is pending, nothing was answered. -/
def State.resetWith (p : Params) : State :=
  { slots := List.replicate p.numStreams (emptySlot .free)
    capacity := p.capacity
    enc := { phase := .uninit, m := 0, low := 0, high := 0 }
    dec := { phase := .absent, m := 0, low := 0, high := 0, tag := 0, count := 0, slot := 0 }
    err := { valid := false, code := .ok, cw := 0, count := 0 }
    pending := []
    responses := [] }

/-- The state after reset, with the parameters of log 1. -/
def State.reset : State := State.resetWith Config.defaultParams

end Sys2Proof.Machine
end

