-- ==== Sys2Proof/Machine/Flags.lean ====
section
/-! DEFINITION. CORE has no flag register and no command computes a flag (spec/10_state.md rule R42). The software-visible
conditions are the status codes and the enumerations; this file gives their numbers (R22 to R24, R34, R37, R176), which the
INFO commands and CORE_ERRINFO return (spec/30_encoding.md rule R77). -/

namespace Sys2Proof.Machine

/-- The numbers of `owner` (R22). -/
def Owner.code : Owner → Nat
  | .free => 0
  | .host => 1
  | .decoder => 2

/-- The numbers of `mode` (R23). -/
def Mode.code : Mode → Nat
  | .write => 0
  | .read => 1

/-- The numbers of `progress` (R24). -/
def Progress.code : Progress → Nat
  | .notStarted => 0
  | .reading => 1
  | .finished => 2

/-- The numbers of `enc.phase` (R34). -/
def EncPhase.code : EncPhase → Nat
  | .uninit => 0
  | .ready => 1
  | .closed => 2

/-- The numbers of `dec.phase` (R37). -/
def DecPhase.code : DecPhase → Nat
  | .absent => 0
  | .uninit => 1
  | .ready => 2

/-- The numbers of the status codes (R176). -/
def Status.code : Status → Nat
  | .ok => 0x00
  | .eIllegal => 0x01
  | .eParam => 0x02
  | .eFree => 0x03
  | .eOwned => 0x04
  | .eState => 0x05
  | .eMode => 0x06
  | .eDomain => 0x07
  | .eExhausted => 0x08
  | .eFmtEmpty => 0x09
  | .eFmtHeader => 0x0A
  | .eFmtHeaderOnly => 0x0B
  | .eFmtNibble => 0x0C
  | .eCapacity => 0x0D

end Sys2Proof.Machine
end

