-- ==== Sys2Proof/WellFormed.lean ====
section
/-! DEFINITION. The commands that a command word can carry: each operand fits its field (spec/30_encoding.md rule R71).
That a slot index is below `NUM_STREAMS`, that `N` is at most 64 or is a precision, and that `S ≠ T` are not asked here: the
command set encodes such words, and the machine answers them with E_PARAM (R74, R76). -/

namespace Sys2Proof

/-- `S` and `T` are 4-bit fields (R71, R76). -/
def slotFits (i : Nat) : Bool := decide (i < 2 ^ 4)

/-- `N` is a 7-bit field (R71, R74). -/
def countFits (n : Nat) : Bool := decide (n < 2 ^ 7)

/-- Every operand fits its field. -/
def Instr.wf : Instr → Bool
  | .coreErrinfo => true
  | .bsNew S => slotFits S
  | .bsWriteBit S _ => slotFits S
  | .bsWriteNumber S N _ => slotFits S && countFits N
  | .bsToRead S => slotFits S
  | .bsReadBit S => slotFits S
  | .bsReadNumber S N => slotFits S && countFits N
  | .bsMerge S T => slotFits S && slotFits T
  | .bsRemaining S => slotFits S
  | .bsTotalSize S => slotFits S
  | .bsRewind S => slotFits S
  | .bsExport S => slotFits S
  | .bsImport S _ => slotFits S
  | .bsInfo S => slotFits S
  | .encNew N => countFits N
  | .encEncode S _ _ _ _ => slotFits S
  | .encClose S => slotFits S
  | .encGetState => true
  | .encSetState _ _ => true
  | .encInfo => true
  | .decNew S N => slotFits S && countFits N
  | .decInit => true
  | .decDecode _ _ _ => true
  | .decGetState => true
  | .decSetState _ _ => true
  | .decStatus => true
  | .decInfo => true

end Sys2Proof
end

