-- ==== Sys2Proof/Decode.lean ====
section
/-! DEFINITION. Decoding and encoding of commands (spec/30_encoding.md rules R71, R72, R79 to R83). `decode` is total on every
request. It rejects a word by name, and the machine answers either name with E_ILLEGAL (R80). The slot range checks that R83
lists after the mask check need NUM_STREAMS, so each meaning makes them first. -/

namespace Sys2Proof

/-- Why a command word is illegal (R72, R80): both raise E_ILLEGAL. -/
inductive Reject where
  /-- The opcode is no row of R79. -/
  | undefinedOpcode
  /-- A reserved bit, or a bit of a field the opcode does not use, is set. -/
  | unusedBitSet
deriving DecidableEq, Repr

/-- What decoding a request gives. -/
inductive Decoded where
  | command (i : Instr)
  | illegal (why : Reject)
deriving DecidableEq, Repr

/-! ### The fields of a command word (R71) -/

/-- `OP = CW[7:0]`. -/
def fieldOP (cw : CommandWord) : BitVec 8 := cw.extractLsb' 0 8

/-- `S = CW[11:8]`. -/
def fieldS (cw : CommandWord) : Nat := (cw.extractLsb' 8 4).toNat

/-- `T = CW[15:12]`. -/
def fieldT (cw : CommandWord) : Nat := (cw.extractLsb' 12 4).toNat

/-- `N = CW[22:16]`. -/
def fieldN (cw : CommandWord) : Nat := (cw.extractLsb' 16 7).toNat

/-- `V = CW[23]`. -/
def fieldV (cw : CommandWord) : Bool := cw.getLsbD 23

/-- `P = CW[24]`. -/
def fieldP (cw : CommandWord) : Bool := cw.getLsbD 24

/-- The reserved field `CW[31:25]`. -/
def fieldReserved (cw : CommandWord) : BitVec 7 := cw.extractLsb' 25 7

/-- The command word with the given fields, each at its place, and a zero reserved field (R71). -/
def packWord (op : BitVec 8) (S T N : Nat) (V P : Bool) : CommandWord :=
  op.setWidth 32 |||
  ((BitVec.ofNat 4 S).setWidth 32 <<< 8) |||
  ((BitVec.ofNat 4 T).setWidth 32 <<< 12) |||
  ((BitVec.ofNat 7 N).setWidth 32 <<< 16) |||
  ((BitVec.ofBool V).setWidth 32 <<< 23) |||
  ((BitVec.ofBool P).setWidth 32 <<< 24)

/-! ### The opcode map (R79) -/

/-- One row of R79: its opcode, its `match` column and its `mask` column. -/
structure Row where
  opcode : BitVec 8
  word : CommandWord
  mask : CommandWord
deriving DecidableEq, Repr

/-- The rows of the core and of the BSU. -/
def rowsStream : List Row :=
  [ ⟨0x01, 0x00000001, 0xFFFFFFFF⟩,   -- CORE_ERRINFO
    ⟨0x10, 0x00000010, 0xFFFFF0FF⟩,   -- BS_NEW
    ⟨0x11, 0x00000011, 0xFF7FF0FF⟩,   -- BS_WRITE_BIT
    ⟨0x12, 0x00000012, 0xFF80F0FF⟩,   -- BS_WRITE_NUMBER
    ⟨0x13, 0x00000013, 0xFFFFF0FF⟩,   -- BS_TO_READ
    ⟨0x14, 0x00000014, 0xFFFFF0FF⟩,   -- BS_READ_BIT
    ⟨0x15, 0x00000015, 0xFF80F0FF⟩,   -- BS_READ_NUMBER
    ⟨0x16, 0x00000016, 0xFFFF00FF⟩,   -- BS_MERGE
    ⟨0x17, 0x00000017, 0xFFFFF0FF⟩,   -- BS_REMAINING
    ⟨0x18, 0x00000018, 0xFFFFF0FF⟩,   -- BS_TOTAL_SIZE
    ⟨0x19, 0x00000019, 0xFFFFF0FF⟩,   -- BS_REWIND
    ⟨0x1A, 0x0000001A, 0xFFFFF0FF⟩,   -- BS_EXPORT
    ⟨0x1B, 0x0000001B, 0xFFFFF0FF⟩,   -- BS_IMPORT
    ⟨0x1C, 0x0000001C, 0xFFFFF0FF⟩ ]   -- BS_INFO

/-- The rows of the encoder. -/
def rowsEncoder : List Row :=
  [ ⟨0x20, 0x00000020, 0xFF80FFFF⟩,   -- ENC_NEW
    ⟨0x21, 0x00000021, 0xFE7FF0FF⟩,   -- ENC_ENCODE
    ⟨0x22, 0x00000022, 0xFFFFF0FF⟩,   -- ENC_CLOSE
    ⟨0x23, 0x00000023, 0xFFFFFFFF⟩,   -- ENC_GET_STATE
    ⟨0x24, 0x00000024, 0xFFFFFFFF⟩,   -- ENC_SET_STATE
    ⟨0x25, 0x00000025, 0xFFFFFFFF⟩ ]   -- ENC_INFO

/-- The rows of the decoder. -/
def rowsDecoder : List Row :=
  [ ⟨0x30, 0x00000030, 0xFF80F0FF⟩,   -- DEC_NEW
    ⟨0x31, 0x00000031, 0xFFFFFFFF⟩,   -- DEC_INIT
    ⟨0x32, 0x00000032, 0xFEFFFFFF⟩,   -- DEC_DECODE
    ⟨0x33, 0x00000033, 0xFFFFFFFF⟩,   -- DEC_GET_STATE
    ⟨0x34, 0x00000034, 0xFFFFFFFF⟩,   -- DEC_SET_STATE
    ⟨0x35, 0x00000035, 0xFFFFFFFF⟩,   -- DEC_STATUS
    ⟨0x36, 0x00000036, 0xFFFFFFFF⟩ ]   -- DEC_INFO

/-- All 27 rows of R79. -/
def rows : List Row := rowsStream ++ rowsEncoder ++ rowsDecoder

/-- The row of an opcode, if the map has one. -/
def findRow (op : BitVec 8) : Option Row := rows.find? (fun r => r.opcode == op)

/-- The command of an opcode with the fields and operands of a request: the columns "fields" and "operands" of R79. -/
def assemble (op : BitVec 8) (r : Request) : Option Instr :=
  match op.toNat with
  | 0x01 => some .coreErrinfo
  | 0x10 => some (.bsNew (fieldS r.cw))
  | 0x11 => some (.bsWriteBit (fieldS r.cw) (fieldV r.cw))
  | 0x12 => some (.bsWriteNumber (fieldS r.cw) (fieldN r.cw) r.a)
  | 0x13 => some (.bsToRead (fieldS r.cw))
  | 0x14 => some (.bsReadBit (fieldS r.cw))
  | 0x15 => some (.bsReadNumber (fieldS r.cw) (fieldN r.cw))
  | 0x16 => some (.bsMerge (fieldS r.cw) (fieldT r.cw))
  | 0x17 => some (.bsRemaining (fieldS r.cw))
  | 0x18 => some (.bsTotalSize (fieldS r.cw))
  | 0x19 => some (.bsRewind (fieldS r.cw))
  | 0x1A => some (.bsExport (fieldS r.cw))
  | 0x1B => some (.bsImport (fieldS r.cw) r.input)
  | 0x1C => some (.bsInfo (fieldS r.cw))
  | 0x20 => some (.encNew (fieldN r.cw))
  | 0x21 => some (.encEncode (fieldS r.cw) (fieldV r.cw) (fieldP r.cw) r.a r.b)
  | 0x22 => some (.encClose (fieldS r.cw))
  | 0x23 => some .encGetState
  | 0x24 => some (.encSetState r.a r.b)
  | 0x25 => some .encInfo
  | 0x30 => some (.decNew (fieldS r.cw) (fieldN r.cw))
  | 0x31 => some .decInit
  | 0x32 => some (.decDecode (fieldP r.cw) r.a r.b)
  | 0x33 => some .decGetState
  | 0x34 => some (.decSetState r.a r.b)
  | 0x35 => some .decStatus
  | 0x36 => some .decInfo
  | _ => none

/-- `Decode(CW)` of R83, up to the checks that need `NUM_STREAMS`. -/
def decode (r : Request) : Decoded :=
  match findRow (fieldOP r.cw) with
  | none => .illegal .undefinedOpcode
  | some row =>
    if r.cw &&& row.mask = row.word then
      match assemble row.opcode r with
      | some i => .command i
      | none => .illegal .undefinedOpcode
    else .illegal .unusedBitSet

/-! ### Encoding, from the same table -/

/-- The command word of a command: the opcode, the fields it uses, and zeros (R71, R72, R79). -/
def encodeWord : Instr → CommandWord
  | .coreErrinfo => packWord 0x01 0 0 0 false false
  | .bsNew S => packWord 0x10 S 0 0 false false
  | .bsWriteBit S V => packWord 0x11 S 0 0 V false
  | .bsWriteNumber S N _ => packWord 0x12 S 0 N false false
  | .bsToRead S => packWord 0x13 S 0 0 false false
  | .bsReadBit S => packWord 0x14 S 0 0 false false
  | .bsReadNumber S N => packWord 0x15 S 0 N false false
  | .bsMerge S T => packWord 0x16 S T 0 false false
  | .bsRemaining S => packWord 0x17 S 0 0 false false
  | .bsTotalSize S => packWord 0x18 S 0 0 false false
  | .bsRewind S => packWord 0x19 S 0 0 false false
  | .bsExport S => packWord 0x1A S 0 0 false false
  | .bsImport S _ => packWord 0x1B S 0 0 false false
  | .bsInfo S => packWord 0x1C S 0 0 false false
  | .encNew N => packWord 0x20 0 0 N false false
  | .encEncode S V P _ _ => packWord 0x21 S 0 0 V P
  | .encClose S => packWord 0x22 S 0 0 false false
  | .encGetState => packWord 0x23 0 0 0 false false
  | .encSetState _ _ => packWord 0x24 0 0 0 false false
  | .encInfo => packWord 0x25 0 0 0 false false
  | .decNew S N => packWord 0x30 S 0 N false false
  | .decInit => packWord 0x31 0 0 0 false false
  | .decDecode P _ _ => packWord 0x32 0 0 0 false P
  | .decGetState => packWord 0x33 0 0 0 false false
  | .decSetState _ _ => packWord 0x34 0 0 0 false false
  | .decStatus => packWord 0x35 0 0 0 false false
  | .decInfo => packWord 0x36 0 0 0 false false

/-- Operand word `A` of a command's request (R73); 0 where the command does not use it. -/
def operandA : Instr → Word
  | .bsWriteNumber _ _ A => A
  | .encEncode _ _ _ A _ => A
  | .encSetState A _ => A
  | .decDecode _ A _ => A
  | .decSetState A _ => A
  | _ => 0

/-- Operand word `B` of a command's request (R73); 0 where the command does not use it. -/
def operandB : Instr → Word
  | .encEncode _ _ _ _ B => B
  | .encSetState _ B => B
  | .decDecode _ _ B => B
  | .decSetState _ B => B
  | _ => 0

/-- The payload of a command's request: only BS_IMPORT has one (R70). -/
def payload : Instr → List Byte
  | .bsImport _ IN => IN
  | _ => []

/-- The request that carries a command. -/
def encode (i : Instr) : Request :=
  { cw := encodeWord i, a := operandA i, b := operandB i, input := payload i }

/-- The request whose command word has the low `nbits` bits of `w`, with zero operand words and an empty payload. -/
def tableRequest (nbits w : Nat) : Request :=
  { cw := BitVec.ofNat 32 (w % 2 ^ nbits), a := 0, b := 0, input := [] }

/-- The command that `decode` reads from a word numbered as spec/opcode_table.json numbers it. -/
def decodeTableWord (nbits w : Nat) : Option Instr :=
  match decode (tableRequest nbits w) with
  | .command i => some i
  | .illegal _ => none

end Sys2Proof
end

