-- ==== Sys2Proof/Machine/Operands.lean ====
section
/-! DEFINITION. Operand forms: bit sequences and numbers (spec/00_scope.md rule R12), result words (spec/30_encoding.md
rule R77) and the operand checks of R74 and R76. -/

namespace Sys2Proof.Machine

/-- `Bits_n(v)`: the `n` low bits of `v`, most significant first (R12, R53). -/
def bitsOf : Nat → Nat → List Bool
  | 0, _ => []
  | n + 1, v => v.testBit n :: bitsOf n v

/-- `Num(q)`: the number whose binary digits, most significant first, are `q` (R12). -/
def num (q : List Bool) : Nat := q.foldl (fun acc b => 2 * acc + b.toNat) 0

/-- `Top(b, n)`: the first `n` bits of `Bits_8(b)` (R29). -/
def topBits (b : Byte) (n : Nat) : List Bool := (bitsOf 8 b.toNat).take n

/-- A natural number as a result word (R77). A number that does not fit in 64 bits gives a free value: DESIGN CHOICE (log 5). -/
def resultWord (n : Nat) : Word := if n < 2 ^ 64 then BitVec.ofNat 64 n else Config.freeWord n

/-- A bit, symbol or boolean as a result word: 0 or 1 in bit 0 (R77). -/
def bitWord (b : Bool) : Word := if b then 1 else 0

/-- A slot index names no slot of the block: E_PARAM (R76). -/
def noSuchSlot (s : State) (i : Nat) : Bool := decide (s.slots.length ≤ i)

/-- The width of a number is out of range: E_PARAM (R74). -/
def badWidth (N : Nat) : Bool := decide (Config.maxNumberBits < N)

/-- The precision is out of range: E_PARAM (R6, R74). -/
def badPrecision (N : Nat) : Bool := decide (N < 1 ∨ Config.mMax < N)

end Sys2Proof.Machine
end

