-- ==== Sys2Proof/Machine/Ops.lean ====
section
/-! DEFINITION. The shared operations: slots and their bytes (spec/10_state.md rules R27 to R31, spec/20_memory.md,
spec/40_bitstream.md rules R100 to R104), answering a command, and raising an error, which is CORE's only exception
(spec/60_exceptions.md rules R175 to R182). There is no trap entry and no return from one (R181, R182). -/

namespace Sys2Proof.Machine

/-! ### Slots and bytes -/

/-- `slot[i]` (R11). An index outside the BSU is answered with E_PARAM before any use (R76); `dec.slot` is always inside (R36).
So the value given here for an index outside is never used in a state that keeps the invariant (log 7). -/
def State.slot (s : State) (i : Nat) : Slot := s.slots.getD i (emptySlot .free)

/-- `slot[i] <- t` (R11). -/
def State.setSlot (s : State) (i : Nat) (t : Slot) : State := { s with slots := s.slots.set i t }

/-- `MemRead(s, i)`: byte `j` of slot `i`'s buffer, if that byte exists (R11, R50). -/
def State.memRead (s : State) (i j : Nat) : Option Byte := (s.slot i).buf[j]?

/-- `FreeSlot(i)` (R101). -/
def State.freeSlot (s : State) (i : Nat) : State := s.setSlot i (emptySlot .free)

/-- The memory holds a buffer of `n` bytes: `BS_CAPACITY_BYTES` is `UNBOUNDED` or at least `n` (R8). -/
def withinCapacity (cap : Option Nat) (n : Nat) : Bool :=
  match cap with
  | none => true
  | some c => decide (n ≤ c)

/-- `WBits(i)`: the bits of a WRITE-mode slot, in stream order (R28). -/
def Slot.wbits (t : Slot) : List Bool :=
  t.buf.flatMap (fun b => bitsOf 8 b.toNat) ++ bitsOf t.wrCnt t.wrAcc.toNat

/-- `ValidBits(i, j)` (R29). -/
def Slot.validBits (t : Slot) (j : Nat) : Nat := if j + 1 = t.buf.length then t.lastValid else 8

/-- Byte `j` of the buffer; used only where `j < len`. -/
def Slot.byteAt (t : Slot) (j : Nat) : Byte := t.buf.getD j 0

/-- The valid bits of the bytes from index `j` on (R29). -/
def Slot.bitsFrom (t : Slot) (j : Nat) : List Bool :=
  (List.range' j (t.buf.length - j)).flatMap (fun k => topBits (t.byteAt k) (t.validBits k))

/-- `RBits(i)`: the unread bits of a READ-mode slot (R29). -/
def Slot.rbits (t : Slot) : List Bool :=
  match t.progress with
  | .reading => topBits t.rdByte t.rdLeft ++ t.bitsFrom (t.cursor + 1)
  | _ => []

/-- `Remaining(i)` (R30). -/
def Slot.remaining (t : Slot) : Nat :=
  match t.mode with
  | .read => t.rbits.length
  | .write => 0

/-- `TotalSize(i)` (R31). -/
def Slot.totalSize (t : Slot) : Nat :=
  match t.mode with
  | .write => 8 * t.buf.length + t.wrCnt
  | .read => if t.buf.length = 0 then 0 else 8 * (t.buf.length - 1) + t.lastValid

/-- The padded last byte of a partial byte of `wr_cnt` bits (R54). -/
def Slot.paddedByte (t : Slot) : Byte := t.wrAcc <<< (8 - t.wrCnt)

/-- The header byte `0xE0 | nv` of an image (R64, R66). -/
def headerByte (nv : Nat) : Byte := 0xE0 ||| BitVec.ofNat 8 nv

/-- `Image(i)` (R66). -/
def Slot.image (t : Slot) : List Byte :=
  match t.mode with
  | .write =>
    if t.wrCnt > 0 then headerByte t.wrCnt :: (t.buf ++ [t.paddedByte])
    else headerByte 8 :: t.buf
  | .read => headerByte t.lastValid :: t.buf

/-- `Fits(i, j)` (R59). -/
def Slot.fits (cap : Option Nat) (t : Slot) (j : Nat) : Bool := withinCapacity cap (t.buf.length + (t.wrCnt + j) / 8)

/-- One turn of the loop of `AppendBits`: the source's `write_bit` (R102). -/
def Slot.appendBit (t : Slot) (b : Bool) : Slot :=
  let acc : Byte := (t.wrAcc <<< 1) ||| (if b then 1 else 0)
  if t.wrCnt + 1 = 8 then { t with buf := t.buf ++ [acc], wrAcc := 0, wrCnt := 0 }
  else { t with wrAcc := acc, wrCnt := t.wrCnt + 1 }

/-- `AppendBits(i, q)` (R102). -/
def Slot.appendBits (t : Slot) (q : List Bool) : Slot := q.foldl Slot.appendBit t

/-- `PrimeRead(i)` (R103). -/
def Slot.primeRead (t : Slot) : Slot :=
  if t.buf.length > 0 then
    { t with cursor := 0, rdByte := t.byteAt 0, rdLeft := t.validBits 0, progress := .reading }
  else
    { t with cursor := 0, rdByte := 0, rdLeft := 0, progress := .finished }

/-- The padding and the mode switch of BS_TO_READ, before the read fields are primed (R54, R108). -/
def Slot.padToRead (t : Slot) : Slot :=
  if t.wrCnt > 0 then
    { t with buf := t.buf ++ [t.paddedByte], lastValid := t.wrCnt, wrAcc := 0, wrCnt := 0, mode := .read }
  else
    { t with lastValid := 8, wrAcc := 0, wrCnt := 0, mode := .read }

/-- What one turn of the loop of `ReadBits` leaves: the source's `read_bit` (R104). -/
def Slot.shiftOut (t : Slot) : Slot :=
  if t.rdLeft - 1 = 0 then
    if t.cursor + 1 < t.buf.length then
      { t with cursor := t.cursor + 1, rdByte := t.byteAt (t.cursor + 1), rdLeft := t.validBits (t.cursor + 1) }
    else
      { t with rdByte := 0, rdLeft := 0, progress := .finished }
  else
    { t with rdByte := t.rdByte <<< 1, rdLeft := t.rdLeft - 1 }

/-- `ReadBits(i, n)`: the bits read, and the slot after (R104). -/
def Slot.readBits : Nat → Slot → List Bool × Slot
  | 0, t => ([], t)
  | n + 1, t =>
    let rest := Slot.readBits n t.shiftOut
    (t.rdByte.msb :: rest.1, rest.2)

/-- The slot that BS_IMPORT makes of an image with the header nibble `nv` and the data bytes `body` (R116). -/
def importedSlot (nv : Nat) (body : List Byte) : Slot :=
  Slot.primeRead { emptySlot .host with buf := body, mode := .read, lastValid := nv }

/-! ### Answering a command -/

/-- A command that succeeds: status OK with the given result words and payload (R11, R70, R175). -/
def reply (s : State) (r : Results) (out : List Byte) : Result :=
  .next { s with responses := s.responses ++ [{ status := .ok, results := r, out := out }] }

/-- The error record after the error `e` of the command word `cw` (R177). -/
def ErrorRecord.record (err : ErrorRecord) (cw : CommandWord) (e : Status) : ErrorRecord :=
  { valid := true
    code := if err.valid then err.code else e
    cw := if err.valid then err.cw else cw
    count := if err.count = BitVec.allOnes 32 then err.count else err.count + 1 }

/-- Raising the error `e`: CORE's one way of taking an exception. The response carries the status, and `info` in R0; the error
record is updated; nothing else changes (R11, R175, R177, R179). -/
def raiseWord (cw : CommandWord) (e : Status) (info : Word) (s : State) : Result :=
  .next { s with
    err := s.err.record cw e
    responses := s.responses ++ [{ status := e, results := { r0 := info }, out := [] }] }

/-- `raise E_X` by a command, whose word is `CW` (R11). Its `info` is 0: the only raises with an `info` are the format errors,
and the offending byte of all four is byte 0 (R116, R176). The word is rebuilt from the command: DEDUCED (log 9). -/
def raise (i : Instr) (e : Status) (s : State) : Result := raiseWord (encodeWord i) e 0 s

/-- A list of checks in the order of R178: each is a failing condition and the error it raises. -/
abbrev Checks := List (Bool × Status)

/-- The error of the first failing check (R175, R178). -/
def firstFailure : Checks → Option Status
  | [] => none
  | (failing, e) :: rest => if failing then some e else firstFailure rest

/-- A command: the first failing check raises its error, and otherwise the command has its effect (R13, R175, R178). -/
def guarded (i : Instr) (s : State) (checks : Checks) (effect : Result) : Result :=
  match firstFailure checks with
  | some e => raise i e s
  | none => effect

/-- `HostSlot(i)` (R100), and the checks after it. -/
def hostSlot (t : Slot) (rest : Checks) : Checks := (t.owner = .free, .eFree) :: (t.owner = .decoder, .eOwned) :: rest

/-! ### The port -/

/-- An illegal word raises E_ILLEGAL (R72, R80). -/
def refuseWord (r : Request) (s : State) : Result := raiseWord r.cw .eIllegal 0 s

/-- The reset event: every field of R20 takes its value of R41, the parameters stay, no response is given (R190), and a new
run starts (R197). -/
def applyReset (s : State) : State :=
  { State.resetWith { numStreams := s.slots.length, capacity := s.capacity } with pending := s.pending }

/-- The state when the host's first event is taken: the rest is still to come. -/
def State.withPending (s : State) (rest : List HostEvent) : State := { s with pending := rest }

end Sys2Proof.Machine
end

