-- ==== Sys2Proof/Machine/Bitstream.lean ====
section
/-! DEFINITION. The commands of the bitstream_buffer_unit (spec/40_bitstream.md rules R105 to R117). Each meaning lists its
rule's checks in the rule's order, which is that of R178, after the slot range check that decoding makes (R83). -/

namespace Sys2Proof.Machine

/-- BS_NEW (R105). -/
def execBsNew (S : Nat) (s : State) : Result :=
  guarded (.bsNew S) s
    [ (noSuchSlot s S, .eParam),
      ((s.slot S).owner = .decoder, .eOwned) ]
    (reply (s.setSlot S (emptySlot .host)) {} [])

/-- BS_WRITE_BIT (R106). -/
def execBsWriteBit (S : Nat) (V : Bool) (s : State) : Result :=
  guarded (.bsWriteBit S V) s
    ((noSuchSlot s S, .eParam) :: hostSlot (s.slot S)
      [ ((s.slot S).mode = .read, .eMode),
        (!(s.slot S).fits s.capacity 1, .eCapacity) ])
    (reply (s.setSlot S ((s.slot S).appendBits [V])) {} [])

/-- BS_WRITE_NUMBER (R107). -/
def execBsWriteNumber (S N : Nat) (A : Word) (s : State) : Result :=
  guarded (.bsWriteNumber S N A) s
    ((noSuchSlot s S, .eParam) :: (badWidth N, .eParam) :: hostSlot (s.slot S)
      [ ((s.slot S).mode = .read, .eMode),
        (!(s.slot S).fits s.capacity N, .eCapacity) ])
    (reply (s.setSlot S ((s.slot S).appendBits (bitsOf N A.toNat))) {} [])

/-- BS_TO_READ (R108): the padded byte needs room of its own (R59). -/
def execBsToRead (S : Nat) (s : State) : Result :=
  guarded (.bsToRead S) s
    ((noSuchSlot s S, .eParam) :: hostSlot (s.slot S)
      [ ((s.slot S).mode = .read, .eMode),
        ((s.slot S).wrCnt > 0 && !withinCapacity s.capacity ((s.slot S).buf.length + 1), .eCapacity) ])
    (reply (s.setSlot S (s.slot S).padToRead.primeRead) {} [])

/-- BS_READ_BIT (R109). -/
def execBsReadBit (S : Nat) (s : State) : Result :=
  guarded (.bsReadBit S) s
    ((noSuchSlot s S, .eParam) :: hostSlot (s.slot S)
      [ ((s.slot S).progress ≠ .reading, .eExhausted) ])
    (reply (s.setSlot S ((s.slot S).readBits 1).2) { r0 := bitWord (((s.slot S).readBits 1).1.headD false) } [])

/-- BS_READ_NUMBER (R110). -/
def execBsReadNumber (S N : Nat) (s : State) : Result :=
  guarded (.bsReadNumber S N) s
    ((noSuchSlot s S, .eParam) :: (badWidth N, .eParam) :: hostSlot (s.slot S)
      [ ((s.slot S).mode = .write, .eExhausted),
        ((s.slot S).remaining < N, .eExhausted) ])
    (reply (s.setSlot S ((s.slot S).readBits N).2) { r0 := resultWord (num ((s.slot S).readBits N).1) } [])

/-- BS_MERGE (R111): each class of check is made on both slots before the next class (R178). The capacity check comes when
both streams are in WRITE mode, so `WBits(T)` is defined. -/
def execBsMerge (S T : Nat) (s : State) : Result :=
  guarded (.bsMerge S T) s
    [ (noSuchSlot s S, .eParam),
      (noSuchSlot s T, .eParam),
      (S = T, .eParam),
      ((s.slot S).owner = .free || (s.slot T).owner = .free, .eFree),
      ((s.slot S).owner = .decoder || (s.slot T).owner = .decoder, .eOwned),
      ((s.slot S).mode = .read || (s.slot T).mode = .read, .eMode),
      (!(s.slot S).fits s.capacity (s.slot T).wbits.length, .eCapacity) ]
    (reply ((s.setSlot S ((s.slot S).appendBits (s.slot T).wbits)).freeSlot T) {} [])

/-- BS_REMAINING (R112). -/
def execBsRemaining (S : Nat) (s : State) : Result :=
  guarded (.bsRemaining S) s
    ((noSuchSlot s S, .eParam) :: hostSlot (s.slot S) [])
    (reply s { r0 := resultWord (s.slot S).remaining } [])

/-- BS_TOTAL_SIZE (R113). -/
def execBsTotalSize (S : Nat) (s : State) : Result :=
  guarded (.bsTotalSize S) s
    ((noSuchSlot s S, .eParam) :: hostSlot (s.slot S) [])
    (reply s { r0 := resultWord (s.slot S).totalSize } [])

/-- BS_REWIND (R114): the cursor alone. -/
def execBsRewind (S : Nat) (s : State) : Result :=
  guarded (.bsRewind S) s
    ((noSuchSlot s S, .eParam) :: hostSlot (s.slot S) [])
    (reply (s.setSlot S { s.slot S with cursor := 0 }) {} [])

/-- BS_EXPORT (R115). -/
def execBsExport (S : Nat) (s : State) : Result :=
  guarded (.bsExport S) s
    ((noSuchSlot s S, .eParam) :: hostSlot (s.slot S) [])
    (reply s {} (s.slot S).image)

/-- The header byte `IN[0]` of an image; looked at only when there is one (R64). -/
def imageHeader (IN : List Byte) : Byte := IN.headD 0

/-- The header's count of valid bits in the last byte, `IN[0][3:0]` (R64). -/
def imageNibble (IN : List Byte) : Nat := ((imageHeader IN).extractLsb' 0 4).toNat

/-- The checks of an image, content before size (R116, 90_conflicts.md C9). -/
def imageChecks (cap : Option Nat) (IN : List Byte) : Checks :=
  [ (IN.length = 0, .eFmtEmpty),
    ((imageHeader IN).extractLsb' 4 4 ≠ 0xE, .eFmtHeader),
    (IN.length = 1, .eFmtHeaderOnly),
    (imageNibble IN = 0 || imageNibble IN > 8, .eFmtNibble),
    (!withinCapacity cap (IN.length - 1), .eCapacity) ]

/-- BS_IMPORT (R116). -/
def execBsImport (S : Nat) (IN : List Byte) (s : State) : Result :=
  guarded (.bsImport S IN) s
    ((noSuchSlot s S, .eParam) :: ((s.slot S).owner = .decoder, .eOwned) :: imageChecks s.capacity IN)
    (reply (s.setSlot S (importedSlot (imageNibble IN) (IN.drop 1))) {} [])

/-- BS_INFO (R117): it works on every slot and changes nothing. -/
def execBsInfo (S : Nat) (s : State) : Result :=
  guarded (.bsInfo S) s
    [ (noSuchSlot s S, .eParam) ]
    (reply s
      { r0 := resultWord (s.slot S).owner.code
        r1 := resultWord (s.slot S).mode.code
        r2 := resultWord (s.slot S).progress.code
        r3 := resultWord (s.slot S).buf.length
        r4 := (s.slot S).wrAcc.setWidth 64
        r5 := resultWord (s.slot S).wrCnt
        r6 := resultWord (s.slot S).cursor
        r7 := (s.slot S).rdByte.setWidth 64
        r8 := resultWord (s.slot S).rdLeft
        r9 := resultWord (s.slot S).lastValid } [])

end Sys2Proof.Machine
end

