-- ==== Sys2Proof/Machine/CoreCommands.lean ====
section
/-! DEFINITION. The core-level command (spec/43_core.md rule R170). -/

namespace Sys2Proof.Machine

/-- CORE_ERRINFO (R170): it reads the error record and changes nothing. -/
def execCoreErrinfo (s : State) : Result :=
  reply s
    { r0 := bitWord s.err.valid
      r1 := resultWord s.err.code.code
      r2 := s.err.cw.setWidth 64
      r3 := s.err.count.setWidth 64 } []

end Sys2Proof.Machine
end

