-- ==== Sys2Proof/Machine/Interval.lean ====
section
/-! DEFINITION. The interval arithmetic that the encoder and the decoder share, on natural numbers (spec/00_scope.md rule R10,
spec/10_state.md rule R35, spec/41_encoder.md rules R130 to R133, spec/42_decoder.md rule R152). -/

namespace Sys2Proof.Machine

/-- `MsbMask(m)` (R35). -/
def msbMask (m : Nat) : Nat := if m = 0 then 0 else 1 <<< (m - 1)

/-- `ValidMask(m)` (R35). -/
def validMask (m : Nat) : Nat := (1 <<< m) - 1

/-- `Narrow(l0, u0, is_mps, cmp, tot)` (R130): `(l1, u1, temp)`, or `none` for DOMAIN. -/
def narrow (l0 u0 : Nat) (isMps : Bool) (cmp tot : Nat) : Option (Nat × Nat × Nat) :=
  let temp := (u0 - l0 + 1) * cmp / tot
  if isMps then
    if temp = 0 then none else some (l0, l0 + temp - 1, temp)
  else some (l0 + temp, u0, temp)

/-- `SharedPrefix(l, u, m)`: how many leading bits, from bit `m - 1` down, `l` and `u` share (R131). -/
def sharedPrefix (l u : Nat) : Nat → Nat
  | 0 => 0
  | m + 1 => if l.testBit m = u.testBit m then sharedPrefix l u m + 1 else 0

/-- The loop of `Renorm` with at most `fuel` turns (R132). -/
def renormLoop (m : Nat) : Nat → Nat → Nat → Nat × Nat × List Bool
  | 0, l, u => (l, u, [])
  | fuel + 1, l, u =>
    if l &&& msbMask m = u &&& msbMask m then
      let rest := renormLoop m fuel ((l <<< 1) &&& validMask m) (((u <<< 1) &&& validMask m) ||| 1)
      (rest.1, rest.2.1, (l &&& msbMask m != 0) :: rest.2.2)
    else (l, u, [])

/-- `Renorm(l, u, m)` (R132). The loop ends by itself within `m` turns (R141): DEDUCED (log 8). -/
def renorm (l u m : Nat) : Nat × Nat × List Bool := renormLoop m m l u

/-- `ContextOK(cmp, tot, m)` (R133). -/
def contextOK (cmp tot m : Nat) : Bool := decide (0 < cmp ∧ cmp < tot ∧ tot < 2 ^ (64 - m))

/-- `TagStar(tag, l0, u0, tot)` (R152). -/
def tagStar (tag l0 u0 tot : Nat) : Nat := ((tag - l0 + 1) * tot - 1) / (u0 - l0 + 1)

/-- The symbol is the most probable one: only the comparison with `P` counts (R130, R135). -/
def isMps (V P : Bool) : Bool := V == P

/-- The symbol that a decision stands for (R153). -/
def decodedSymbol (mps P : Bool) : Bool := if mps then P else !P

end Sys2Proof.Machine
end

