-- ==== Sys2Proof/Machine/DecoderCommands.lean ====
section
/-! DEFINITION. The commands of the decoder unit (spec/42_decoder.md rules R150 to R157). -/

namespace Sys2Proof.Machine

/-- `dec` replaced (R11). -/
def State.setDec (s : State) (d : DecoderUnit) : State := { s with dec := d }

/-- The stream of a replaced decoder is dropped (R101, R150). -/
def State.dropDecoderStream (s : State) : State :=
  if s.dec.phase = .absent then s else s.freeSlot s.dec.slot

/-- DEC_NEW (R150): the slot keeps its read position. -/
def execDecNew (S N : Nat) (s : State) : Result :=
  guarded (.decNew S N) s
    ((noSuchSlot s S, .eParam) :: (badPrecision N, .eParam) :: hostSlot (s.slot S)
      [ ((s.slot S).mode = .write, .eMode) ])
    (reply
      ((s.dropDecoderStream.setSlot S { s.dropDecoderStream.slot S with owner := .decoder }).setDec
        { phase := .uninit, m := N, low := 0, high := BitVec.ofNat 64 (validMask N), tag := 0, count := 0, slot := S })
      {} [])

/-- DEC_INIT (R151). -/
def execDecInit (s : State) : Result :=
  guarded .decInit s
    [ (s.dec.phase ≠ .uninit, .eState),
      ((s.slot s.dec.slot).remaining < s.dec.m, .eExhausted) ]
    (reply
      ((s.setSlot s.dec.slot ((s.slot s.dec.slot).readBits s.dec.m).2).setDec
        { s.dec with phase := .ready, tag := BitVec.ofNat 64 (num ((s.slot s.dec.slot).readBits s.dec.m).1) }) {} [])

/-- The tag after a renormalisation of `q.length` shifts that read the bits `q` (R153). -/
def shiftTag (tag m : Nat) (q : List Bool) : Nat := ((tag <<< q.length) &&& validMask m) ||| num q

/-- DEC_DECODE (R153). -/
def execDecDecode (P : Bool) (A B : Word) (s : State) : Result :=
  guarded (.decDecode P A B) s
    [ (s.dec.phase ≠ .ready, .eState),
      (!contextOK A.toNat B.toNat s.dec.m, .eDomain),
      (s.dec.tag.toNat < s.dec.low.toNat, .eDomain) ]
    (let mps := decide (tagStar s.dec.tag.toNat s.dec.low.toNat s.dec.high.toNat B.toNat < A.toNat)
    match narrow s.dec.low.toNat s.dec.high.toNat mps A.toNat B.toNat with
    | none => raise (.decDecode P A B) .eDomain s
    | some (l1, u1, _) =>
      let k := sharedPrefix l1 u1 s.dec.m
      guarded (.decDecode P A B) s
        [ ((s.slot s.dec.slot).remaining < k, .eExhausted) ]
        (let rd := (s.slot s.dec.slot).readBits k
        let r := renorm l1 u1 s.dec.m
        reply
          ((s.setSlot s.dec.slot rd.2).setDec
            { s.dec with
              low := BitVec.ofNat 64 r.1
              high := BitVec.ofNat 64 r.2.1
              tag := BitVec.ofNat 64 (shiftTag s.dec.tag.toNat s.dec.m rd.1)
              count := s.dec.count + 1 })
          { r0 := bitWord (decodedSymbol mps P) } []))

/-- DEC_GET_STATE (R154). -/
def execDecGetState (s : State) : Result :=
  guarded .decGetState s
    [ (s.dec.phase = .absent, .eState) ]
    (reply s { r0 := s.dec.low, r1 := s.dec.high } [])

/-- DEC_SET_STATE (R155). -/
def execDecSetState (A B : Word) (s : State) : Result :=
  guarded (.decSetState A B) s
    [ (s.dec.phase = .absent, .eState),
      (!(A.toNat ≤ B.toNat && B.toNat ≤ validMask s.dec.m), .eDomain) ]
    (reply (s.setDec { s.dec with low := A, high := B }) {} [])

/-- DEC_STATUS (R156). -/
def execDecStatus (s : State) : Result :=
  guarded .decStatus s
    [ (s.dec.phase = .absent, .eState) ]
    (reply s
      { r0 := s.dec.low
        r1 := s.dec.high
        r2 := s.dec.count
        r3 := resultWord (s.slot s.dec.slot).remaining } [])

/-- DEC_INFO (R157). -/
def execDecInfo (s : State) : Result :=
  reply s
    { r0 := resultWord s.dec.m
      r1 := resultWord (msbMask s.dec.m)
      r2 := resultWord (validMask s.dec.m)
      r3 := resultWord s.dec.phase.code
      r4 := s.dec.tag
      r5 := resultWord s.dec.slot } []

end Sys2Proof.Machine
end

