-- ==== Sys2Proof/Machine/EncoderCommands.lean ====
section
/-! DEFINITION. The commands of the encoder unit (spec/41_encoder.md rules R134 to R139). -/

namespace Sys2Proof.Machine

/-- `enc` replaced (R11). -/
def State.setEnc (s : State) (e : EncoderUnit) : State := { s with enc := e }

/-- ENC_NEW (R134): allowed in any phase. -/
def execEncNew (N : Nat) (s : State) : Result :=
  guarded (.encNew N) s
    [ (badPrecision N, .eParam) ]
    (reply (s.setEnc { phase := .ready, m := N, low := 0, high := BitVec.ofNat 64 (validMask N) }) {} [])

/-- ENC_ENCODE (R135). -/
def execEncEncode (S : Nat) (V P : Bool) (A B : Word) (s : State) : Result :=
  guarded (.encEncode S V P A B) s
    ((noSuchSlot s S, .eParam) :: hostSlot (s.slot S)
      [ (s.enc.phase ≠ .ready, .eState),
        ((s.slot S).mode = .read, .eMode),
        (!contextOK A.toNat B.toNat s.enc.m, .eDomain) ])
    (match narrow s.enc.low.toNat s.enc.high.toNat (isMps V P) A.toNat B.toNat with
    | none => raise (.encEncode S V P A B) .eDomain s
    | some (l1, u1, _) =>
      let r := renorm l1 u1 s.enc.m
      guarded (.encEncode S V P A B) s
        [ (!(s.slot S).fits s.capacity r.2.2.length, .eCapacity) ]
        (reply
          ((s.setSlot S ((s.slot S).appendBits r.2.2)).setEnc
            { s.enc with low := BitVec.ofNat 64 r.1, high := BitVec.ofNat 64 r.2.1 }) {} []))

/-- ENC_CLOSE (R136): only the phase of the encoder changes. -/
def execEncClose (S : Nat) (s : State) : Result :=
  guarded (.encClose S) s
    ((noSuchSlot s S, .eParam) :: hostSlot (s.slot S)
      [ (s.enc.phase ≠ .ready, .eState),
        ((s.slot S).mode = .read, .eMode),
        (!(s.slot S).fits s.capacity s.enc.m, .eCapacity) ])
    (reply
      ((s.setSlot S ((s.slot S).appendBits (bitsOf s.enc.m s.enc.low.toNat))).setEnc { s.enc with phase := .closed }) {} [])

/-- ENC_GET_STATE (R137). -/
def execEncGetState (s : State) : Result :=
  guarded .encGetState s
    [ (s.enc.phase = .uninit, .eState) ]
    (reply s { r0 := s.enc.low, r1 := s.enc.high } [])

/-- ENC_SET_STATE (R138). -/
def execEncSetState (A B : Word) (s : State) : Result :=
  guarded (.encSetState A B) s
    [ (s.enc.phase = .uninit, .eState),
      (!(A.toNat ≤ B.toNat && B.toNat ≤ validMask s.enc.m), .eDomain) ]
    (reply (s.setEnc { s.enc with low := A, high := B }) {} [])

/-- ENC_INFO (R139). -/
def execEncInfo (s : State) : Result :=
  reply s
    { r0 := resultWord s.enc.m
      r1 := resultWord (msbMask s.enc.m)
      r2 := resultWord (validMask s.enc.m)
      r3 := resultWord s.enc.phase.code } []

end Sys2Proof.Machine
end

