-- ==== Sys2Proof/Machine/Dispatch.lean ====
section
/-! DEFINITION. One arm per command of spec/30_encoding.md rule R79: each calls its meaning. -/

namespace Sys2Proof.Machine

def exec (i : Instr) (s : State) : Host.Outcome State Fault Refusal :=
  match i with
  | .coreErrinfo => Sys2Proof.Machine.execCoreErrinfo s
  | .bsNew S => Sys2Proof.Machine.execBsNew S s
  | .bsWriteBit S V => Sys2Proof.Machine.execBsWriteBit S V s
  | .bsWriteNumber S N A => Sys2Proof.Machine.execBsWriteNumber S N A s
  | .bsToRead S => Sys2Proof.Machine.execBsToRead S s
  | .bsReadBit S => Sys2Proof.Machine.execBsReadBit S s
  | .bsReadNumber S N => Sys2Proof.Machine.execBsReadNumber S N s
  | .bsMerge S T => Sys2Proof.Machine.execBsMerge S T s
  | .bsRemaining S => Sys2Proof.Machine.execBsRemaining S s
  | .bsTotalSize S => Sys2Proof.Machine.execBsTotalSize S s
  | .bsRewind S => Sys2Proof.Machine.execBsRewind S s
  | .bsExport S => Sys2Proof.Machine.execBsExport S s
  | .bsImport S IN => Sys2Proof.Machine.execBsImport S IN s
  | .bsInfo S => Sys2Proof.Machine.execBsInfo S s
  | .encNew N => Sys2Proof.Machine.execEncNew N s
  | .encEncode S V P A B => Sys2Proof.Machine.execEncEncode S V P A B s
  | .encClose S => Sys2Proof.Machine.execEncClose S s
  | .encGetState => Sys2Proof.Machine.execEncGetState s
  | .encSetState A B => Sys2Proof.Machine.execEncSetState A B s
  | .encInfo => Sys2Proof.Machine.execEncInfo s
  | .decNew S N => Sys2Proof.Machine.execDecNew S N s
  | .decInit => Sys2Proof.Machine.execDecInit s
  | .decDecode P A B => Sys2Proof.Machine.execDecDecode P A B s
  | .decGetState => Sys2Proof.Machine.execDecGetState s
  | .decSetState A B => Sys2Proof.Machine.execDecSetState A B s
  | .decStatus => Sys2Proof.Machine.execDecStatus s
  | .decInfo => Sys2Proof.Machine.execDecInfo s

end Sys2Proof.Machine
end

