-- ==== Sys2Proof/Machine/Step.lean ====
section
/-! DEFINITION. One step of the block: the host's next event, taken to completion (spec/00_scope.md rule R13,
spec/70_reset_and_hazards.md rules R190, R194, R198). -/

namespace Sys2Proof.Machine

/-- One request: decode it, and either raise E_ILLEGAL or run the command (R83). The request is one fixed value, served whole:
what happens when a host changes it after issuing it (R198) the spec leaves open, and the model shows none of it: DESIGN CHOICE
(log 19). -/
def serve (r : Request) (s : State) : Result :=
  match decode r with
  | .illegal _ => refuseWord r s
  | .command i => exec i s

/-- One step. With no event to take the block holds its state (R188): DEDUCED (log 4). A request is taken from `pending` as it
was issued, with its operand words and payload, and answered in this one step: a change of a request after its issue (R198) is
no event of the model: DESIGN CHOICE (log 19). -/
def step (s : State) : Host.Outcome State Fault Refusal :=
  match s.pending with
  | [] => .next s
  | .reset :: rest => .next (applyReset (s.withPending rest))
  | .request r :: rest => serve r (s.withPending rest)

/-- The state in which the host's next request carries the word `w` of spec/opcode_table.json, with zero operand words and an
empty payload (log 2). -/
def State.withFetchWord (s : State) (nbits w : Nat) : State :=
  s.withPending (.request (tableRequest nbits w) :: s.pending)

end Sys2Proof.Machine
end

