-- ==== Sys2Proof/Safety.lean ====
section
/-! DEFINITION. What every state of a run keeps, and what a run without error is, in the terms the claims use
(spec/10_state.md rules R21 to R38, spec/60_exceptions.md rule R177, spec/70_reset_and_hazards.md rule R197). -/

namespace Sys2Proof.Machine

/-- The write fields of a slot (R25), and what a WRITE-mode slot holds in the others (R24, R26, R27, R114). -/
abbrev Slot.WriteOk (t : Slot) : Prop :=
  t.wrCnt ≤ 7 ∧ t.wrAcc.toNat < 2 ^ t.wrCnt ∧
  (t.mode = .write → t.progress = .notStarted ∧ t.rdByte = 0 ∧ t.rdLeft = 0 ∧ t.cursor = 0 ∧ t.lastValid = 8)

/-- The read fields of a slot (R21, R24, R25, R26). -/
abbrev Slot.ReadOk (t : Slot) : Prop :=
  1 ≤ t.lastValid ∧ t.lastValid ≤ 8 ∧ t.cursor ≤ t.buf.length - 1 ∧
  (t.mode = .read → t.progress ≠ .notStarted ∧ t.wrAcc = 0 ∧ t.wrCnt = 0) ∧
  (t.progress = .reading → 1 ≤ t.rdLeft ∧ t.rdLeft ≤ 8 ∧ t.cursor < t.buf.length) ∧
  (t.progress = .finished → t.rdLeft = 0 ∧ t.rdByte = 0)

/-- A legal slot (R21 to R27): its buffer is within the capacity, its fields agree with its mode and progress, a FREE slot is
`EmptySlot(FREE)`, and a slot the decoder owns is in READ mode (R32). -/
abbrev Slot.Ok (cap : Option Nat) (t : Slot) : Prop :=
  withinCapacity cap t.buf.length = true ∧ t.WriteOk ∧ t.ReadOk ∧
  (t.owner = .free → t = emptySlot .free) ∧ (t.owner = .decoder → t.mode = .read)

/-- A legal encoder unit (R33, R34, R38). -/
abbrev EncoderUnit.Ok (e : EncoderUnit) : Prop :=
  (e.phase = .uninit → e.m = 0 ∧ e.low = 0 ∧ e.high = 0) ∧
  (e.phase ≠ .uninit → 1 ≤ e.m ∧ e.m ≤ 32) ∧
  e.low.toNat ≤ e.high.toNat ∧ e.high.toNat ≤ validMask e.m

/-- A legal decoder unit of a block with `n` slots (R36, R37, R38). -/
abbrev DecoderUnit.Ok (n : Nat) (d : DecoderUnit) : Prop :=
  (d.phase = .absent → d.m = 0 ∧ d.low = 0 ∧ d.high = 0 ∧ d.tag = 0 ∧ d.count = 0 ∧ d.slot = 0) ∧
  (d.phase ≠ .absent → 1 ≤ d.m ∧ d.m ≤ 32 ∧ d.slot < n) ∧
  (d.phase = .uninit → d.tag = 0 ∧ d.count = 0) ∧
  d.low.toNat ≤ d.high.toNat ∧ d.high.toNat ≤ validMask d.m ∧ d.tag.toNat ≤ validMask d.m

/-- The ownership invariant (R32). -/
abbrev State.OwnershipOk (s : State) : Prop :=
  ∀ i, i < s.slots.length → ((s.slot i).owner = .decoder ↔ s.dec.phase ≠ .absent ∧ s.dec.slot = i)

/-- A legal error record (R40, R177). -/
abbrev ErrorRecord.Ok (e : ErrorRecord) : Prop :=
  (e.valid = false → e.code = .ok ∧ e.cw = 0 ∧ e.count = 0) ∧ (e.valid = true → e.code ≠ .ok ∧ e.count ≠ 0)

/-- The parameters of a block (R7, R8). -/
def State.params (s : State) : Params := { numStreams := s.slots.length, capacity := s.capacity }

/-- What every state of a run satisfies. -/
structure State.Inv (s : State) : Prop where
  params : s.params.Ok
  slots : ∀ t ∈ s.slots, t.Ok s.capacity
  enc : s.enc.Ok
  dec : s.dec.Ok s.slots.length
  ownership : s.OwnershipOk
  err : s.err.Ok

/-- How many responses of a run carry an error. -/
def errorCount (rs : List Response) : Nat := rs.countP (fun r => r.status ≠ .ok)

/-- The error record and the responses of the current run agree (R40, R177, R197): the record is valid exactly when some
response has an error status, and it counts those responses, saturating. -/
structure State.RecordAgrees (s : State) : Prop where
  valid : s.err.valid = false ↔ ∀ r ∈ s.responses, r.status = .ok
  count : s.err.count.toNat = min (errorCount s.responses) (2 ^ 32 - 1)
  first : ∀ r, s.responses.find? (fun r => r.status ≠ .ok) = some r → s.err.code = r.status

/-- A run has no error so far (R197). -/
def State.noError (s : State) : Prop := s.err.valid = false

end Sys2Proof.Machine
end

