-- ==== Sys2Proof/Certificates/Slice0/Obligations.lean ====
section
/-! DEFINITION. The statements for the provers. First the words they share, in namespace `Sys2Proof.Claims`, each written from
the spec's own tables and not from the meanings; then the statements, each with the rules it formalises. -/

namespace Sys2Proof.Claims

open Sys2Proof.Machine

/-! ### Words of the statements -/

/-- Executing `i` at `s` answers the state `t` with the response `r`. -/
def Answers (i : Instr) (s t : State) (r : Response) : Prop :=
  exec i s = .next t ∧ t.responses = s.responses ++ [r]

/-- The response of a command that succeeds. -/
def okWith (r : Results) (out : List Byte) : Response := { status := .ok, results := r, out := out }

/-- The slot of R27 with owner `o`, every field written out. -/
def blankSlot (o : Owner) : Slot :=
  { owner := o
    mode := .write
    progress := .notStarted
    buf := []
    wrAcc := 0
    wrCnt := 0
    cursor := 0
    rdByte := 0
    rdLeft := 0
    lastValid := 8 }

/-- The units, the error record, the parameters and the host's events are as before. -/
def KeepsUnits (s t : State) : Prop :=
  t.enc = s.enc ∧ t.dec = s.dec ∧ t.err = s.err ∧ t.capacity = s.capacity ∧ t.pending = s.pending ∧
  t.slots.length = s.slots.length

/-- All but the encoder unit is as before. -/
def KeepsAllButEnc (s t : State) : Prop :=
  t.slots = s.slots ∧ t.dec = s.dec ∧ t.err = s.err ∧ t.capacity = s.capacity ∧ t.pending = s.pending

/-- All but the decoder unit is as before. -/
def KeepsAllButDec (s t : State) : Prop :=
  t.slots = s.slots ∧ t.enc = s.enc ∧ t.err = s.err ∧ t.capacity = s.capacity ∧ t.pending = s.pending

/-- Every slot outside the list is as before, and so is every byte of its buffer. -/
def KeepsSlotsBut (changed : List Nat) (s t : State) : Prop :=
  ∀ j, j ∉ changed → t.slot j = s.slot j ∧ ∀ k, t.memRead j k = s.memRead j k

/-- Slot `S` exists and the host may use its stream (R76, R100). -/
def HostMayUse (s : State) (S : Nat) : Prop := S < s.slots.length ∧ (s.slot S).owner = .host

/-- The fields of R79's column "fields". -/
structure FieldUse where
  S : Bool := false
  T : Bool := false
  N : Bool := false
  V : Bool := false
  P : Bool := false
deriving DecidableEq, Repr

/-- Column "fields" of R79, by opcode. -/
def fieldUse (op : Nat) : Option FieldUse :=
  if op = 0x01 then some {}
  else if op = 0x11 then some { S := true, V := true }
  else if op = 0x12 ∨ op = 0x15 then some { S := true, N := true }
  else if op = 0x16 then some { S := true, T := true }
  else if 0x10 ≤ op ∧ op ≤ 0x1C then some { S := true }
  else if op = 0x20 then some { N := true }
  else if op = 0x21 then some { S := true, V := true, P := true }
  else if op = 0x22 then some { S := true }
  else if 0x23 ≤ op ∧ op ≤ 0x25 then some {}
  else if op = 0x30 then some { S := true, N := true }
  else if op = 0x32 then some { P := true }
  else if op = 0x31 ∨ (0x33 ≤ op ∧ op ≤ 0x36) then some {}
  else none

/-- The opcode has a row, and the reserved field and every field the opcode does not use are zero (R72). -/
def UnusedFieldsZero (cw : CommandWord) : Prop :=
  ∃ u, fieldUse (cw.toNat % 256) = some u ∧ cw.toNat / 2 ^ 25 = 0 ∧
    (u.S = false → cw.toNat / 2 ^ 8 % 2 ^ 4 = 0) ∧ (u.T = false → cw.toNat / 2 ^ 12 % 2 ^ 4 = 0) ∧
    (u.N = false → cw.toNat / 2 ^ 16 % 2 ^ 7 = 0) ∧ (u.V = false → cw.toNat / 2 ^ 23 % 2 = 0) ∧
    (u.P = false → cw.toNat / 2 ^ 24 % 2 = 0)

/-- The opcodes of R80's list. -/
def UnlistedOpcode (op : Nat) : Prop :=
  op = 0x00 ∨ (0x02 ≤ op ∧ op ≤ 0x0F) ∨ (0x1D ≤ op ∧ op ≤ 0x1F) ∨ (0x26 ≤ op ∧ op ≤ 0x2F) ∨ (0x37 ≤ op ∧ op ≤ 0xFF)

/-- The slots a command names in its fields S and T (R79). -/
def namedSlots : Instr → List Nat
  | .bsNew S | .bsWriteBit S _ | .bsWriteNumber S _ _ | .bsToRead S | .bsReadBit S | .bsReadNumber S _ | .bsRemaining S
  | .bsTotalSize S | .bsRewind S | .bsExport S | .bsImport S _ | .bsInfo S | .encEncode S _ _ _ _ | .encClose S
  | .decNew S _ => [S]
  | .bsMerge S T => [S, T]
  | .coreErrinfo | .encNew _ | .encGetState | .encSetState _ _ | .encInfo | .decInit | .decDecode _ _ _ | .decGetState
  | .decSetState _ _ | .decStatus | .decInfo => []

/-- The named slots whose stream a command uses: all but those of the commands that R22 lets work on a FREE slot. -/
def usedStreams : Instr → List Nat
  | .bsNew _ | .bsImport _ _ | .bsInfo _ => []
  | i => namedSlots i

/-- The named slots that may not be the decoder's: all but BS_INFO's (R60, R176). -/
def takenSlots : Instr → List Nat
  | .bsInfo _ => []
  | i => namedSlots i

/-- The count N is outside the range its command accepts (R6, R74). -/
def CountOutOfRange : Instr → Prop
  | .bsWriteNumber _ N _ | .bsReadNumber _ N => 64 < N
  | .encNew N | .decNew _ N => N < 1 ∨ 32 < N
  | _ => False

/-- A unit is in the wrong phase for a command (R176, row E_STATE). -/
def WrongPhase (s : State) : Instr → Prop
  | .encEncode _ _ _ _ _ | .encClose _ => s.enc.phase ≠ .ready
  | .encGetState | .encSetState _ _ => s.enc.phase = .uninit
  | .decInit => s.dec.phase ≠ .uninit
  | .decDecode _ _ _ => s.dec.phase ≠ .ready
  | .decGetState | .decSetState _ _ | .decStatus => s.dec.phase = .absent
  | .coreErrinfo | .bsNew _ | .bsWriteBit _ _ | .bsWriteNumber _ _ _ | .bsToRead _ | .bsReadBit _ | .bsReadNumber _ _
  | .bsMerge _ _ | .bsRemaining _ | .bsTotalSize _ | .bsRewind _ | .bsExport _ | .bsImport _ _ | .bsInfo _ | .encNew _
  | .encInfo | .decNew _ _ | .decInfo => False

/-- A named stream is in the wrong mode for a command (R176, row E_MODE). -/
def WrongMode (s : State) : Instr → Prop
  | .bsWriteBit S _ | .bsWriteNumber S _ _ | .bsToRead S | .encEncode S _ _ _ _ | .encClose S => (s.slot S).mode = .read
  | .bsMerge S T => (s.slot S).mode = .read ∨ (s.slot T).mode = .read
  | .decNew S _ => (s.slot S).mode = .write
  | _ => False

/-- `temp` of the narrowing of a unit's interval (R130). -/
def tempOf (low high A B : Word) : Nat := (high.toNat - low.toNat + 1) * A.toNat / B.toNat

/-- The narrowed interval of a unit (R130). -/
def narrowed (low high : Word) (mps : Bool) (A B : Word) : Nat × Nat :=
  if mps then (low.toNat, low.toNat + tempOf low high A B - 1) else (low.toNat + tempOf low high A B, high.toNat)

/-- The decoder's decision: the scaled tag lies below `count_most_probable` (R152, R153). -/
def decision (d : DecoderUnit) (A B : Word) : Bool :=
  decide (((d.tag.toNat - d.low.toNat + 1) * B.toNat - 1) / (d.high.toNat - d.low.toNat + 1) < A.toNat)

/-- How many bits the renormalisation after an encode shifts out (R131, R135). -/
def encodeShift (e : EncoderUnit) (V P : Bool) (A B : Word) : Nat :=
  sharedPrefix (narrowed e.low e.high (V == P) A B).1 (narrowed e.low e.high (V == P) A B).2 e.m

/-- How many bits the renormalisation of a decode reads (R131, R153). -/
def decodeShift (d : DecoderUnit) (A B : Word) : Nat :=
  sharedPrefix (narrowed d.low d.high (decision d A B) A B).1 (narrowed d.low d.high (decision d A B) A B).2 d.m

/-- A value is outside the domain of a command (R176, row E_DOMAIN; R130, R133). -/
def OutsideDomain (s : State) : Instr → Prop
  | .encEncode _ V P A B =>
    ¬(0 < A.toNat ∧ A.toNat < B.toNat ∧ B.toNat < 2 ^ (64 - s.enc.m)) ∨ (V = P ∧ tempOf s.enc.low s.enc.high A B = 0)
  | .encSetState A B => B.toNat < A.toNat ∨ 2 ^ s.enc.m - 1 < B.toNat
  | .decDecode _ A B =>
    ¬(0 < A.toNat ∧ A.toNat < B.toNat ∧ B.toNat < 2 ^ (64 - s.dec.m)) ∨ s.dec.tag.toNat < s.dec.low.toNat ∨
    (decision s.dec A B = true ∧ tempOf s.dec.low s.dec.high A B = 0)
  | .decSetState A B => B.toNat < A.toNat ∨ 2 ^ s.dec.m - 1 < B.toNat
  | _ => False

/-- A read wants more bits than there are (R176, row E_EXHAUSTED). -/
def WantsTooManyBits (s : State) : Instr → Prop
  | .bsReadBit S => (s.slot S).progress ≠ .reading
  | .bsReadNumber S N => (s.slot S).mode = .write ∨ (s.slot S).remaining < N
  | .decInit => (s.slot s.dec.slot).remaining < s.dec.m
  | .decDecode _ A B => (s.slot s.dec.slot).remaining < decodeShift s.dec A B
  | _ => False

/-- The bits that a command appends to its slot S, when it succeeds (R57, R135, R136). -/
def bitsAppended (s : State) : Instr → Nat
  | .bsWriteBit _ _ => 1
  | .bsWriteNumber _ N _ => N
  | .bsMerge _ T => (s.slot T).wbits.length
  | .encEncode _ V P A B => encodeShift s.enc V P A B
  | .encClose _ => s.enc.m
  | _ => 0

/-- The slot that a command appends to. -/
def appendTarget : Instr → Option Nat
  | .bsWriteBit S _ | .bsWriteNumber S _ _ | .bsMerge S _ | .encEncode S _ _ _ _ | .encClose S => some S
  | _ => none

/-- A buffer of `n` bytes is more than the block holds (R8). -/
def TooManyBytes (s : State) (n : Nat) : Prop := ∃ c, s.capacity = some c ∧ c < n

/-- A command would exceed the capacity (R176, row E_CAPACITY; R59, R108, R116). -/
def ExceedsCapacity (s : State) (i : Instr) : Prop :=
  (∃ S, appendTarget i = some S ∧
    TooManyBytes s ((s.slot S).buf.length + ((s.slot S).wrCnt + bitsAppended s i) / 8)) ∨
  (∃ S, i = .bsToRead S ∧ 0 < (s.slot S).wrCnt ∧ TooManyBytes s ((s.slot S).buf.length + 1)) ∨
  (∃ S IN, i = .bsImport S IN ∧ TooManyBytes s (IN.length - 1))

/-- The causes of R176's table: error `e` applies to command `i` at `s`. -/
def Applies (i : Instr) (s : State) : Status → Prop
  | .ok | .eIllegal => False
  | .eParam => (∃ S ∈ namedSlots i, s.slots.length ≤ S) ∨ CountOutOfRange i ∨ ∃ S, i = .bsMerge S S
  | .eFree => ∃ S ∈ usedStreams i, (s.slot S).owner = .free
  | .eOwned => ∃ S ∈ takenSlots i, (s.slot S).owner = .decoder
  | .eState => WrongPhase s i
  | .eMode => WrongMode s i
  | .eDomain => OutsideDomain s i
  | .eExhausted => WantsTooManyBits s i
  | .eFmtEmpty => ∃ S, i = .bsImport S []
  | .eFmtHeader => ∃ S h body, i = .bsImport S (h :: body) ∧ h.toNat / 16 ≠ 0xE
  | .eFmtHeaderOnly => ∃ S h, i = .bsImport S [h]
  | .eFmtNibble => ∃ S h body, i = .bsImport S (h :: body) ∧ (h.toNat % 16 = 0 ∨ 8 < h.toNat % 16)
  | .eCapacity => ExceedsCapacity s i

/-- The slots that a command may write: those it names and writes, and those the decoder owns (R198). -/
def writtenSlots (s : State) : Instr → List Nat
  | .bsNew S | .bsWriteBit S _ | .bsWriteNumber S _ _ | .bsToRead S | .bsReadBit S | .bsReadNumber S _ | .bsRewind S
  | .bsImport S _ | .encEncode S _ _ _ _ | .encClose S => [S]
  | .bsMerge S T => [S, T]
  | .decNew S _ => if s.dec.phase = .absent then [S] else [S, s.dec.slot]
  | .decInit | .decDecode _ _ _ => [s.dec.slot]
  | .coreErrinfo | .bsRemaining _ | .bsTotalSize _ | .bsExport _ | .bsInfo _ | .encNew _ | .encGetState | .encSetState _ _
  | .encInfo | .decGetState | .decSetState _ _ | .decStatus | .decInfo => []

/-- The commands that read the state and change none of it (R58, R137, R154, R187). -/
def IsQuery : Instr → Prop
  | .coreErrinfo | .bsRemaining _ | .bsTotalSize _ | .bsExport _ | .bsInfo _ | .encGetState | .encInfo | .decGetState
  | .decStatus | .decInfo => True
  | _ => False

/-- The decoder's commands. -/
def IsDecoderCommand : Instr → Prop
  | .decNew _ _ | .decInit | .decDecode _ _ _ | .decGetState | .decSetState _ _ | .decStatus | .decInfo => True
  | .coreErrinfo | .bsNew _ | .bsWriteBit _ _ | .bsWriteNumber _ _ _ | .bsToRead _ | .bsReadBit _ | .bsReadNumber _ _
  | .bsMerge _ _ | .bsRemaining _ | .bsTotalSize _ | .bsRewind _ | .bsExport _ | .bsImport _ _ | .bsInfo _ | .encNew _
  | .encEncode _ _ _ _ _ | .encClose _ | .encGetState | .encSetState _ _ | .encInfo => False

/-- The slot a command reads a stream from with consumption, or rewinds. -/
def readTarget (s : State) : Instr → Option Nat
  | .bsReadBit S | .bsReadNumber S _ | .bsRewind S => some S
  | .decInit | .decDecode _ _ _ => some s.dec.slot
  | _ => none

/-- The bit content of a stream that a copy of it can be read back as: what was written in WRITE mode, every valid bit of the
buffer in READ mode (R28, R29, R66). -/
def allBits (t : Slot) : List Bool :=
  match t.mode with
  | .write => t.wbits
  | .read => t.bitsFrom 0

/-- Run one command, and go on only if it succeeds. -/
def okStep (i : Instr) (s : State) : Option State :=
  match exec i s with
  | .next t => if (t.responses.getLast?.map Response.status) = some .ok then some t else none
  | .fault _ => none
  | .refused _ => none

/-- Run commands one after another, as long as each succeeds. -/
def okRun : List Instr → State → Option State
  | [], s => some s
  | i :: rest, s =>
    match okStep i s with
    | none => none
    | some t => okRun rest t

/-- A symbol with its Context: `V`, `P`, `A`, `B`. -/
structure Symbol where
  V : Bool
  P : Bool
  A : Word
  B : Word
deriving DecidableEq, Repr

end Sys2Proof.Claims

open Sys2Proof Sys2Proof.Machine Sys2Proof.Claims

/-! ### Encoding and the port -/

/-- Decoding the request of a well-formed command gives the command back, with every operand (R70, R71, R79, R83). -/
def Obligations.DecodeOfEncodeIsIdentity : Prop :=
  ∀ i : Instr, i.wf = true → decode (encode i) = .command i

/-- A decoded command is well formed, and its own word is the word it was decoded from (R71, R72, R79). So the word that the
error record keeps is the request's (R177, log 9). -/
def Obligations.EncodeOfDecodeIsIdentity : Prop :=
  ∀ (r : Request) (i : Instr), decode r = .command i → i.wf = true ∧ encodeWord i = r.cw

/-- R72: a word is legal exactly when its opcode has a row and every reserved and unused field is zero; equivalently, when
`(CW & mask) = match` for a row of R79; and a word that is not legal raises E_ILLEGAL. -/
def Obligations.WordIsLegalExactlyWhenUnusedBitsAreZero : Prop :=
  ∀ (r : Request) (s : State),
    ((∃ i, decode r = .command i) ↔ UnusedFieldsZero r.cw) ∧
    ((∃ i, decode r = .command i) ↔ ∃ row ∈ rows, r.cw &&& row.mask = row.word) ∧
    (¬UnusedFieldsZero r.cw → ∃ t, serve r s = .next t ∧
      t.responses = s.responses ++ [{ status := .eIllegal, results := {}, out := [] }])

/-- R80: every opcode outside the map makes a word illegal, the opcode of the all-zero word among them; an illegal word is refused
with E_ILLEGAL, and nothing changes but the error record. -/
def Obligations.UnlistedOpcodesAreIllegal : Prop :=
  ∀ (s : State) (r : Request) (rest : List HostEvent), s.pending = .request r :: rest →
    UnlistedOpcode (r.cw.toNat % 256) ∨ ¬UnusedFieldsZero r.cw →
    step s = .next { s with
      pending := rest
      err := s.err.record r.cw .eIllegal
      responses := s.responses ++ [{ status := .eIllegal, results := {}, out := [] }] }

/-- Words that spec/95_test_vectors.md spells out decode to the commands they stand for. -/
def Obligations.SpecWordsDecode : Prop :=
  decodeTableWord 32 0x00800011 = some (.bsWriteBit 0 true) ∧ decodeTableWord 32 0x000C0015 = some (.bsReadNumber 0 12) ∧
  decodeTableWord 32 0x00001016 = some (.bsMerge 0 1) ∧ decodeTableWord 32 0x00040020 = some (.encNew 4) ∧
  decodeTableWord 32 0x01000021 = some (.encEncode 0 false true 0 0) ∧ decodeTableWord 32 0x00080130 = some (.decNew 1 8) ∧
  decodeTableWord 32 0x01000032 = some (.decDecode true 0 0) ∧ decodeTableWord 32 0x00000101 = none

/-- A step whose event is a legal request runs the decoded command, with that event taken off the host's list and nothing else
around it (R13, R83). -/
def Obligations.StepRunsTheDecodedCommand : Prop :=
  ∀ (s : State) (r : Request) (rest : List HostEvent) (i : Instr),
    s.pending = .request r :: rest → decode r = .command i → step s = exec i { s with pending := rest }

/-- R41: after reset every field holds the value of the table. -/
def Obligations.ResetSetsEveryField : Prop :=
  ∀ (s : State) (rest : List HostEvent), s.pending = .reset :: rest →
    ∃ t, step s = .next t ∧ t.slots.length = s.slots.length ∧
      (∀ i, i < s.slots.length → t.slot i = blankSlot .free) ∧
      t.enc = { phase := .uninit, m := 0, low := 0, high := 0 } ∧
      t.dec = { phase := .absent, m := 0, low := 0, high := 0, tag := 0, count := 0, slot := 0 } ∧
      t.err = { valid := false, code := .ok, cw := 0, count := 0 }

/-- A reset keeps the parameters and the host's later events, and begins a new run with no response: the model's choice of
logs 1, 2 and 3. With no event to take, the block holds its state: log 4 (R188). -/
def Obligations.ResetStartsARunAndIdleHolds : Prop :=
  (∀ (s : State) (rest : List HostEvent), s.pending = .reset :: rest →
    ∃ t, step s = .next t ∧ t.capacity = s.capacity ∧ t.pending = rest ∧ t.responses = []) ∧
  (∀ s : State, s.pending = [] → step s = .next s)

/-- After reset, whatever the parameters: what the INFO commands return, and which status the commands that need a stream, an
encoder or a decoder raise (R191). -/
def Obligations.CommandsAfterReset : Prop :=
  ∀ p : Params, p.Ok → ∀ S, S < p.numStreams →
    (∃ t, Answers (.bsInfo S) (State.resetWith p) t (okWith { r9 := 8 } [])) ∧
    (∃ t, Answers .encInfo (State.resetWith p) t (okWith {} [])) ∧
    (∃ t, Answers .decInfo (State.resetWith p) t (okWith {} [])) ∧
    (∃ t, Answers .coreErrinfo (State.resetWith p) t (okWith {} [])) ∧
    (∀ i, S ∈ usedStreams i → ¬CountOutOfRange i → (∀ T, i ≠ .bsMerge T T) → (∀ T ∈ namedSlots i, T < p.numStreams) →
      ∃ t, Answers i (State.resetWith p) t { status := .eFree, results := {}, out := [] }) ∧
    (∀ i, (i = .encGetState ∨ (∃ A B, i = .encSetState A B) ∨ i = .decInit ∨ (∃ P A B, i = .decDecode P A B) ∨
        i = .decGetState ∨ (∃ A B, i = .decSetState A B) ∨ i = .decStatus) →
      ∃ t, Answers i (State.resetWith p) t { status := .eState, results := {}, out := [] })

/-- Every step goes on, and every command answers exactly once: one response, with the host's later events, the number of slots
and the capacity as before (R70, R175, R194, R196). -/
def Obligations.EveryCommandAnswersOnce : Prop :=
  (∀ s : State, ∃ t, step s = .next t) ∧
  (∀ (i : Instr) (s : State), ∃ t r, Answers i s t r ∧ t.pending = s.pending ∧ t.slots.length = s.slots.length ∧
    t.capacity = s.capacity)

/-! ### Errors -/

/-- R177: after a command whose status is not OK, an illegal word included, the error record is updated as the rule says, with
the request's own command word; after status OK it is as before; reset sets it to zero. -/
def Obligations.ErrorRecordFollowsStatus : Prop :=
  (∀ (s : State) (r : Request) (rest : List HostEvent), s.pending = .request r :: rest →
    ∃ t a, step s = .next t ∧ t.responses = s.responses ++ [a] ∧
      (a.status = .ok → t.err = s.err) ∧
      (a.status ≠ .ok →
        t.err.valid = true ∧
        (s.err.valid = false → t.err.code = a.status ∧ t.err.cw = r.cw) ∧
        (s.err.valid = true → t.err.code = s.err.code ∧ t.err.cw = s.err.cw) ∧
        t.err.count.toNat = min (s.err.count.toNat + 1) (2 ^ 32 - 1))) ∧
  (∀ (s : State) (rest : List HostEvent), s.pending = .reset :: rest →
    ∃ t, step s = .next t ∧ t.err = { valid := false, code := .ok, cw := 0, count := 0 })

/-- A failing command writes no slot, encoder or decoder field (R179); its result words are zero (R70, R77) and its payload is
empty (R70, R176). -/
def Obligations.FailingCommandIsPrecise : Prop :=
  ∀ (i : Instr) (s t : State) (a : Response), Answers i s t a → a.status ≠ .ok →
    t.slots = s.slots ∧ t.enc = s.enc ∧ t.dec = s.dec ∧ t.capacity = s.capacity ∧ t.pending = s.pending ∧
    a.results = {} ∧ a.out = []

/-- A word that does not decode reports E_ILLEGAL (R176, R178); otherwise, when no cause of R176 applies the status is OK (R175),
and when some apply the status is the one of them with the lowest code, which is the order of R178. -/
def Obligations.ReportedStatusIsTheFirstThatApplies : Prop :=
  (∀ (r : Request) (s : State) (why : Reject), decode r = .illegal why →
    ∃ t, serve r s = .next t ∧ t.responses = s.responses ++ [{ status := .eIllegal, results := {}, out := [] }]) ∧
  (∀ (i : Instr) (s t : State) (a : Response), Answers i s t a →
    (a.status = .ok ↔ ∀ e, ¬Applies i s e) ∧
    (a.status ≠ .ok → Applies i s a.status ∧ ∀ e, Applies i s e → a.status.code ≤ e.code))

/-- The decoder's stream is out of the host's reach: a command of the host's that is not BS_INFO and not the decoder's does not
change a slot the decoder owns, and it answers the same whatever stream that slot holds (R32, R60). -/
def Obligations.HostCommandsDoNotReachTheDecodersStream : Prop :=
  ∀ (i : Instr) (s t : State) (j : Nat) (u : Slot),
    ¬IsDecoderCommand i → (∀ S, i ≠ .bsInfo S) → (s.slot j).owner = .decoder → u.owner = .decoder →
    exec i s = .next t → t.slot j = s.slot j ∧ exec i (s.setSlot j u) = .next (t.setSlot j u)

/-! ### Frames -/

/-- A command never writes a slot it does not name or own: every other slot, and every byte of its buffer, is as before
(R198). -/
def Obligations.OnlyNamedOrOwnedSlotsChange : Prop :=
  ∀ (i : Instr) (s t : State), exec i s = .next t → KeepsSlotsBut (writtenSlots s i) s t

/-- What each command may change of the two units (R134 to R139, R150 to R157, R186): ENC_NEW the whole encoder, ENC_ENCODE and
ENC_SET_STATE its interval, ENC_CLOSE its phase; DEC_NEW the whole decoder, DEC_INIT its tag and phase, DEC_DECODE its
interval, tag and counter, DEC_SET_STATE its interval; every other command nothing of either. -/
def Obligations.UnitsChangeOnlyByTheirCommands : Prop :=
  ∀ (i : Instr) (s t : State), exec i s = .next t →
    (match i with
      | .encNew _ => True
      | .encEncode _ _ _ _ _ | .encSetState _ _ => t.enc.phase = s.enc.phase ∧ t.enc.m = s.enc.m
      | .encClose _ => t.enc.m = s.enc.m ∧ t.enc.low = s.enc.low ∧ t.enc.high = s.enc.high
      | _ => t.enc = s.enc) ∧
    (match i with
      | .decNew _ _ => True
      | .decInit => t.dec.m = s.dec.m ∧ t.dec.low = s.dec.low ∧ t.dec.high = s.dec.high ∧ t.dec.count = s.dec.count ∧
          t.dec.slot = s.dec.slot
      | .decDecode _ _ _ => t.dec.phase = s.dec.phase ∧ t.dec.m = s.dec.m ∧ t.dec.slot = s.dec.slot
      | .decSetState _ _ => t.dec.phase = s.dec.phase ∧ t.dec.m = s.dec.m ∧ t.dec.tag = s.dec.tag ∧
          t.dec.count = s.dec.count ∧ t.dec.slot = s.dec.slot
      | _ => t.dec = s.dec)

/-- A query changes no slot and no unit, whatever its status (R58, R187). -/
def Obligations.QueriesChangeNothing : Prop :=
  ∀ (i : Instr) (s t : State), IsQuery i → exec i s = .next t →
    t.slots = s.slots ∧ t.enc = s.enc ∧ t.dec = s.dec ∧ t.capacity = s.capacity ∧ t.pending = s.pending

/-- The frame of the commands that append (BS_WRITE_BIT, BS_WRITE_NUMBER, BS_MERGE, ENC_ENCODE, ENC_CLOSE): when one of them
succeeds on a legal slot S, no byte that was there changes, bytes are added exactly up to the computed length, no other slot
changes but the freed one of BS_MERGE, and of slot S only the buffer and the write accumulator change (R57, R102). -/
def Obligations.AppendingCommandsFrame : Prop :=
  ∀ (i : Instr) (s t : State) (a : Response) (S : Nat),
    appendTarget i = some S → (s.slot S).Ok s.capacity → Answers i s t a → a.status = .ok →
    KeepsSlotsBut (writtenSlots s i) s t ∧
    (∀ k, k < (s.slot S).buf.length → t.memRead S k = s.memRead S k) ∧
    (t.slot S).buf.length = (s.slot S).buf.length + ((s.slot S).wrCnt + bitsAppended s i) / 8 ∧
    (t.slot S).wrCnt = ((s.slot S).wrCnt + bitsAppended s i) % 8 ∧
    (t.slot S).owner = (s.slot S).owner ∧ (t.slot S).mode = (s.slot S).mode ∧ (t.slot S).progress = (s.slot S).progress ∧
    (t.slot S).cursor = (s.slot S).cursor ∧ (t.slot S).rdByte = (s.slot S).rdByte ∧
    (t.slot S).rdLeft = (s.slot S).rdLeft ∧ (t.slot S).lastValid = (s.slot S).lastValid

/-- The frame of the commands that read or rewind (BS_READ_BIT, BS_READ_NUMBER, BS_REWIND, DEC_INIT, DEC_DECODE): every byte of
every slot is as before, no other slot changes, and of the slot itself only the read fields change; so TotalSize does not
change (R31, R104, R114). -/
def Obligations.ReadingCommandsFrame : Prop :=
  ∀ (i : Instr) (s t : State) (S : Nat), readTarget s i = some S → exec i s = .next t →
    (∀ j k, t.memRead j k = s.memRead j k) ∧ (∀ j, j ≠ S → t.slot j = s.slot j) ∧
    (t.slot S).owner = (s.slot S).owner ∧ (t.slot S).mode = (s.slot S).mode ∧ (t.slot S).wrAcc = (s.slot S).wrAcc ∧
    (t.slot S).wrCnt = (s.slot S).wrCnt ∧ (t.slot S).lastValid = (s.slot S).lastValid ∧
    (t.slot S).totalSize = (s.slot S).totalSize

/-- Read mode is left only by replacing the whole slot: by BS_NEW, or by DEC_NEW dropping the stream of the decoder it replaces
(R23, R101). -/
def Obligations.ReadModeIsLeftOnlyByReplacement : Prop :=
  ∀ (i : Instr) (s t : State) (j : Nat), s.Inv → exec i s = .next t → (s.slot j).mode = .read → (t.slot j).mode = .write →
    (i = .bsNew j ∧ t.slot j = emptySlot .host) ∨
    ((∃ S N, i = .decNew S N) ∧ s.dec.slot = j ∧ t.slot j = emptySlot .free)

/-- The decoded-symbol counter is set to 0 by a successful DEC_NEW, goes up by one modulo `2^64` with each successful DEC_DECODE,
and is otherwise as before (R36, R184). -/
def Obligations.SymbolCounterCountsDecodes : Prop :=
  ∀ (i : Instr) (s t : State) (a : Response), Answers i s t a →
    ((∃ S N, i = .decNew S N) → a.status = .ok → t.dec.count = 0) ∧
    ((∃ P A B, i = .decDecode P A B) → a.status = .ok → t.dec.count.toNat = (s.dec.count.toNat + 1) % 2 ^ 64) ∧
    (a.status ≠ .ok ∨ ((∀ S N, i ≠ .decNew S N) ∧ (∀ P A B, i ≠ .decDecode P A B)) → t.dec.count = s.dec.count)

/-! ### Invariants -/

/-- Every step keeps the invariant: legal parameters, slots, units and record, and exclusive ownership (R7, R8, R21 to R27,
R32 to R38, R40). -/
def Obligations.StepKeepsInvariant : Prop :=
  ∀ s t : State, s.Inv → step s = .next t → t.Inv

/-- The reset state satisfies the invariants, whatever the parameters; so does `State.reset`, whose parameters are the model's
choice (log 1). -/
def Obligations.ResetSatisfiesInvariants : Prop :=
  (∀ p : Params, p.Ok → (State.resetWith p).Inv ∧ (State.resetWith p).RecordAgrees) ∧ State.reset.Inv ∧
  State.reset.RecordAgrees

/-- Every step keeps the record and the responses of the run in agreement: the run has no error exactly when every response had
status OK, the count is the saturated number of error responses, and the code is the first error's (R40, R177, R197). That a
reset empties the list of responses is the model's choice of log 3. -/
def Obligations.StepKeepsRecordAgreement : Prop :=
  ∀ s t : State, s.RecordAgrees → step s = .next t → t.RecordAgrees ∧ (t.noError ↔ ∀ r ∈ t.responses, r.status = .ok)

/-- R140: after a successful ENC_NEW, ENC_ENCODE, ENC_SET_STATE, DEC_NEW, DEC_DECODE or DEC_SET_STATE the unit has
`low <= high <= 2^m - 1`, and after a successful ENC_ENCODE or DEC_DECODE also `low < 2^(m-1) <= high`, so that the top bits
differ and the interval has at least two values. -/
def Obligations.IntervalAfterCommand : Prop :=
  ∀ (i : Instr) (s t : State) (a : Response), s.Inv → Answers i s t a → a.status = .ok →
    ((∃ N, i = .encNew N) ∨ (∃ S V P A B, i = .encEncode S V P A B) ∨ (∃ A B, i = .encSetState A B) →
      t.enc.low.toNat ≤ t.enc.high.toNat ∧ t.enc.high.toNat ≤ 2 ^ t.enc.m - 1) ∧
    ((∃ S N, i = .decNew S N) ∨ (∃ P A B, i = .decDecode P A B) ∨ (∃ A B, i = .decSetState A B) →
      t.dec.low.toNat ≤ t.dec.high.toNat ∧ t.dec.high.toNat ≤ 2 ^ t.dec.m - 1) ∧
    ((∃ S V P A B, i = .encEncode S V P A B) →
      t.enc.low.toNat < 2 ^ (t.enc.m - 1) ∧ 2 ^ (t.enc.m - 1) ≤ t.enc.high.toNat ∧
      2 ≤ t.enc.high.toNat - t.enc.low.toNat + 1) ∧
    ((∃ P A B, i = .decDecode P A B) →
      t.dec.low.toNat < 2 ^ (t.dec.m - 1) ∧ 2 ^ (t.dec.m - 1) ≤ t.dec.high.toNat ∧
      2 ≤ t.dec.high.toNat - t.dec.low.toNat + 1)

/-! ### The commands of the BSU -/

/-- R105: BS_NEW raises E_PARAM on a slot that does not exist and E_OWNED on the decoder's slot, and otherwise leaves
`EmptySlot(HOST)` there, whatever stood there, and nothing else changes; its word has the match and mask of the rule. -/
def Obligations.NewStreamIsEmpty : Prop :=
  ∀ (s : State) (S : Nat), encodeWord (.bsNew S) &&& 0xFFFFF0FF = 0x00000010 ∧
    (s.slots.length ≤ S → ∃ t, Answers (.bsNew S) s t { status := .eParam, results := {}, out := [] }) ∧
    (S < s.slots.length → (s.slot S).owner = .decoder →
      ∃ t, Answers (.bsNew S) s t { status := .eOwned, results := {}, out := [] }) ∧
    (S < s.slots.length → (s.slot S).owner ≠ .decoder →
      ∃ t, Answers (.bsNew S) s t (okWith {} []) ∧ KeepsUnits s t ∧ KeepsSlotsBut [S] s t ∧
        t.slot S = blankSlot .host ∧
        (t.slot S).totalSize = 0)

/-- BS_WRITE_BIT and BS_WRITE_NUMBER complete on a legal WRITE-mode stream of the host with room for the bits: the stream's bits
are those before followed by the bit, or by the N low bits of A, most significant first; no other slot and no unit changes
(R53, R59, R102, R106, R107). -/
def Obligations.WritesAppendTheirBits : Prop :=
  ∀ (s : State) (S : Nat), HostMayUse s S → (s.slot S).Ok s.capacity → (s.slot S).mode = .write →
    (∀ V : Bool, ¬TooManyBytes s ((s.slot S).buf.length + ((s.slot S).wrCnt + 1) / 8) →
      ∃ t, Answers (.bsWriteBit S V) s t (okWith {} []) ∧ KeepsUnits s t ∧ KeepsSlotsBut [S] s t ∧
        (t.slot S).wbits = (s.slot S).wbits ++ [V]) ∧
    (∀ (N : Nat) (A : Word), N ≤ 64 → ¬TooManyBytes s ((s.slot S).buf.length + ((s.slot S).wrCnt + N) / 8) →
      ∃ t, Answers (.bsWriteNumber S N A) s t (okWith {} []) ∧ KeepsUnits s t ∧ KeepsSlotsBut [S] s t ∧
        (t.slot S).wbits.length = (s.slot S).wbits.length + N ∧ (s.slot S).wbits <+: (t.slot S).wbits ∧
        num ((t.slot S).wbits.drop (s.slot S).wbits.length) = A.toNat % 2 ^ N)

/-- BS_TO_READ completes on a legal WRITE-mode stream of the host with room for a padded byte: the stream is in READ mode, its
unread bits are all the bits written, its size is as before, the bytes already there stay, one byte with the left-aligned
partial bits is added exactly when bits were pending, and it is FINISHED exactly when it has no bits (R54, R103, R108). -/
def Obligations.ToReadKeepsTheBits : Prop :=
  ∀ (s : State) (S : Nat), HostMayUse s S → (s.slot S).Ok s.capacity → (s.slot S).mode = .write →
    ¬(0 < (s.slot S).wrCnt ∧ TooManyBytes s ((s.slot S).buf.length + 1)) →
    ∃ t, Answers (.bsToRead S) s t (okWith {} []) ∧ KeepsUnits s t ∧ KeepsSlotsBut [S] s t ∧
      (t.slot S).owner = .host ∧ (t.slot S).mode = .read ∧ (t.slot S).rbits = (s.slot S).wbits ∧
      (t.slot S).remaining = (s.slot S).totalSize ∧ (t.slot S).totalSize = (s.slot S).totalSize ∧
      (t.slot S).wrAcc = 0 ∧ (t.slot S).wrCnt = 0 ∧ (t.slot S).cursor = 0 ∧
      ((s.slot S).wrCnt = 0 → (t.slot S).buf = (s.slot S).buf ∧ (t.slot S).lastValid = 8) ∧
      (0 < (s.slot S).wrCnt → (t.slot S).lastValid = (s.slot S).wrCnt ∧ ∃ b : Byte,
        (t.slot S).buf = (s.slot S).buf ++ [b] ∧ b.toNat = (s.slot S).wrAcc.toNat * 2 ^ (8 - (s.slot S).wrCnt)) ∧
      ((t.slot S).progress = .finished ↔ (s.slot S).wbits = [])

/-- BS_READ_BIT and BS_READ_NUMBER complete on a legal READ-mode stream of the host with enough unread bits: the first unread bit
comes back as 0 or 1, or the first N as the number they spell, most significant first; the other unread bits stay; with none
left the stream is FINISHED, and reading no bits changes nothing (R53, R104, R109, R110). -/
def Obligations.ReadsReturnTheNextBits : Prop :=
  ∀ (s : State) (S : Nat), HostMayUse s S → (s.slot S).Ok s.capacity → (s.slot S).mode = .read →
    (∀ (b : Bool) (more : List Bool), (s.slot S).rbits = b :: more →
      ∃ t, Answers (.bsReadBit S) s t (okWith { r0 := if b then 1 else 0 } []) ∧ KeepsUnits s t ∧ KeepsSlotsBut [S] s t ∧
        (t.slot S).rbits = more ∧ ((t.slot S).progress = .finished ↔ more = [])) ∧
    (∀ N : Nat, N ≤ 64 → N ≤ (s.slot S).rbits.length →
      ∃ t w, Answers (.bsReadNumber S N) s t (okWith { r0 := w } []) ∧ KeepsUnits s t ∧ KeepsSlotsBut [S] s t ∧
        w.toNat = num ((s.slot S).rbits.take N) ∧ (t.slot S).rbits = (s.slot S).rbits.drop N ∧
        (N = 0 → t.slot S = s.slot S) ∧
        ((t.slot S).progress = .finished ↔ (s.slot S).rbits.length = N))

/-- BS_MERGE completes on two legal WRITE-mode streams of the host with room for the result: S holds its own bits followed by all
of T's, T is freed, and nothing else changes (R111, 90_conflicts.md C4). -/
def Obligations.MergeConcatenates : Prop :=
  ∀ (s : State) (S T : Nat), S ≠ T → HostMayUse s S → HostMayUse s T → (s.slot S).Ok s.capacity →
    (s.slot S).mode = .write → (s.slot T).mode = .write →
    ¬TooManyBytes s ((s.slot S).buf.length + ((s.slot S).wrCnt + (s.slot T).totalSize) / 8) →
    ∃ t, Answers (.bsMerge S T) s t (okWith {} []) ∧ KeepsUnits s t ∧ KeepsSlotsBut [S, T] s t ∧
      (t.slot S).wbits = (s.slot S).wbits ++ (s.slot T).wbits ∧ (t.slot S).owner = .host ∧ (t.slot S).mode = .write ∧
      t.slot T = emptySlot .free

/-- BS_REMAINING and BS_TOTAL_SIZE complete on every legal stream of the host and change nothing. The first word is 0 in WRITE
mode and when FINISHED, and `rd_left` and the valid bits of the bytes after the cursor when READING; the second is the number of
bits written, or of all valid bits of the buffer. A count of `2^64` or more gives a free word (log 5). R30, R31, R112, R113. -/
def Obligations.CountsOfAStream : Prop :=
  ∀ (s : State) (S : Nat), HostMayUse s S → (s.slot S).Ok s.capacity →
    (∃ t w, Answers (.bsRemaining S) s t (okWith { r0 := w } []) ∧ KeepsUnits s t ∧ t.slots = s.slots ∧
      ((s.slot S).progress ≠ .reading → w = 0) ∧
      (∀ n, (s.slot S).progress = .reading →
        n = (s.slot S).rdLeft + (if (s.slot S).cursor + 1 = (s.slot S).buf.length then 0
          else 8 * ((s.slot S).buf.length - (s.slot S).cursor - 2) + (s.slot S).lastValid) →
        n < 2 ^ 64 → w.toNat = n)) ∧
    (∃ t w, Answers (.bsTotalSize S) s t (okWith { r0 := w } []) ∧ KeepsUnits s t ∧ t.slots = s.slots ∧
      ((allBits (s.slot S)).length < 2 ^ 64 → w.toNat = (allBits (s.slot S)).length))

/-- BS_REWIND completes on every stream of the host: the cursor is 0 and no other field, byte, slot or unit changes. While a legal
slot is READING, the rest of the active byte is then read first and byte 1 of the buffer after it (R114). -/
def Obligations.RewindMovesTheCursorOnly : Prop :=
  ∀ (s : State) (S : Nat), HostMayUse s S →
    ∃ t, Answers (.bsRewind S) s t (okWith {} []) ∧ KeepsUnits s t ∧ KeepsSlotsBut [S] s t ∧
      t.slot S = { s.slot S with cursor := 0 } ∧
      ((s.slot S).Ok s.capacity → (s.slot S).progress = .reading →
        (t.slot S).rbits = topBits (s.slot S).rdByte (s.slot S).rdLeft ++ (s.slot S).bitsFrom 1 ∧
        (t.slot S).remaining = (s.slot S).rdLeft + (if (s.slot S).buf.length = 1 then 0
          else 8 * ((s.slot S).buf.length - 2) + (s.slot S).lastValid))

/-- BS_EXPORT completes on every legal stream of the host and changes nothing: the image is a header byte with high nibble 0xE
and, as low nibble, the number of valid bits of the last byte, then the buffer, and in WRITE mode then the padded partial byte if
bits are pending (R64, R65, R66, R115). -/
def Obligations.ExportReturnsTheImage : Prop :=
  ∀ (s : State) (S : Nat), HostMayUse s S → (s.slot S).Ok s.capacity →
    ∃ t h body, Answers (.bsExport S) s t (okWith {} (h :: body)) ∧ KeepsUnits s t ∧ t.slots = s.slots ∧
      h.toNat / 16 = 0xE ∧
      ((s.slot S).mode = .read → h.toNat % 16 = (s.slot S).lastValid ∧ body = (s.slot S).buf) ∧
      ((s.slot S).mode = .write → (s.slot S).wrCnt = 0 → h.toNat % 16 = 8 ∧ body = (s.slot S).buf) ∧
      ((s.slot S).mode = .write → 0 < (s.slot S).wrCnt → h.toNat % 16 = (s.slot S).wrCnt ∧ ∃ b : Byte,
        body = (s.slot S).buf ++ [b] ∧ b.toNat = (s.slot S).wrAcc.toNat * 2 ^ (8 - (s.slot S).wrCnt))

/-- BS_IMPORT completes on every slot that is not the decoder's, for every image with header 0xE1 to 0xE8, at least one data byte
and no more than the capacity: the slot becomes a primed READ-mode stream of the host with those bytes, whatever it held, and
nothing else changes (R55, R103, R116). -/
def Obligations.ImportPrimesTheStream : Prop :=
  ∀ (s : State) (S : Nat) (h : Byte) (body : List Byte), S < s.slots.length → (s.slot S).owner ≠ .decoder →
    0xE1 ≤ h.toNat → h.toNat ≤ 0xE8 → body ≠ [] → ¬TooManyBytes s body.length →
    ∃ t, Answers (.bsImport S (h :: body)) s t (okWith {} []) ∧ KeepsUnits s t ∧ KeepsSlotsBut [S] s t ∧
      (t.slot S).owner = .host ∧ (t.slot S).mode = .read ∧ (t.slot S).progress = .reading ∧ (t.slot S).buf = body ∧
      (t.slot S).lastValid = h.toNat - 0xE0 ∧ (t.slot S).cursor = 0 ∧ (t.slot S).wrAcc = 0 ∧ (t.slot S).wrCnt = 0 ∧
      (t.slot S).remaining = 8 * (body.length - 1) + (h.toNat - 0xE0) ∧ (t.slot S).rbits = (t.slot S).bitsFrom 0

/-- The header round trip: the image that BS_EXPORT returns for a legal stream of the host, imported into a slot T that is not the
decoder's, gives a READ-mode stream whose unread bits are all the bits of the exported one; only the image of a stream without
bits is refused (R66, R115, R116, 90_conflicts.md C1). -/
def Obligations.ImportOfExportGivesTheBits : Prop :=
  ∀ (s t : State) (S T : Nat) (img : List Byte), HostMayUse s S → (s.slot S).Ok s.capacity → T < s.slots.length →
    (s.slot T).owner ≠ .decoder → ¬TooManyBytes s (((allBits (s.slot S)).length + 7) / 8) →
    Answers (.bsExport S) s t (okWith {} img) →
    (allBits (s.slot S) ≠ [] → ∃ u, Answers (.bsImport T img) t u (okWith {} []) ∧
      (u.slot T).rbits = allBits (s.slot S) ∧ (u.slot T).totalSize = (allBits (s.slot S)).length) ∧
    (allBits (s.slot S) = [] → ∃ u, Answers (.bsImport T img) t u { status := .eFmtHeaderOnly, results := {}, out := [] })

/-- R117: BS_INFO completes on every slot of the block, FREE and DECODER ones too, changes nothing, and returns the slot's ten
fields. A length or cursor of `2^64` or more gives a free word (log 5). -/
def Obligations.InfoReturnsTheSlot : Prop :=
  ∀ (s : State) (S : Nat), S < s.slots.length → (s.slot S).Ok s.capacity →
    ∃ t r, Answers (.bsInfo S) s t (okWith r []) ∧ KeepsUnits s t ∧ t.slots = s.slots ∧
      r.r0.toNat = (s.slot S).owner.code ∧ r.r1.toNat = (s.slot S).mode.code ∧ r.r2.toNat = (s.slot S).progress.code ∧
      ((s.slot S).buf.length < 2 ^ 64 → r.r3.toNat = (s.slot S).buf.length) ∧
      r.r4.toNat = (s.slot S).wrAcc.toNat ∧ r.r5.toNat = (s.slot S).wrCnt ∧
      ((s.slot S).cursor < 2 ^ 64 → r.r6.toNat = (s.slot S).cursor) ∧
      r.r7.toNat = (s.slot S).rdByte.toNat ∧ r.r8.toNat = (s.slot S).rdLeft ∧ r.r9.toNat = (s.slot S).lastValid

/-! ### The commands of the encoder -/

/-- R134: ENC_NEW raises E_PARAM for a precision outside 1 to 32, and otherwise, in any phase, makes a READY encoder with the
interval `{0, 2^m - 1}` and touches nothing else; its word has the match and mask of the rule. -/
def Obligations.NewEncoderIsReady : Prop :=
  ∀ (s : State) (N : Nat), encodeWord (.encNew N) &&& 0xFF80FFFF = 0x00000020 ∧
    (N < 1 ∨ 32 < N → ∃ t, Answers (.encNew N) s t { status := .eParam, results := {}, out := [] }) ∧
    (1 ≤ N → N ≤ 32 → ∃ t, Answers (.encNew N) s t (okWith {} []) ∧ KeepsAllButEnc s t ∧
      t.enc = { phase := .ready, m := N, low := 0, high := BitVec.ofNat 64 (2 ^ N - 1) })

/-- ENC_ENCODE completes on a legal state with a READY encoder, a WRITE-mode stream of the host, a Context that R133 allows, an
interval with room for an MPS symbol, and room for the bits: it narrows the interval as R130 says, appends the leading bits that
the two bounds share, and leaves the bounds shifted left by as many bits, with zeros filled into `low` and ones into `high`
(R130 to R133, R135). -/
def Obligations.EncodeNarrowsAndEmits : Prop :=
  ∀ (s : State) (S : Nat) (V P : Bool) (A B : Word), s.Inv → HostMayUse s S → (s.slot S).mode = .write →
    s.enc.phase = .ready → 0 < A.toNat → A.toNat < B.toNat → B.toNat < 2 ^ (64 - s.enc.m) →
    (V = P → tempOf s.enc.low s.enc.high A B ≠ 0) →
    ¬TooManyBytes s ((s.slot S).buf.length + ((s.slot S).wrCnt + encodeShift s.enc V P A B) / 8) →
    ∃ t, Answers (.encEncode S V P A B) s t (okWith {} []) ∧ KeepsSlotsBut [S] s t ∧
      t.dec = s.dec ∧ t.err = s.err ∧ t.capacity = s.capacity ∧ t.pending = s.pending ∧
      (t.slot S).wbits = (s.slot S).wbits ++
        (bitsOf s.enc.m (narrowed s.enc.low s.enc.high (V == P) A B).1).take (encodeShift s.enc V P A B) ∧
      t.enc.phase = .ready ∧ t.enc.m = s.enc.m ∧
      t.enc.low.toNat =
        (narrowed s.enc.low s.enc.high (V == P) A B).1 * 2 ^ encodeShift s.enc V P A B % 2 ^ s.enc.m ∧
      t.enc.high.toNat =
        (narrowed s.enc.low s.enc.high (V == P) A B).2 * 2 ^ encodeShift s.enc V P A B % 2 ^ s.enc.m +
          (2 ^ encodeShift s.enc V P A B - 1)

/-- ENC_CLOSE completes with a READY encoder and a legal WRITE-mode stream of the host with room for m bits: it appends exactly
the m bits of `low`, most significant first, and of the encoder changes only the phase, to CLOSED (R136). -/
def Obligations.CloseAppendsLow : Prop :=
  ∀ (s : State) (S : Nat), HostMayUse s S → (s.slot S).Ok s.capacity → (s.slot S).mode = .write → s.enc.phase = .ready →
    s.enc.low.toNat < 2 ^ s.enc.m → ¬TooManyBytes s ((s.slot S).buf.length + ((s.slot S).wrCnt + s.enc.m) / 8) →
    ∃ t, Answers (.encClose S) s t (okWith {} []) ∧ KeepsSlotsBut [S] s t ∧
      t.enc = { s.enc with phase := .closed } ∧ t.dec = s.dec ∧ t.err = s.err ∧ t.capacity = s.capacity ∧
      t.pending = s.pending ∧ (s.slot S).wbits <+: (t.slot S).wbits ∧
      (t.slot S).wbits.length = (s.slot S).wbits.length + s.enc.m ∧
      num ((t.slot S).wbits.drop (s.slot S).wbits.length) = s.enc.low.toNat

/-- ENC_GET_STATE and ENC_SET_STATE complete in every phase but UNINIT, the second for every pair with `low <= high <= 2^m - 1`,
and ENC_INFO always; they return, or set, exactly what their rules say, and nothing else changes (R35, R137, R138, R139). -/
def Obligations.EncoderStateAccess : Prop :=
  ∀ s : State,
    (s.enc.phase ≠ .uninit →
      ∃ t, Answers .encGetState s t (okWith { r0 := s.enc.low, r1 := s.enc.high } []) ∧ KeepsUnits s t ∧ t.slots = s.slots) ∧
    (∀ A B : Word, s.enc.phase ≠ .uninit → A.toNat ≤ B.toNat → B.toNat ≤ 2 ^ s.enc.m - 1 →
      ∃ t, Answers (.encSetState A B) s t (okWith {} []) ∧ KeepsAllButEnc s t ∧ t.enc = { s.enc with low := A, high := B }) ∧
    (s.enc.m ≤ 32 →
      ∃ t r, Answers .encInfo s t (okWith r []) ∧ KeepsUnits s t ∧ t.slots = s.slots ∧ r.r0.toNat = s.enc.m ∧
        r.r1.toNat = (if s.enc.m = 0 then 0 else 2 ^ (s.enc.m - 1)) ∧ r.r2.toNat = 2 ^ s.enc.m - 1 ∧
        r.r3.toNat = s.enc.phase.code)

/-! ### The commands of the decoder -/

/-- DEC_NEW completes on a READ-mode stream of the host with a precision from 1 to 32: the slot passes to the decoder with its
read position as it is, the stream of a decoder it replaces is freed, and the decoder is UNINIT with the interval
`{0, 2^m - 1}`, tag 0 and count 0 (R101, R150). -/
def Obligations.NewDecoderTakesTheStream : Prop :=
  ∀ (s : State) (S N : Nat), s.OwnershipOk → HostMayUse s S → (s.slot S).mode = .read → 1 ≤ N → N ≤ 32 →
    ∃ t, Answers (.decNew S N) s t (okWith {} []) ∧ t.slot S = { s.slot S with owner := .decoder } ∧
      (s.dec.phase ≠ .absent → s.dec.slot < s.slots.length → t.slot s.dec.slot = emptySlot .free) ∧
      KeepsSlotsBut (if s.dec.phase = .absent then [S] else [S, s.dec.slot]) s t ∧
      t.dec = { phase := .uninit, m := N, low := 0, high := BitVec.ofNat 64 (2 ^ N - 1), tag := 0, count := 0, slot := S } ∧
      t.enc = s.enc ∧ t.err = s.err ∧ t.capacity = s.capacity ∧ t.pending = s.pending

/-- DEC_INIT completes on a legal state with an UNINIT decoder whose stream has at least m unread bits: the tag is the number the
first m of them spell, they are consumed, and the decoder is READY (R151). -/
def Obligations.InitReadsTheTag : Prop :=
  ∀ s : State, s.Inv → s.dec.phase = .uninit → s.dec.m ≤ (s.slot s.dec.slot).rbits.length →
    ∃ t, Answers .decInit s t (okWith {} []) ∧ KeepsSlotsBut [s.dec.slot] s t ∧
      t.dec = { s.dec with phase := .ready, tag := t.dec.tag } ∧
      t.dec.tag.toNat = num ((s.slot s.dec.slot).rbits.take s.dec.m) ∧
      (t.slot s.dec.slot).rbits = (s.slot s.dec.slot).rbits.drop s.dec.m ∧
      t.enc = s.enc ∧ t.err = s.err ∧ t.capacity = s.capacity ∧ t.pending = s.pending

/-- DEC_DECODE completes on a legal state with a READY decoder, a Context that R133 allows, a tag not below `low`, and as many
unread bits as the renormalisation reads: the symbol is P when the scaled tag lies below `count_most_probable` and the other one
when not; the interval is narrowed and renormalised as the encoder's; the tag is shifted and takes in the bits read; the counter
goes up by one modulo `2^64` (R152, R153). -/
def Obligations.DecodeFollowsTheTag : Prop :=
  ∀ (s : State) (P : Bool) (A B : Word), s.Inv → s.dec.phase = .ready →
    0 < A.toNat → A.toNat < B.toNat → B.toNat < 2 ^ (64 - s.dec.m) → s.dec.low.toNat ≤ s.dec.tag.toNat →
    decodeShift s.dec A B ≤ (s.slot s.dec.slot).rbits.length →
    ∃ t, Answers (.decDecode P A B) s t (okWith { r0 := if decision s.dec A B = P then 1 else 0 } []) ∧
      KeepsSlotsBut [s.dec.slot] s t ∧
      (t.slot s.dec.slot).rbits = (s.slot s.dec.slot).rbits.drop (decodeShift s.dec A B) ∧
      t.dec.phase = .ready ∧ t.dec.m = s.dec.m ∧ t.dec.slot = s.dec.slot ∧
      t.dec.low.toNat =
        (narrowed s.dec.low s.dec.high (decision s.dec A B) A B).1 * 2 ^ decodeShift s.dec A B % 2 ^ s.dec.m ∧
      t.dec.high.toNat =
        (narrowed s.dec.low s.dec.high (decision s.dec A B) A B).2 * 2 ^ decodeShift s.dec A B % 2 ^ s.dec.m +
          (2 ^ decodeShift s.dec A B - 1) ∧
      t.dec.tag.toNat =
        s.dec.tag.toNat * 2 ^ decodeShift s.dec A B % 2 ^ s.dec.m +
          num ((s.slot s.dec.slot).rbits.take (decodeShift s.dec A B)) ∧
      t.dec.count.toNat = (s.dec.count.toNat + 1) % 2 ^ 64 ∧
      t.enc = s.enc ∧ t.err = s.err ∧ t.capacity = s.capacity ∧ t.pending = s.pending

/-- DEC_GET_STATE, DEC_SET_STATE and DEC_STATUS complete in every phase but ABSENT, the second for every pair with
`low <= high <= 2^m - 1`, and DEC_INFO always; they return, or set, exactly what their rules say, and nothing else changes
(R154 to R157). A remaining count of `2^64` or more gives a free word (log 5). -/
def Obligations.DecoderStateAccess : Prop :=
  ∀ s : State,
    (s.dec.phase ≠ .absent →
      ∃ t, Answers .decGetState s t (okWith { r0 := s.dec.low, r1 := s.dec.high } []) ∧ KeepsUnits s t ∧ t.slots = s.slots) ∧
    (∀ A B : Word, s.dec.phase ≠ .absent → A.toNat ≤ B.toNat → B.toNat ≤ 2 ^ s.dec.m - 1 →
      ∃ t, Answers (.decSetState A B) s t (okWith {} []) ∧ KeepsAllButDec s t ∧ t.dec = { s.dec with low := A, high := B }) ∧
    (s.dec.phase ≠ .absent →
      ∃ t w, Answers .decStatus s t (okWith { r0 := s.dec.low, r1 := s.dec.high, r2 := s.dec.count, r3 := w } []) ∧
        KeepsUnits s t ∧ t.slots = s.slots ∧
        ((s.slot s.dec.slot).remaining < 2 ^ 64 → w.toNat = (s.slot s.dec.slot).remaining)) ∧
    (s.dec.m ≤ 32 → s.dec.slot < 16 →
      ∃ t r, Answers .decInfo s t (okWith r []) ∧ KeepsUnits s t ∧ t.slots = s.slots ∧ r.r0.toNat = s.dec.m ∧
        r.r1.toNat = (if s.dec.m = 0 then 0 else 2 ^ (s.dec.m - 1)) ∧ r.r2.toNat = 2 ^ s.dec.m - 1 ∧
        r.r3.toNat = s.dec.phase.code ∧ r.r4 = s.dec.tag ∧ r.r5.toNat = s.dec.slot)

/-- R170: CORE_ERRINFO completes in every state, returns the four fields of the error record and changes nothing, so it does not
clear the record. -/
def Obligations.ErrinfoReturnsTheRecord : Prop :=
  ∀ s : State, ∃ t r, Answers .coreErrinfo s t (okWith r []) ∧ KeepsUnits s t ∧ t.slots = s.slots ∧
    r.r0.toNat = (if s.err.valid then 1 else 0) ∧ r.r1.toNat = s.err.code.code ∧ r.r2.toNat = s.err.cw.toNat ∧
    r.r3.toNat = s.err.count.toNat

/-! ### The interval arithmetic -/

/-- R131: `SharedPrefix(l, u, m)` is the largest `k` up to `m` for which the two m-bit values agree on their `k` leading bits;
when they are equal it is `m`; and it is the number of turns of the renormalisation loop. -/
def Obligations.SharedPrefixIsTheLargest : Prop :=
  ∀ l u m : Nat, l < 2 ^ m → u < 2 ^ m →
    sharedPrefix l u m ≤ m ∧ l / 2 ^ (m - sharedPrefix l u m) = u / 2 ^ (m - sharedPrefix l u m) ∧
    (∀ k, k ≤ m → l / 2 ^ (m - k) = u / 2 ^ (m - k) → k ≤ sharedPrefix l u m) ∧
    (l = u → sharedPrefix l u m = m) ∧ (renorm l u m).2.2.length = sharedPrefix l u m

/-- R132: the renormalisation loop equals its closed form. -/
def Obligations.RenormEqualsItsClosedForm : Prop :=
  ∀ l u m : Nat, 1 ≤ m → l < 2 ^ m → u < 2 ^ m →
    renorm l u m =
      ((l <<< sharedPrefix l u m) &&& validMask m,
       ((u <<< sharedPrefix l u m) &&& validMask m) ||| ((1 <<< sharedPrefix l u m) - 1),
       (bitsOf m l).take (sharedPrefix l u m))

/-- The loop of the renormalisation ends because the top bits differ, after exactly `SharedPrefix` turns, at most `m`; a turn
does not shrink the interval but maps `u - l` to `2(u - l) + 1` (R141, 90_conflicts.md C2; log 8). -/
def Obligations.RenormEndsWithDifferingTopBits : Prop :=
  ∀ l u m : Nat, 1 ≤ m → l < 2 ^ m → u < 2 ^ m →
    (renorm l u m).2.2.length = sharedPrefix l u m ∧ sharedPrefix l u m ≤ m ∧
    (renorm l u m).1 &&& msbMask m ≠ (renorm l u m).2.1 &&& msbMask m ∧
    (∀ fuel, m ≤ fuel → renormLoop m fuel l u = renorm l u m) ∧
    (l ≤ u → l &&& msbMask m = u &&& msbMask m →
      (((u <<< 1) &&& validMask m) ||| 1) - ((l <<< 1) &&& validMask m) = 2 * (u - l) + 1)

/-- The narrowing keeps the interval inside itself and in order, and answers DOMAIN exactly for an MPS symbol with `temp = 0`; so
the LPS path never does (R130). -/
def Obligations.NarrowStaysInsideTheInterval : Prop :=
  ∀ (l0 u0 cmp tot : Nat) (mps : Bool), l0 ≤ u0 → 0 < cmp → cmp < tot →
    (narrow l0 u0 mps cmp tot = none ↔ mps = true ∧ (u0 - l0 + 1) * cmp / tot = 0) ∧
    (∀ l1 u1 temp, narrow l0 u0 mps cmp tot = some (l1, u1, temp) →
      temp = (u0 - l0 + 1) * cmp / tot ∧ temp < u0 - l0 + 1 ∧ l0 ≤ l1 ∧ l1 ≤ u1 ∧ u1 ≤ u0 ∧
      (mps = true → l1 = l0 ∧ u1 + 1 = l0 + temp) ∧ (mps = false → l1 = l0 + temp ∧ u1 = u0))

/-- With a Context that R133 allows, no product of the narrowing or of the scaled tag reaches `2^64` (R10, R133). -/
def Obligations.ProductsFitInAWord : Prop :=
  ∀ l0 u0 tag cmp tot m : Nat, 1 ≤ m → m ≤ 32 → l0 ≤ u0 → u0 < 2 ^ m → tag < 2 ^ m → contextOK cmp tot m = true →
    (u0 - l0 + 1) * cmp < 2 ^ 64 ∧ (tag - l0 + 1) * tot < 2 ^ 64

/-- R158: with `tag >= l0`, the scaled tag lies below `cmp` exactly when the tag lies in the MPS subinterval; so a tag inside the
interval stays inside the narrowed one and, after the renormalisation shifts with whatever bits are read, inside the renormalised
one; and the MPS branch is never taken with `temp = 0`. -/
def Obligations.DecisionIsTheSubintervalTest : Prop :=
  ∀ (tag l0 u0 cmp tot m : Nat), l0 ≤ tag → l0 ≤ u0 → 0 < cmp → cmp < tot →
    (tagStar tag l0 u0 tot < cmp ↔ tag + 1 ≤ l0 + (u0 - l0 + 1) * cmp / tot) ∧
    (tagStar tag l0 u0 tot < cmp → (u0 - l0 + 1) * cmp / tot ≠ 0) ∧
    (tag ≤ u0 → 1 ≤ m → u0 < 2 ^ m → ∃ l1 u1 temp,
      narrow l0 u0 (decide (tagStar tag l0 u0 tot < cmp)) cmp tot = some (l1, u1, temp) ∧ l1 ≤ tag ∧ tag ≤ u1 ∧
      ∀ q : List Bool, q.length = sharedPrefix l1 u1 m →
        (renorm l1 u1 m).1 ≤ shiftTag tag m q ∧ shiftTag tag m q ≤ (renorm l1 u1 m).2.1)

/-- There is no rescaling: with a READY encoder, a WRITE-mode stream of the host and a Context that R133 allows, an MPS symbol
raises E_DOMAIN exactly when `(high - low + 1) * cmp < tot`, and then the interval and the streams stay as they are (R130,
R142). -/
def Obligations.NoRescalingOfANarrowInterval : Prop :=
  ∀ (s : State) (S : Nat) (V : Bool) (A B : Word), HostMayUse s S → (s.slot S).mode = .write → s.enc.phase = .ready →
    0 < A.toNat → A.toNat < B.toNat → B.toNat < 2 ^ (64 - s.enc.m) →
    ∃ t a, Answers (.encEncode S V V A B) s t a ∧
      (a.status = .eDomain ↔ (s.enc.high.toNat - s.enc.low.toNat + 1) * A.toNat < B.toNat) ∧
      (a.status = .eDomain → t.enc = s.enc ∧ t.slots = s.slots)

/-- The round trip: if a READY-made encoder encodes a sequence of symbols into an empty WRITE-mode stream of the host and closes,
and the stream is switched to READ and handed to a decoder of the same precision, all with status OK, then decoding with the same
Contexts succeeds, gives the same symbols back, and consumes every bit (R159, 90_conflicts.md C3). This is the BS_TO_READ route;
that the BS_EXPORT and BS_IMPORT route hands over the same bits is `ImportOfExportGivesTheBits`. -/
def Obligations.DecodingReturnsTheEncodedSymbols : Prop :=
  ∀ (s t : State) (S m : Nat) (symbols : List Symbol), s.Inv → HostMayUse s S → s.slot S = emptySlot .host →
    okRun ([.encNew m] ++ symbols.map (fun y => .encEncode S y.V y.P y.A y.B) ++
      [.encClose S, .bsToRead S, .decNew S m, .decInit]) s = some t →
    ∃ u, okRun (symbols.map (fun y => .decDecode y.P y.A y.B)) t = some u ∧
      u.responses = t.responses ++ symbols.map (fun y => okWith { r0 := if y.V then 1 else 0 } []) ∧
      (u.slot S).rbits = [] ∧ u.dec.count.toNat = symbols.length % 2 ^ 64
end

