-- ==== Sys2Proof/Laws/State.lean ====
section
/-! SUPPORT. One lemma per field for each update of the state, so that no proof unfolds a record update, and the laws of
reading a slot after writing one. -/

namespace Sys2Proof.Machine

section Updates
variable (s : State) (i : Nat) (t : Slot) (e : EncoderUnit) (d : DecoderUnit) (rest : List HostEvent)

@[simp] theorem setSlot_slots : (s.setSlot i t).slots = s.slots.set i t := rfl
@[simp] theorem setSlot_capacity : (s.setSlot i t).capacity = s.capacity := rfl
@[simp] theorem setSlot_enc : (s.setSlot i t).enc = s.enc := rfl
@[simp] theorem setSlot_dec : (s.setSlot i t).dec = s.dec := rfl
@[simp] theorem setSlot_err : (s.setSlot i t).err = s.err := rfl
@[simp] theorem setSlot_pending : (s.setSlot i t).pending = s.pending := rfl
@[simp] theorem setSlot_responses : (s.setSlot i t).responses = s.responses := rfl

@[simp] theorem freeSlot_slots : (s.freeSlot i).slots = s.slots.set i (emptySlot .free) := rfl
@[simp] theorem freeSlot_capacity : (s.freeSlot i).capacity = s.capacity := rfl
@[simp] theorem freeSlot_enc : (s.freeSlot i).enc = s.enc := rfl
@[simp] theorem freeSlot_dec : (s.freeSlot i).dec = s.dec := rfl
@[simp] theorem freeSlot_err : (s.freeSlot i).err = s.err := rfl
@[simp] theorem freeSlot_pending : (s.freeSlot i).pending = s.pending := rfl
@[simp] theorem freeSlot_responses : (s.freeSlot i).responses = s.responses := rfl

@[simp] theorem setEnc_slots : (s.setEnc e).slots = s.slots := rfl
@[simp] theorem setEnc_capacity : (s.setEnc e).capacity = s.capacity := rfl
@[simp] theorem setEnc_enc : (s.setEnc e).enc = e := rfl
@[simp] theorem setEnc_dec : (s.setEnc e).dec = s.dec := rfl
@[simp] theorem setEnc_err : (s.setEnc e).err = s.err := rfl
@[simp] theorem setEnc_pending : (s.setEnc e).pending = s.pending := rfl
@[simp] theorem setEnc_responses : (s.setEnc e).responses = s.responses := rfl
@[simp] theorem setEnc_slot : (s.setEnc e).slot i = s.slot i := rfl

@[simp] theorem setDec_slots : (s.setDec d).slots = s.slots := rfl
@[simp] theorem setDec_capacity : (s.setDec d).capacity = s.capacity := rfl
@[simp] theorem setDec_enc : (s.setDec d).enc = s.enc := rfl
@[simp] theorem setDec_dec : (s.setDec d).dec = d := rfl
@[simp] theorem setDec_err : (s.setDec d).err = s.err := rfl
@[simp] theorem setDec_pending : (s.setDec d).pending = s.pending := rfl
@[simp] theorem setDec_responses : (s.setDec d).responses = s.responses := rfl
@[simp] theorem setDec_slot : (s.setDec d).slot i = s.slot i := rfl

@[simp] theorem withPending_slots : (s.withPending rest).slots = s.slots := rfl
@[simp] theorem withPending_capacity : (s.withPending rest).capacity = s.capacity := rfl
@[simp] theorem withPending_enc : (s.withPending rest).enc = s.enc := rfl
@[simp] theorem withPending_dec : (s.withPending rest).dec = s.dec := rfl
@[simp] theorem withPending_err : (s.withPending rest).err = s.err := rfl
@[simp] theorem withPending_pending : (s.withPending rest).pending = rest := rfl
@[simp] theorem withPending_responses : (s.withPending rest).responses = s.responses := rfl
@[simp] theorem withPending_slot : (s.withPending rest).slot i = s.slot i := rfl

end Updates

/-! ### Reading a slot after writing one -/

theorem slot_setSlot_same {s : State} {i : Nat} (h : i < s.slots.length) (t : Slot) : (s.setSlot i t).slot i = t := by
  simp [State.slot, List.getD_eq_getElem?_getD, h]

theorem slot_setSlot_ne {s : State} {i j : Nat} (h : j ≠ i) (t : Slot) : (s.setSlot i t).slot j = s.slot j := by
  simp [State.slot, List.getD_eq_getElem?_getD, Ne.symm h]

theorem slot_freeSlot_same {s : State} {i : Nat} (h : i < s.slots.length) : (s.freeSlot i).slot i = emptySlot .free :=
  slot_setSlot_same h _

theorem slot_freeSlot_ne {s : State} {i j : Nat} (h : j ≠ i) : (s.freeSlot i).slot j = s.slot j :=
  slot_setSlot_ne h _

/-- A slot of the block is one of its slots. -/
theorem slot_mem {s : State} {i : Nat} (h : i < s.slots.length) : s.slot i ∈ s.slots := by
  simp [State.slot, List.getD_eq_getElem?_getD, h]

/-- An index outside the block reads as an empty FREE slot (log 7). -/
theorem slot_outside {s : State} {i : Nat} (h : s.slots.length ≤ i) : s.slot i = emptySlot .free := by
  simp [State.slot, List.getD_eq_getElem?_getD, h]

/-- Writing a slot changes only that slot's bytes (R50). -/
theorem memRead_setSlot_ne {s : State} {i j : Nat} (h : j ≠ i) (t : Slot) (k : Nat) :
    (s.setSlot i t).memRead j k = s.memRead j k := by
  simp only [State.memRead, slot_setSlot_ne h]

/-- Reset of a block leaves every slot empty and FREE (R41). -/
theorem slot_resetWith (p : Params) (i : Nat) : (State.resetWith p).slot i = emptySlot .free := by
  by_cases h : i < p.numStreams <;>
    simp [State.slot, State.resetWith, List.getD_eq_getElem?_getD, h]

end Sys2Proof.Machine
end

