-- ==== Sys2Proof/Laws/Answer.lean ====
section
/-! SUPPORT. What answering a command, raising an error and running a list of checks can do. -/

namespace Sys2Proof.Machine

/-- The first failing check fails, and its error is the one reported. -/
theorem firstFailure_some {cs : Checks} {e : Status} (h : firstFailure cs = some e) : (true, e) ∈ cs := by
  induction cs with
  | nil => simp [firstFailure] at h
  | cons c cs ih =>
    obtain ⟨failing, e'⟩ := c
    simp only [firstFailure] at h
    split at h
    next hc => cases h; simp [hc]
    next => exact List.mem_cons_of_mem _ (ih h)

/-- No failure is reported exactly when every check passes. -/
theorem firstFailure_none {cs : Checks} : firstFailure cs = none ↔ ∀ c ∈ cs, c.1 = false := by
  induction cs with
  | nil => simp [firstFailure]
  | cons c cs ih =>
    obtain ⟨failing, e⟩ := c
    cases failing <;> simp [firstFailure, ih]

/-- A guarded command raises the error of its first failing check, or has its effect. -/
theorem guarded_cases (i : Instr) (s : State) (cs : Checks) (effect : Result) :
    (∃ e, firstFailure cs = some e ∧ guarded i s cs effect = raise i e s) ∨
    (firstFailure cs = none ∧ guarded i s cs effect = effect) := by
  unfold guarded
  cases h : firstFailure cs with
  | none => exact .inr ⟨rfl, rfl⟩
  | some e => exact .inl ⟨e, rfl, rfl⟩

/-- A guarded command all of whose checks pass has its effect. -/
theorem guarded_pass {i : Instr} {s : State} {cs : Checks} {effect : Result} (h : firstFailure cs = none) :
    guarded i s cs effect = effect := by
  simp [guarded, h]

/-- When no check fails, the first one passes and none of the others fails. -/
theorem firstFailure_pass {failing : Bool} {e : Status} {cs : Checks} (h : firstFailure ((failing, e) :: cs) = none) :
    failing = false ∧ firstFailure cs = none := by
  cases failing <;> simp_all [firstFailure]

/-- When no check fails, `HostSlot` found the host's slot and none of the checks after it fails (R100). -/
theorem hostSlot_pass {t : Slot} {cs : Checks} (h : firstFailure (hostSlot t cs) = none) :
    t.owner = .host ∧ firstFailure cs = none := by
  obtain ⟨hfree, h⟩ := firstFailure_pass h
  obtain ⟨hdec, h⟩ := firstFailure_pass h
  exact ⟨by cases ho : t.owner <;> simp_all, h⟩

/-- The state after a raise: the record and the responses, and nothing else (R177, R179). -/
theorem raise_eq (i : Instr) (e : Status) (s : State) :
    raise i e s = .next { s with
      err := s.err.record (encodeWord i) e
      responses := s.responses ++ [{ status := e, results := {}, out := [] }] } := rfl

/-- The state after a reply: one more response (R70). -/
theorem reply_eq (s : State) (r : Results) (out : List Byte) :
    reply s r out = .next { s with responses := s.responses ++ [{ status := .ok, results := r, out := out }] } := rfl

end Sys2Proof.Machine
end

