-- ==== Sys2Proof/Laws/Bits.lean ====
section
/-! SUPPORT. Bit sequences and the numbers they stand for (spec/00_scope.md rule R12). -/

namespace Sys2Proof.Machine

@[simp] theorem bitsOf_length (n v : Nat) : (bitsOf n v).length = n := by
  induction n with
  | zero => rfl
  | succ n ih => simp [bitsOf, ih]

/-- Only the low `n` bits count. -/
theorem bitsOf_mod (n m v : Nat) (h : n ≤ m) : bitsOf n (v % 2 ^ m) = bitsOf n v := by
  induction n with
  | zero => rfl
  | succ n ih =>
    have hn : n < m := h
    simp [bitsOf, ih (Nat.le_of_succ_le h), Nat.testBit_mod_two_pow, hn]

/-- One more bit at the low end. -/
theorem bitsOf_bit (n v : Nat) (b : Bool) : bitsOf (n + 1) (2 * v + b.toNat) = bitsOf n v ++ [b] := by
  induction n with
  | zero => cases b <;> simp [bitsOf, Nat.testBit_zero]
  | succ n ih =>
    have hd : (2 * v + b.toNat) / 2 = v := by have : b.toNat ≤ 1 := Bool.toNat_le b; omega
    rw [bitsOf, ih]
    simp [bitsOf, Nat.testBit_succ, hd]

theorem num_append_bit (q : List Bool) (b : Bool) : num (q ++ [b]) = 2 * num q + b.toNat := by
  simp [num]

theorem num_lt (q : List Bool) : num q < 2 ^ q.length := by
  induction q using List.reverseRecOn with
  | nil => simp [num]
  | append_singleton q b ih =>
    rw [num_append_bit, List.length_append, List.length_singleton, Nat.pow_succ]
    cases b <;> simp <;> omega

/-- Writing a sequence as a number and taking its bits gives the sequence back. -/
theorem bitsOf_num (q : List Bool) : bitsOf q.length (num q) = q := by
  induction q using List.reverseRecOn with
  | nil => rfl
  | append_singleton q b ih =>
    rw [num_append_bit, List.length_append, List.length_singleton, bitsOf_bit, ih]

/-- The bits of `v`, read as a number, are `v mod 2^n`. -/
theorem num_bitsOf (n v : Nat) : num (bitsOf n v) = v % 2 ^ n := by
  induction n generalizing v with
  | zero => simp [bitsOf, num, Nat.mod_one]
  | succ n ih =>
    have hv : v = 2 * (v / 2) + (v % 2) := by omega
    obtain ⟨b, hb⟩ : ∃ b : Bool, b.toNat = v % 2 := by
      rcases Nat.mod_two_eq_zero_or_one v with h | h
      · exact ⟨false, by simp [h]⟩
      · exact ⟨true, by simp [h]⟩
    have hpow : v % 2 ^ (n + 1) = 2 * ((v / 2) % 2 ^ n) + v % 2 := by
      rw [Nat.pow_succ, Nat.mul_comm (2 ^ n) 2, Nat.mod_mul]
      omega
    calc num (bitsOf (n + 1) v) = num (bitsOf (n + 1) (2 * (v / 2) + b.toNat)) := by rw [hb, ← hv]
      _ = 2 * num (bitsOf n (v / 2)) + b.toNat := by rw [bitsOf_bit, num_append_bit]
      _ = v % 2 ^ (n + 1) := by rw [ih, hb, hpow]

/-- Two numbers below `2^n` with the same bits are equal. -/
theorem bitsOf_injective {n v w : Nat} (hv : v < 2 ^ n) (hw : w < 2 ^ n) (h : bitsOf n v = bitsOf n w) : v = w := by
  have := congrArg num h
  rwa [num_bitsOf, num_bitsOf, Nat.mod_eq_of_lt hv, Nat.mod_eq_of_lt hw] at this

theorem topBits_length (b : Byte) (n : Nat) : (topBits b n).length = min n 8 := by
  simp [topBits]

/-- A result word that fits is the number itself. -/
theorem resultWord_toNat {n : Nat} (h : n < 2 ^ 64) : (resultWord n).toNat = n := by
  rw [resultWord, if_pos h, BitVec.toNat_ofNat, Nat.mod_eq_of_lt h]

end Sys2Proof.Machine
end

