-- ==== Sys2Proof/Laws/Encoding.lean ====
section
/-! SUPPORT. The fields of a packed command word (spec/30_encoding.md rule R71), one lemma per field. -/

namespace Sys2Proof

section Fields
variable (op : BitVec 8) (S T N : Nat) (V P : Bool)

theorem fieldOP_pack : fieldOP (packWord op S T N V P) = op := by
  apply BitVec.eq_of_getLsbD_eq
  intro i hi
  interval_cases i <;> simp [fieldOP, packWord]

theorem fieldS_pack (h : S < 2 ^ 4) : fieldS (packWord op S T N V P) = S := by
  have : (packWord op S T N V P).extractLsb' 8 4 = BitVec.ofNat 4 S := by
    apply BitVec.eq_of_getLsbD_eq
    intro i hi
    interval_cases i <;> simp [packWord]
  rw [fieldS, this, BitVec.toNat_ofNat, Nat.mod_eq_of_lt h]

theorem fieldT_pack (h : T < 2 ^ 4) : fieldT (packWord op S T N V P) = T := by
  have : (packWord op S T N V P).extractLsb' 12 4 = BitVec.ofNat 4 T := by
    apply BitVec.eq_of_getLsbD_eq
    intro i hi
    interval_cases i <;> simp [packWord]
  rw [fieldT, this, BitVec.toNat_ofNat, Nat.mod_eq_of_lt h]

theorem fieldN_pack (h : N < 2 ^ 7) : fieldN (packWord op S T N V P) = N := by
  have : (packWord op S T N V P).extractLsb' 16 7 = BitVec.ofNat 7 N := by
    apply BitVec.eq_of_getLsbD_eq
    intro i hi
    interval_cases i <;> simp [packWord]
  rw [fieldN, this, BitVec.toNat_ofNat, Nat.mod_eq_of_lt h]

theorem fieldV_pack : fieldV (packWord op S T N V P) = V := by
  simp [fieldV, packWord]

theorem fieldP_pack : fieldP (packWord op S T N V P) = P := by
  simp [fieldP, packWord]

theorem fieldReserved_pack : fieldReserved (packWord op S T N V P) = 0 := by
  apply BitVec.eq_of_getLsbD_eq
  intro i hi
  interval_cases i <;> simp [fieldReserved, packWord]

end Fields

/-- The row of an opcode of the map is the row that `findRow` gives. -/
theorem rows_distinct : rows.Pairwise (fun x y => x.opcode ≠ y.opcode) := by decide

end Sys2Proof
end

