-- ==== Sys2Proof/Laws/Exec.lean ====
section
/-! SUPPORT. What executing a command can do, said once: it raises an error, or it replies from a state that differs from the one
before in slots and units only. -/

namespace Sys2Proof.Machine

/-- The state that a command replies from has the record, the responses, the host's events, the capacity and the number of slots
of the state before. -/
def Effect (s s' : State) : Prop :=
  s'.err = s.err ∧ s'.responses = s.responses ∧ s'.pending = s.pending ∧ s'.capacity = s.capacity ∧
  s'.slots.length = s.slots.length

/-- A list of checks raises errors only, never OK. -/
def Checks.Errors (cs : Checks) : Prop := ∀ c ∈ cs, c.2 ≠ .ok

/-- An answer that is a raise of an error, or a reply from an allowed effect. -/
def RaisesOrReplies (i : Instr) (s : State) (o : Result) : Prop :=
  (∃ e, e ≠ .ok ∧ o = raise i e s) ∨ (∃ s' r out, Effect s s' ∧ o = reply s' r out)

theorem raises {i : Instr} {s : State} {e : Status} (h : e ≠ .ok) : RaisesOrReplies i s (raise i e s) := .inl ⟨e, h, rfl⟩

theorem replies {i : Instr} {s s' : State} {r : Results} {out : List Byte} (h : Effect s s') :
    RaisesOrReplies i s (reply s' r out) := .inr ⟨s', r, out, h, rfl⟩

theorem guarded_raisesOrReplies {i : Instr} {s : State} {cs : Checks} {effect : Result} (hc : cs.Errors)
    (he : RaisesOrReplies i s effect) : RaisesOrReplies i s (guarded i s cs effect) := by
  rcases guarded_cases i s cs effect with ⟨e, hf, h⟩ | ⟨-, h⟩
  · rw [h]; exact raises (hc _ (firstFailure_some hf))
  · rw [h]; exact he

theorem effect_refl (s : State) : Effect s s := ⟨rfl, rfl, rfl, rfl, rfl⟩

theorem effect_setSlot (s : State) (i : Nat) (t : Slot) : Effect s (s.setSlot i t) := ⟨rfl, rfl, rfl, rfl, by simp⟩

theorem effect_setEnc {s s' : State} (h : Effect s s') (e : EncoderUnit) : Effect s (s'.setEnc e) := h

theorem effect_setDec {s s' : State} (h : Effect s s') (d : DecoderUnit) : Effect s (s'.setDec d) := h

theorem effect_then_setSlot {s s' : State} (h : Effect s s') (i : Nat) (t : Slot) : Effect s (s'.setSlot i t) := by
  obtain ⟨h1, h2, h3, h4, h5⟩ := h
  exact ⟨h1, h2, h3, h4, by simp [h5]⟩

theorem effect_dropDecoderStream (s : State) : Effect s s.dropDecoderStream := by
  unfold State.dropDecoderStream
  split
  · exact effect_refl s
  · exact effect_setSlot s _ _

/-- Every command raises an error or replies (R175). -/
theorem exec_raisesOrReplies (i : Instr) (s : State) : RaisesOrReplies i s (exec i s) := by
  cases i with
  | coreErrinfo => exact replies (effect_refl s)
  | bsNew S => exact guarded_raisesOrReplies (by simp [Checks.Errors]) (replies (effect_setSlot s S _))
  | bsWriteBit S V => exact guarded_raisesOrReplies (by simp [Checks.Errors, hostSlot]) (replies (effect_setSlot s S _))
  | bsWriteNumber S N A => exact guarded_raisesOrReplies (by simp [Checks.Errors, hostSlot]) (replies (effect_setSlot s S _))
  | bsToRead S => exact guarded_raisesOrReplies (by simp [Checks.Errors, hostSlot]) (replies (effect_setSlot s S _))
  | bsReadBit S => exact guarded_raisesOrReplies (by simp [Checks.Errors, hostSlot]) (replies (effect_setSlot s S _))
  | bsReadNumber S N => exact guarded_raisesOrReplies (by simp [Checks.Errors, hostSlot]) (replies (effect_setSlot s S _))
  | bsMerge S T =>
    exact guarded_raisesOrReplies (by simp [Checks.Errors]) (replies (effect_then_setSlot (effect_setSlot s S _) T _))
  | bsRemaining S => exact guarded_raisesOrReplies (by simp [Checks.Errors, hostSlot]) (replies (effect_refl s))
  | bsTotalSize S => exact guarded_raisesOrReplies (by simp [Checks.Errors, hostSlot]) (replies (effect_refl s))
  | bsRewind S => exact guarded_raisesOrReplies (by simp [Checks.Errors, hostSlot]) (replies (effect_setSlot s S _))
  | bsExport S => exact guarded_raisesOrReplies (by simp [Checks.Errors, hostSlot]) (replies (effect_refl s))
  | bsImport S IN => exact guarded_raisesOrReplies (by simp [Checks.Errors, imageChecks]) (replies (effect_setSlot s S _))
  | bsInfo S => exact guarded_raisesOrReplies (by simp [Checks.Errors]) (replies (effect_refl s))
  | encNew N => exact guarded_raisesOrReplies (by simp [Checks.Errors]) (replies (effect_setEnc (effect_refl s) _))
  | encEncode S V P A B =>
    refine guarded_raisesOrReplies (by simp [Checks.Errors, hostSlot]) ?_
    cases narrow s.enc.low.toNat s.enc.high.toNat (isMps V P) A.toNat B.toNat with
    | none => exact raises (by decide)
    | some r => exact guarded_raisesOrReplies (by simp [Checks.Errors]) (replies (effect_setEnc (effect_setSlot s S _) _))
  | encClose S =>
    exact guarded_raisesOrReplies (by simp [Checks.Errors, hostSlot]) (replies (effect_setEnc (effect_setSlot s S _) _))
  | encGetState => exact guarded_raisesOrReplies (by simp [Checks.Errors]) (replies (effect_refl s))
  | encSetState A B => exact guarded_raisesOrReplies (by simp [Checks.Errors]) (replies (effect_setEnc (effect_refl s) _))
  | encInfo => exact replies (effect_refl s)
  | decNew S N =>
    exact guarded_raisesOrReplies (by simp [Checks.Errors, hostSlot])
      (replies (effect_setDec (effect_then_setSlot (effect_dropDecoderStream s) S _) _))
  | decInit => exact guarded_raisesOrReplies (by simp [Checks.Errors]) (replies (effect_setDec (effect_setSlot s _ _) _))
  | decDecode P A B =>
    refine guarded_raisesOrReplies (by simp [Checks.Errors]) ?_
    dsimp only
    split
    · exact raises (by decide)
    · exact guarded_raisesOrReplies (by simp [Checks.Errors]) (replies (effect_setDec (effect_setSlot s _ _) _))
  | decGetState => exact guarded_raisesOrReplies (by simp [Checks.Errors]) (replies (effect_refl s))
  | decSetState A B => exact guarded_raisesOrReplies (by simp [Checks.Errors]) (replies (effect_setDec (effect_refl s) _))
  | decStatus => exact guarded_raisesOrReplies (by simp [Checks.Errors]) (replies (effect_refl s))
  | decInfo => exact replies (effect_refl s)

end Sys2Proof.Machine
end

