-- ==== Sys2Proof/Laws/Interval.lean ====
section
/-! SUPPORT. The interval arithmetic: what the shared prefix, the renormalisation, the narrowing and the decision can do, said
once for each (spec/41_encoder.md rules R130 to R132, spec/42_decoder.md rules R152 and R153). -/

namespace Sys2Proof.Machine

/-- The shared prefix has at most `m` bits (R131). -/
theorem sharedPrefix_le (l u m : Nat) : sharedPrefix l u m ≤ m := by
  induction m with
  | zero => exact Nat.le_refl 0
  | succ m ih => simp only [sharedPrefix]; split <;> omega

/-- The shared prefix has `k` bits exactly when the `k` leading bits agree (R131). -/
theorem le_sharedPrefix_iff (l u : Nat) {m k : Nat} (hk : k ≤ m) :
    k ≤ sharedPrefix l u m ↔ ∀ i, m - k ≤ i → i < m → l.testBit i = u.testBit i := by
  induction m generalizing k with
  | zero => obtain rfl : k = 0 := by omega
            simp
  | succ m ih =>
    simp only [sharedPrefix]
    split
    · next heq =>
      cases k with
      | zero => simp; omega
      | succ k =>
        rw [Nat.add_le_add_iff_right, ih (by omega)]
        constructor
        · intro h i hi hm
          rcases Nat.lt_or_eq_of_le (Nat.le_of_lt_succ hm) with h1 | rfl
          · exact h i (by omega) h1
          · exact heq
        · intro h i hi hm
          exact h i (by omega) (by omega)
    · next hne =>
      constructor
      · intro h i hi hm; omega
      · intro h
        by_contra hk'
        exact hne (h m (by omega) (by omega))

/-- The `k` leading bits of two `m`-bit values agree exactly when the quotients by `2^(m-k)` do. -/
theorem div_eq_iff_testBit {l u m k : Nat} (hl : l < 2 ^ m) (hu : u < 2 ^ m) :
    l / 2 ^ (m - k) = u / 2 ^ (m - k) ↔ ∀ i, m - k ≤ i → i < m → l.testBit i = u.testBit i := by
  constructor
  · intro h i hi _
    have := congrArg (fun x => x.testBit (i - (m - k))) h
    simpa [Nat.testBit_div_two_pow, Nat.sub_add_cancel hi] using this
  · intro h
    apply Nat.eq_of_testBit_eq
    intro i
    simp only [Nat.testBit_div_two_pow]
    by_cases hi : i + (m - k) < m
    · exact h _ (by omega) hi
    · have h2 : (2:Nat) ^ m ≤ 2 ^ (i + (m-k)) := Nat.pow_le_pow_right (by decide) (by omega)
      rw [Nat.testBit_eq_false_of_lt (by omega), Nat.testBit_eq_false_of_lt (by omega)]

/-- The top bit of an `m`-bit value (R35). -/
theorem and_msbMask {l m : Nat} (hm : 1 ≤ m) : l &&& msbMask m = if l.testBit (m-1) then 2 ^ (m-1) else 0 := by
  rw [msbMask, if_neg (by omega), Nat.shiftLeft_eq, Nat.one_mul]
  apply Nat.eq_of_testBit_eq
  intro i
  rw [Nat.testBit_and, Nat.testBit_two_pow]
  by_cases h : m - 1 = i
  · subst h; cases h : l.testBit (m-1) <;> simp
  · cases l.testBit (m-1) <;> simp [h]

/-- The renormalisation takes a turn exactly when the shared prefix is not empty (R132). -/
theorem top_eq_iff {l u m : Nat} (hm : 1 ≤ m) :
    l &&& msbMask m = u &&& msbMask m ↔ 1 ≤ sharedPrefix l u m := by
  rw [le_sharedPrefix_iff _ _ hm, and_msbMask hm, and_msbMask hm]
  have hp : 2 ^ (m - 1) ≠ 0 := by positivity
  constructor
  · intro h i h1 h2
    obtain rfl : i = m - 1 := by omega
    revert h
    cases l.testBit (m-1) <;> cases u.testBit (m-1) <;> simp
    omega
  · intro h; rw [h (m-1) (by omega) (by omega)]

/-- A shift left inside `m` bits (R132). -/
theorem shl_mask (v m k : Nat) : (v <<< k) &&& validMask m = v * 2 ^ k % 2 ^ m := by
  rw [validMask, Nat.shiftLeft_eq, Nat.shiftLeft_eq, Nat.one_mul, Nat.and_two_pow_sub_one_eq_mod]

/-- Filling ones into the low bits that a shift freed (R132). -/
theorem or_low {v k m : Nat} (hk : k ≤ m) : (v * 2 ^ k % 2 ^ m) ||| (2 ^ k - 1) = v * 2 ^ k % 2 ^ m + (2 ^ k - 1) := by
  have hd : v * 2 ^ k % 2 ^ m = 2 ^ k * (v % 2 ^ (m - k)) := by
    conv_lhs => rw [show m = k + (m - k) by omega, Nat.pow_add, Nat.mul_comm v]
    rw [Nat.mul_mod_mul_left]
  have hp : 2 ^ k > 0 := by positivity
  rw [hd, ← Nat.two_pow_add_eq_or_of_lt (by omega)]

/-- A shifted value with its low bits filled stays inside `m` bits. -/
theorem mod_add_le (v : Nat) {k m : Nat} (hk : k ≤ m) : v * 2 ^ k % 2 ^ m + 2 ^ k ≤ 2 ^ m := by
  have hd : v * 2 ^ k % 2 ^ m = 2 ^ k * (v % 2 ^ (m - k)) := by
    conv_lhs => rw [show m = k + (m - k) by omega, Nat.pow_add, Nat.mul_comm v]
    rw [Nat.mul_mod_mul_left]
  have h1 : v % 2 ^ (m - k) < 2 ^ (m - k) := Nat.mod_lt _ (by positivity)
  calc _ = 2 ^ k * (v % 2 ^ (m-k) + 1) := by rw [hd]; ring
    _ ≤ 2 ^ k * 2 ^ (m - k) := Nat.mul_le_mul_left _ h1
    _ = 2 ^ m := by rw [← Nat.pow_add]; congr 1; omega

/-- A turn of the renormalisation takes one bit off the shared prefix (R132, R141). -/
theorem sharedPrefix_turn {l u m : Nat} (hm : 1 ≤ m) (h : 1 ≤ sharedPrefix l u m) :
    sharedPrefix (l * 2 % 2 ^ m) (u * 2 % 2 ^ m + 1) m + 1 = sharedPrefix l u m := by
  have hb : ∀ j, j < m → (l * 2 % 2 ^ m).testBit j = (decide (1 ≤ j) && l.testBit (j-1)) := by
    intro j hj
    have := Nat.testBit_mod_two_pow (l * 2 ^ 1) m j
    rw [Nat.pow_one] at this
    rw [this]; cases j with
    | zero => simp [Nat.testBit_zero]
    | succ j => simp [hj, Nat.testBit_succ]
  have hu : ∀ j, 1 ≤ j → j < m → (u * 2 % 2 ^ m + 1).testBit j = u.testBit (j-1) := by
    intro j h1 hj
    have hev : u * 2 % 2 ^ m % 2 = 0 := by
      rw [Nat.mod_mod_of_dvd _ (dvd_pow_self 2 (by omega))]; omega
    obtain ⟨j, rfl⟩ : ∃ k, j = k + 1 := ⟨j-1, by omega⟩
    rw [Nat.testBit_succ, show (u * 2 % 2 ^ m + 1) / 2 = (u * 2 % 2 ^ m)/2 by omega, ← Nat.testBit_succ, Nat.testBit_mod_two_pow]
    simp [hj, Nat.testBit_succ]
  have key : ∀ k, k + 1 ≤ m → (k ≤ sharedPrefix (l * 2 % 2 ^ m) (u * 2 % 2 ^ m + 1) m ↔ k + 1 ≤ sharedPrefix l u m) := by
    intro k hk
    rw [le_sharedPrefix_iff _ _ (by omega), le_sharedPrefix_iff _ _ hk]
    constructor
    · intro hh i hi him
      by_cases htop : i = m - 1
      · subst htop; exact (le_sharedPrefix_iff _ _ hm).1 h _ (by omega) (by omega)
      · have := hh (i+1) (by omega) (by omega)
        rw [hb _ (by omega), hu _ (by omega) (by omega)] at this
        simpa using this
    · intro hh i hi him
      rw [hb _ him, hu _ (by omega) him, hh (i-1) (by omega) (by omega)]
      simp; intro; omega
  have hfull : ¬ m ≤ sharedPrefix (l * 2 % 2 ^ m) (u * 2 % 2 ^ m + 1) m := by
    rw [le_sharedPrefix_iff _ _ (Nat.le_refl m)]
    intro hh
    have := hh 0 (by omega) (by omega)
    rw [hb 0 (by omega)] at this
    have hev : (u * 2 % 2 ^ m + 1) % 2 = 1 := by
      have : u * 2 % 2 ^ m % 2 = 0 := by rw [Nat.mod_mod_of_dvd _ (dvd_pow_self 2 (by omega))]; omega
      omega
    simp [Nat.testBit_zero, hev] at this
  have h0 := sharedPrefix_le l u m
  have a := (key (sharedPrefix l u m - 1) (by omega)).2 (by omega)
  by_cases hc : sharedPrefix l u m + 1 ≤ m
  · have b := (key (sharedPrefix l u m) hc)
    omega
  · omega

/-- Bit `i` of `Bits_n(v)`, in stream order (R12). -/
theorem bitsOf_getElem (n v i : Nat) (h : i < (bitsOf n v).length) : (bitsOf n v)[i] = v.testBit (n - 1 - i) := by
  induction n generalizing i with
  | zero => simp at h
  | succ n ih =>
    cases i with
    | zero => simp [bitsOf]
    | succ i =>
      simp only [bitsOf, List.getElem_cons_succ]
      rw [ih]; congr 1; omega

/-- The bits shifted out by a turn and by the turns after it. -/
theorem bits_turn {l m k : Nat} (hk : k + 1 ≤ m) :
    l.testBit (m - 1) :: (bitsOf m (l * 2 % 2 ^ m)).take k = (bitsOf m l).take (k + 1) := by
  obtain ⟨m, rfl⟩ : ∃ n, m = n + 1 := ⟨m - 1, by omega⟩
  rw [bitsOf_mod _ _ _ (Nat.le_refl _)]
  have := bitsOf_bit m l false
  have this : bitsOf (m + 1) (l * 2) = bitsOf m l ++ [false] := by rw [Nat.mul_comm]; exact this
  rw [this, bitsOf, List.take_succ_cons, List.take_append_of_le_length (by simp; omega)]
  simp

/-- Everything the renormalisation can do: both bounds shifted by the shared prefix, and those bits emitted (R132). -/
theorem renormLoop_closed {m : Nat} (hm : 1 ≤ m) (fuel l u : Nat) (hl : l < 2 ^ m) (hu : u < 2 ^ m)
    (hf : sharedPrefix l u m ≤ fuel) :
    renormLoop m fuel l u =
      (l * 2 ^ sharedPrefix l u m % 2 ^ m, u * 2 ^ sharedPrefix l u m % 2 ^ m + (2 ^ sharedPrefix l u m - 1),
        (bitsOf m l).take (sharedPrefix l u m)) := by
  induction fuel generalizing l u with
  | zero =>
    have h0 : sharedPrefix l u m = 0 := by omega
    simp [renormLoop, h0, Nat.mod_eq_of_lt hl, Nat.mod_eq_of_lt hu]
  | succ fuel ih =>
    simp only [renormLoop]
    by_cases h : 1 ≤ sharedPrefix l u m
    · rw [if_pos ((top_eq_iff hm).2 h)]
      have ht := sharedPrefix_turn hm h
      have hle := sharedPrefix_le l u m
      have e1 : (l <<< 1) &&& validMask m = l * 2 % 2 ^ m := shl_mask l m 1
      have e2 : ((u <<< 1) &&& validMask m) ||| 1 = u * 2 % 2 ^ m + 1 := by
        rw [shl_mask u m 1]; exact or_low (v := u) (k := 1) hm
      have hu' : u * 2 % 2 ^ m + 1 < 2 ^ m := by
        have := mod_add_le u (k := 1) hm; rw [Nat.pow_one] at this; omega
      rw [e1, e2, ih _ _ (Nat.mod_lt _ (by positivity)) hu' (by omega)]
      generalize sharedPrefix (l * 2 % 2 ^ m) (u * 2 % 2 ^ m + 1) m = k at ht
      rw [← ht]
      refine Prod.ext ?_ (Prod.ext ?_ ?_)
      · simp only []
        rw [Nat.mod_mul_mod, Nat.pow_succ, Nat.mul_assoc, Nat.mul_comm 2]
      · simp only []
        have h1 := mod_add_le u (k := k + 1) (m := m) (by omega)
        have : (u * 2 % 2 ^ m + 1) * 2 ^ k % 2 ^ m = u * 2 ^ (k+1) % 2 ^ m + 2 ^ k := by
          rw [Nat.add_mul, Nat.one_mul, Nat.add_mod, Nat.mod_mul_mod, Nat.mul_assoc, show 2 * 2 ^ k = 2 ^ (k+1) by ring, Nat.add_mod_mod]
          have : 2 ^ k < 2 ^ (k+1) := Nat.pow_lt_pow_right (by decide) (by omega)
          exact Nat.mod_eq_of_lt (by omega)
        have hp : 0 < 2 ^ k := by positivity
        rw [this, Nat.pow_succ]; omega
      · simp only []
        rw [← bits_turn (by omega), and_msbMask hm]
        congr 1
        cases l.testBit (m-1) <;> simp
    · have h0 : sharedPrefix l u m = 0 := by omega
      rw [if_neg (by rw [top_eq_iff hm]; exact h)]
      simp [h0, Nat.mod_eq_of_lt hl, Nat.mod_eq_of_lt hu]

/-- After the renormalisation the bounds share no leading bit (R132, R141). -/
theorem renormLoop_apart {m : Nat} (hm : 1 ≤ m) (fuel l u : Nat) (hl : l < 2 ^ m) (hu : u < 2 ^ m)
    (hf : sharedPrefix l u m ≤ fuel) :
    sharedPrefix (renormLoop m fuel l u).1 (renormLoop m fuel l u).2.1 m = 0 := by
  induction fuel generalizing l u with
  | zero => simp only [renormLoop]; omega
  | succ fuel ih =>
    simp only [renormLoop]
    by_cases h : 1 ≤ sharedPrefix l u m
    · rw [if_pos ((top_eq_iff hm).2 h)]
      have ht := sharedPrefix_turn hm h
      have e1 : (l <<< 1) &&& validMask m = l * 2 % 2 ^ m := shl_mask l m 1
      have e2 : ((u <<< 1) &&& validMask m) ||| 1 = u * 2 % 2 ^ m + 1 := by
        rw [shl_mask u m 1]; exact or_low (v := u) (k := 1) hm
      have hu' : u * 2 % 2 ^ m + 1 < 2 ^ m := by
        have := mod_add_le u (k := 1) hm; rw [Nat.pow_one] at this; omega
      rw [e1, e2]
      exact ih _ _ (Nat.mod_lt _ (by positivity)) hu' (by omega)
    · rw [if_neg (by rw [top_eq_iff hm]; exact h)]
      simp only []; omega

/-- The renormalisation emits as many bits as the bounds share, whatever the bounds (R131, R132). -/
theorem renorm_length (l u m : Nat) : (renorm l u m).2.2.length = sharedPrefix l u m := by
  rcases Nat.eq_zero_or_pos m with rfl | hm
  · rfl
  · have loop : ∀ fuel l u, sharedPrefix l u m ≤ fuel → (renormLoop m fuel l u).2.2.length = sharedPrefix l u m := by
      intro fuel
      induction fuel with
      | zero => intro l u hf; simp only [renormLoop, List.length_nil]; omega
      | succ fuel ih =>
        intro l u hf
        simp only [renormLoop]
        by_cases h : 1 ≤ sharedPrefix l u m
        · rw [if_pos ((top_eq_iff hm).2 h)]
          have ht := sharedPrefix_turn hm h
          have e1 : (l <<< 1) &&& validMask m = l * 2 % 2 ^ m := shl_mask l m 1
          have e2 : ((u <<< 1) &&& validMask m) ||| 1 = u * 2 % 2 ^ m + 1 := by
            rw [shl_mask u m 1]; exact or_low (v := u) (k := 1) hm
          rw [e1, e2, List.length_cons, ih _ _ (by omega)]
          exact ht
        · rw [if_neg (by rw [top_eq_iff hm]; exact h), List.length_nil]
          omega
    exact loop m l u (sharedPrefix_le l u m)

/-- The renormalised bounds are in order and fit in `m` bits (R140). -/
theorem renorm_bounds {l u m : Nat} (hm : 1 ≤ m) (h : l ≤ u) (hu : u < 2 ^ m) :
    (renorm l u m).1 ≤ (renorm l u m).2.1 ∧ (renorm l u m).2.1 < 2 ^ m := by
  have hle := sharedPrefix_le l u m
  rw [renorm, renormLoop_closed hm m l u (by omega) (by omega) hle]
  simp only []
  have hroom := mod_add_le u hle
  have hp : 0 < 2 ^ sharedPrefix l u m := by positivity
  refine ⟨?_, by omega⟩
  have hpre := (div_eq_iff_testBit (by omega) hu).2 ((le_sharedPrefix_iff l u hle).1 (Nat.le_refl _))
  have hl := Nat.div_add_mod l (2 ^ (m - sharedPrefix l u m))
  have hu' := Nat.div_add_mod u (2 ^ (m - sharedPrefix l u m))
  rw [hpre] at hl
  have hmod : l % 2 ^ (m - sharedPrefix l u m) ≤ u % 2 ^ (m - sharedPrefix l u m) := by omega
  have hshift : ∀ v, v * 2 ^ sharedPrefix l u m % 2 ^ m = v % 2 ^ (m - sharedPrefix l u m) * 2 ^ sharedPrefix l u m := by
    intro v
    conv_lhs => rw [show m = (m - sharedPrefix l u m) + sharedPrefix l u m by omega, Nat.pow_add]
    have hk : (m - sharedPrefix l u m) + sharedPrefix l u m = m := by omega
    rw [hk, Nat.mul_mod_mul_right]
  rw [hshift, hshift]
  have := Nat.mul_le_mul_right (2 ^ sharedPrefix l u m) hmod
  omega

/-- Everything the narrowing can do (R130). -/
theorem narrow_cases (l0 u0 cmp tot : Nat) (mps : Bool) :
    narrow l0 u0 mps cmp tot =
      if mps = true ∧ (u0 - l0 + 1) * cmp / tot = 0 then none
      else if mps then some (l0, l0 + (u0 - l0 + 1) * cmp / tot - 1, (u0 - l0 + 1) * cmp / tot)
      else some (l0 + (u0 - l0 + 1) * cmp / tot, u0, (u0 - l0 + 1) * cmp / tot) := by
  cases mps <;> simp [narrow]

/-- `temp` is less than the width of the interval (R130). -/
theorem temp_lt {w cmp tot : Nat} (h0 : 0 < w) (h1 : cmp < tot) : w * cmp / tot < w := by
  rw [Nat.div_lt_iff_lt_mul (by omega)]
  exact Nat.mul_lt_mul_of_pos_left h1 h0

/-- The decision, without the division by the width (R152, R158). -/
theorem tagStar_lt_iff {tag l0 u0 cmp tot : Nat} (h : l0 ≤ tag) (hc : 0 < cmp) (ht : cmp < tot) :
    tagStar tag l0 u0 tot < cmp ↔ tag + 1 ≤ l0 + (u0 - l0 + 1) * cmp / tot := by
  unfold tagStar
  rw [Nat.div_lt_iff_lt_mul (by omega)]
  have h1 : 0 < (tag - l0 + 1) * tot := Nat.mul_pos (by omega) (by omega)
  have : (tag - l0 + 1) ≤ (u0 - l0 + 1) * cmp / tot ↔ (tag - l0 + 1) * tot ≤ (u0 - l0 + 1) * cmp := Nat.le_div_iff_mul_le (by omega)
  rw [Nat.mul_comm cmp]
  constructor
  · intro h2; have := this.2 (by omega); omega
  · intro h2; have := this.1 (by omega); omega

/-- What lies between two values shares their prefix. -/
theorem between_prefix {l x u m k : Nat} (hl : l ≤ x) (hx : x ≤ u) (hu : u < 2 ^ m) (hk : k ≤ m)
    (h : k ≤ sharedPrefix l u m) : x / 2 ^ (m - k) = l / 2 ^ (m - k) := by
  rw [le_sharedPrefix_iff _ _ hk, ← div_eq_iff_testBit (by omega) hu] at h
  have a := Nat.div_le_div_right (c := 2 ^ (m-k)) hl
  have b := Nat.div_le_div_right (c := 2 ^ (m-k)) hx
  omega

/-- A shift inside `m` bits drops the leading bits. -/
theorem shl_of_prefix (v : Nat) {m k : Nat} (hk : k ≤ m) : v * 2 ^ k % 2 ^ m = (v % 2 ^ (m - k)) * 2 ^ k := by
    conv_lhs => rw [show m = (m - k) + k by omega, Nat.pow_add]
    rw [Nat.mul_mod_mul_right]

/-- The tag after a renormalisation (R153). -/
theorem shiftTag_eq (tag m : Nat) (q : List Bool) (hq : q.length ≤ m) :
    shiftTag tag m q = tag * 2 ^ q.length % 2 ^ m + num q := by
  have hn := num_lt q
  rw [shiftTag, shl_mask, shl_of_prefix _ hq, Nat.mul_comm, Nat.two_pow_add_eq_or_of_lt hn]

end Sys2Proof.Machine
end

