-- ==== Sys2Proof/Laws/Memory.lean ====
section
/-! SUPPORT. The memory's canonical form (log 6): a buffer's cells rise strictly whatever the buffer holds, so every memory
operation keeps the form, and a buffer is determined by its cells. -/

namespace Sys2Proof.Machine

/-- The cells of a list of bytes that stands at address `n` and up rise strictly, and none lies below `n`. -/
theorem cells_rise (bs : List Byte) (n : Nat) :
    List.Pairwise (fun x y : Host.Cell => x.1 < y.1) ((bs.zipIdx n).map fun p => (p.2, p.1)) ∧
    ∀ c ∈ (bs.zipIdx n).map (fun p => ((p.2, p.1) : Host.Cell)), n ≤ c.1 := by
  induction bs generalizing n with
  | nil => simp
  | cons b bs ih =>
    obtain ⟨hp, hl⟩ := ih (n + 1)
    refine ⟨?_, ?_⟩
    · simp only [List.zipIdx_cons, List.map_cons, List.pairwise_cons]
      exact ⟨fun c hc => Nat.lt_of_succ_le (hl c hc), hp⟩
    · simp only [List.zipIdx_cons, List.map_cons, List.mem_cons]
      rintro c (rfl | hc)
      · exact Nat.le_refl _
      · exact Nat.le_of_succ_le (hl c hc)

/-- Every memory is in canonical form, so every operation keeps it. -/
theorem Memory.wf_all (m : Memory) : m.wf := fun t _ => (cells_rise t.buf 0).1

/-- In particular the memory after writing a slot, and the memory at reset. -/
theorem setSlot_wf (s : State) (i : Nat) (t : Slot) : (s.setSlot i t).slots.wf := Memory.wf_all _

theorem reset_wf : State.reset.slots.wf := Memory.wf_all _

/-- A buffer is determined by its cells. -/
theorem cells_injective {t u : Slot} (h : t.cells = u.cells) : t.buf = u.buf := by
  have key : ∀ v : Slot, v.cells.map Prod.snd = v.buf := by
    intro v
    simp [Slot.cells, List.map_map, Function.comp_def, List.zipIdx_map_fst]
  rw [← key t, ← key u, h]

end Sys2Proof.Machine
end

