-- ==== Sys2Proof/Laws/Stream.lean ====
section
/-! SUPPORT. What the stream operations do to a slot: one lemma per operation (spec/10_state.md rules R25 to R31,
spec/40_bitstream.md rules R102 to R104). -/

namespace Sys2Proof.Machine

/-! ### AppendBits (R102) -/

/-- The accumulator after one more bit, while the byte is not full. -/
theorem accumulate_toNat (acc : Byte) (n : Nat) (hn : n ≤ 7) (h : acc.toNat < 2 ^ n) (b : Bool) :
    ((acc <<< 1) ||| (if b then 1 else 0 : Byte)).toNat = 2 * acc.toNat + b.toNat := by
  have hlt : acc.toNat < 128 := lt_of_lt_of_le h (by
    calc 2 ^ n ≤ 2 ^ 7 := Nat.pow_le_pow_right (by decide) hn
      _ = 128 := by norm_num)
  have hshift : (acc <<< 1).toNat = 2 * acc.toNat := by
    rw [BitVec.toNat_shiftLeft, Nat.shiftLeft_eq]
    omega
  cases b with
  | false => simp [hshift]
  | true =>
    have : 2 * acc.toNat ||| 1 = 2 * acc.toNat + 1 := by
      have := Nat.two_pow_add_eq_or_of_lt (i := 1) (b := 1) (by norm_num) acc.toNat
      simpa using this.symm
    simp [hshift, this]

/-- One appended bit: the bits grow by it, the write fields stay legal, and nothing else of the slot changes. -/
theorem appendBit_spec (t : Slot) (b : Bool) (hc : t.wrCnt ≤ 7) (ha : t.wrAcc.toNat < 2 ^ t.wrCnt) :
    (t.appendBit b).wbits = t.wbits ++ [b] ∧ (t.appendBit b).wrCnt ≤ 7 ∧
    (t.appendBit b).wrAcc.toNat < 2 ^ (t.appendBit b).wrCnt ∧
    t.appendBit b = { t with
      buf := (t.appendBit b).buf, wrAcc := (t.appendBit b).wrAcc, wrCnt := (t.appendBit b).wrCnt } ∧
    8 * (t.appendBit b).buf.length + (t.appendBit b).wrCnt = 8 * t.buf.length + t.wrCnt + 1 ∧
    t.buf <+: (t.appendBit b).buf := by
  have hacc := accumulate_toNat t.wrAcc t.wrCnt hc ha b
  have hbit : b.toNat ≤ 1 := by cases b <;> simp
  by_cases h8 : t.wrCnt + 1 = 8
  · have h7 : t.wrCnt = 7 := by omega
    refine ⟨?_, ?_, ?_, ?_, ?_, ?_⟩
    · simp only [Slot.appendBit, if_true, Slot.wbits, List.flatMap_append, List.flatMap_cons, List.flatMap_nil, hacc, h7]
      rw [bitsOf_bit]
      simp [bitsOf]
    · simp [Slot.appendBit, h8]
    · simp [Slot.appendBit, h8]
    · simp [Slot.appendBit, h8]
    · simp [Slot.appendBit, h8]; omega
    · simp [Slot.appendBit, h8]
  · refine ⟨?_, ?_, ?_, ?_, ?_, ?_⟩
    · simp only [Slot.appendBit, h8, if_false, Slot.wbits, hacc]
      rw [bitsOf_bit, List.append_assoc]
    · simp [Slot.appendBit, h8]; omega
    · simp only [Slot.appendBit, h8, if_false, hacc, Nat.pow_succ]; omega
    · simp [Slot.appendBit, h8]
    · simp [Slot.appendBit, h8]; omega
    · simp [Slot.appendBit, h8]

/-- `AppendBits(i, q)`: `WBits(i) <- WBits(i) ++ q`, the write fields stay legal, the bytes already there stay, and no other
field changes (R102). -/
theorem appendBits_spec (q : List Bool) (t : Slot) (hc : t.wrCnt ≤ 7) (ha : t.wrAcc.toNat < 2 ^ t.wrCnt) :
    (t.appendBits q).wbits = t.wbits ++ q ∧ (t.appendBits q).wrCnt ≤ 7 ∧
    (t.appendBits q).wrAcc.toNat < 2 ^ (t.appendBits q).wrCnt ∧
    t.appendBits q = { t with
      buf := (t.appendBits q).buf, wrAcc := (t.appendBits q).wrAcc, wrCnt := (t.appendBits q).wrCnt } ∧
    8 * (t.appendBits q).buf.length + (t.appendBits q).wrCnt = 8 * t.buf.length + t.wrCnt + q.length ∧
    t.buf <+: (t.appendBits q).buf := by
  induction q generalizing t with
  | nil => simp [Slot.appendBits, hc, ha]
  | cons b q ih =>
    obtain ⟨w1, c1, a1, e1, l1, p1⟩ := appendBit_spec t b hc ha
    obtain ⟨w2, c2, a2, e2, l2, p2⟩ := ih (t.appendBit b) c1 a1
    have hstep : t.appendBits (b :: q) = (t.appendBit b).appendBits q := rfl
    rw [hstep]
    refine ⟨by rw [w2, w1]; simp, c2, a2, ?_, by rw [l2, l1, List.length_cons]; omega, p1.trans p2⟩
    obtain ⟨x, y, z, hx⟩ : ∃ x y z, t.appendBit b = { t with buf := x, wrAcc := y, wrCnt := z } := ⟨_, _, _, e1⟩
    rw [hx] at e2 ⊢
    exact e2

/-- How many bytes and bits `AppendBits` leaves. -/
theorem appendBits_sizes (q : List Bool) (t : Slot) (hc : t.wrCnt ≤ 7) (ha : t.wrAcc.toNat < 2 ^ t.wrCnt) :
    (t.appendBits q).buf.length = t.buf.length + (t.wrCnt + q.length) / 8 ∧
    (t.appendBits q).wrCnt = (t.wrCnt + q.length) % 8 := by
  obtain ⟨-, c, -, -, l, -⟩ := appendBits_spec q t hc ha
  omega

/-- The bit count of a WRITE-mode slot. -/
theorem wbits_length (t : Slot) : t.wbits.length = 8 * t.buf.length + t.wrCnt := by
  have : ∀ bs : List Byte, (bs.flatMap fun b => bitsOf 8 b.toNat).length = 8 * bs.length := by
    intro bs
    induction bs with
    | nil => rfl
    | cons b bs ih => simp [ih]; omega
  simp [Slot.wbits, this]

/-! ### ReadBits (R104) -/

/-- The valid bits from byte `j` on: byte `j`'s, then the rest. -/
theorem bitsFrom_cons (t : Slot) (j : Nat) (h : j < t.buf.length) :
    t.bitsFrom j = topBits (t.byteAt j) (t.validBits j) ++ t.bitsFrom (j + 1) := by
  have : t.buf.length - j = (t.buf.length - (j + 1)) + 1 := by omega
  rw [Slot.bitsFrom, this, List.range'_succ, List.flatMap_cons]
  rfl

theorem bitsFrom_end (t : Slot) (j : Nat) (h : t.buf.length ≤ j) : t.bitsFrom j = [] := by
  simp [Slot.bitsFrom, Nat.sub_eq_zero_of_le h]

theorem validBits_range {t : Slot} (h : t.ReadOk) (j : Nat) : 1 ≤ t.validBits j ∧ t.validBits j ≤ 8 := by
  obtain ⟨h1, h2, -⟩ := h
  unfold Slot.validBits
  split <;> omega

/-- The first of the top bits of a byte is its most significant bit, and the others are the top bits of the shifted byte. -/
theorem topBits_cons (b : Byte) (n : Nat) (h1 : 1 ≤ n) (h8 : n ≤ 8) :
    topBits b n = b.msb :: topBits (b <<< 1) (n - 1) := by
  obtain ⟨k, rfl⟩ : ∃ k, n = k + 1 := ⟨n - 1, by omega⟩
  have hmsb : b.toNat.testBit 7 = b.msb := by simp [BitVec.msb_eq_getLsbD_last, BitVec.getLsbD]
  have hbit : ∀ i, i < 7 → (b <<< 1).toNat.testBit (i + 1) = b.toNat.testBit i := by
    intro i hi
    rw [BitVec.testBit_toNat, BitVec.testBit_toNat, BitVec.getLsbD_shiftLeft]
    simp; omega
  simp only [topBits, bitsOf, List.take_succ_cons, hmsb, Nat.add_sub_cancel, List.cons.injEq, true_and]
  have e : [b.toNat.testBit 6, b.toNat.testBit 5, b.toNat.testBit 4, b.toNat.testBit 3, b.toNat.testBit 2, b.toNat.testBit 1,
      b.toNat.testBit 0] = [(b <<< 1).toNat.testBit 7, (b <<< 1).toNat.testBit 6, (b <<< 1).toNat.testBit 5,
      (b <<< 1).toNat.testBit 4, (b <<< 1).toNat.testBit 3, (b <<< 1).toNat.testBit 2, (b <<< 1).toNat.testBit 1] := by
    rw [hbit 6 (by omega), hbit 5 (by omega), hbit 4 (by omega), hbit 3 (by omega), hbit 2 (by omega), hbit 1 (by omega),
      hbit 0 (by omega)]
  rw [e]
  have hk : k ≤ 7 := by omega
  interval_cases k <;> rfl

/-- One bit read from a slot that is READING: it is the first unread bit, the rest stay, the read fields stay legal, and
neither the buffer nor the mode nor the owner changes. -/
theorem shiftOut_spec (t : Slot) (hm : t.mode = .read) (hr : t.ReadOk) (hp : t.progress = .reading) :
    t.rbits = t.rdByte.msb :: t.shiftOut.rbits ∧ t.shiftOut.ReadOk ∧
    t.shiftOut = { t with
      progress := t.shiftOut.progress, cursor := t.shiftOut.cursor, rdByte := t.shiftOut.rdByte,
      rdLeft := t.shiftOut.rdLeft } := by
  have hv := fun j => validBits_range hr j
  obtain ⟨hv1, hv8, hcur, hread, hreading, hfin⟩ := hr
  obtain ⟨hl1, hl8, hlen⟩ := hreading hp
  obtain ⟨-, hwa, hwc⟩ := hread hm
  have hrb : t.rbits = t.rdByte.msb :: (topBits (t.rdByte <<< 1) (t.rdLeft - 1) ++ t.bitsFrom (t.cursor + 1)) := by
    simp only [Slot.rbits, hp]
    rw [topBits_cons _ _ hl1 hl8, List.cons_append]
  by_cases h0 : t.rdLeft - 1 = 0
  · have htop : topBits (t.rdByte <<< 1) (t.rdLeft - 1) = [] := by rw [h0]; rfl
    by_cases hnext : t.cursor + 1 < t.buf.length
    · have hs : t.shiftOut = { t with
          cursor := t.cursor + 1, rdByte := t.byteAt (t.cursor + 1), rdLeft := t.validBits (t.cursor + 1) } := by
        simp [Slot.shiftOut, h0, hnext]
      refine ⟨?_, ?_, by rw [hs]⟩
      · rw [hrb, htop, bitsFrom_cons t _ hnext, hs]
        simp only [Slot.rbits, hp]
        rfl
      · rw [hs]
        refine ⟨hv1, hv8, ?_, ?_, ?_, ?_⟩
        · show t.cursor + 1 ≤ t.buf.length - 1; omega
        · intro _; exact ⟨by simp [hp], hwa, hwc⟩
        · intro _; exact ⟨(hv _).1, (hv _).2, hnext⟩
        · intro h; simp [hp] at h
    · have hs : t.shiftOut = { t with rdByte := 0, rdLeft := 0, progress := .finished } := by
        simp [Slot.shiftOut, h0, hnext]
      refine ⟨?_, ?_, by rw [hs]⟩
      · rw [hrb, htop, bitsFrom_end t _ (by omega), hs]
        simp [Slot.rbits]
      · rw [hs]
        exact ⟨hv1, hv8, hcur, fun _ => ⟨by simp, hwa, hwc⟩, fun h => by simp at h, fun _ => ⟨rfl, rfl⟩⟩
  · have hs : t.shiftOut = { t with rdByte := t.rdByte <<< 1, rdLeft := t.rdLeft - 1 } := by simp [Slot.shiftOut, h0]
    refine ⟨?_, ?_, by rw [hs]⟩
    · rw [hrb, hs]
      simp only [Slot.rbits, hp]
      rfl
    · rw [hs]
      refine ⟨hv1, hv8, hcur, fun _ => ⟨by simp [hp], hwa, hwc⟩, fun _ => ?_, fun h => by simp [hp] at h⟩
      exact ⟨by show 1 ≤ t.rdLeft - 1; omega, by show t.rdLeft - 1 ≤ 8; omega, hlen⟩

/-- A slot with unread bits is READING. -/
theorem reading_of_rbits {t : Slot} (h : t.rbits ≠ []) : t.progress = .reading := by
  cases hp : t.progress <;> simp_all [Slot.rbits]

/-- `ReadBits(i, n)` with at least `n` unread bits: it returns the first `n` of them and leaves the rest, the read fields
stay legal, and only the read fields change (R104). -/
theorem readBits_spec (n : Nat) (t : Slot) (hm : t.mode = .read) (hr : t.ReadOk) (hn : n ≤ t.rbits.length) :
    (Slot.readBits n t).1 = t.rbits.take n ∧ (Slot.readBits n t).2.rbits = t.rbits.drop n ∧
    (Slot.readBits n t).2.ReadOk ∧
    (Slot.readBits n t).2 = { t with
      progress := (Slot.readBits n t).2.progress, cursor := (Slot.readBits n t).2.cursor,
      rdByte := (Slot.readBits n t).2.rdByte, rdLeft := (Slot.readBits n t).2.rdLeft } := by
  induction n generalizing t with
  | zero => exact ⟨rfl, rfl, hr, rfl⟩
  | succ n ih =>
    have hp : t.progress = .reading := reading_of_rbits (by rintro h; simp [h] at hn)
    obtain ⟨hb, hr', he⟩ := shiftOut_spec t hm hr hp
    have hm' : t.shiftOut.mode = .read := by rw [he]; exact hm
    have hn' : n ≤ t.shiftOut.rbits.length := by rw [hb] at hn; simpa using hn
    obtain ⟨h1, h2, h3, h4⟩ := ih t.shiftOut hm' hr' hn'
    refine ⟨?_, ?_, h3, ?_⟩
    · show t.rdByte.msb :: (Slot.readBits n t.shiftOut).1 = _
      rw [h1, hb, List.take_succ_cons]
    · show (Slot.readBits n t.shiftOut).2.rbits = _
      rw [h2, hb, List.drop_succ_cons]
    · show (Slot.readBits n t.shiftOut).2 = { t with
        progress := (Slot.readBits n t.shiftOut).2.progress, cursor := (Slot.readBits n t.shiftOut).2.cursor,
        rdByte := (Slot.readBits n t.shiftOut).2.rdByte, rdLeft := (Slot.readBits n t.shiftOut).2.rdLeft }
      obtain ⟨x, y, z, w, hx⟩ : ∃ x y z w, t.shiftOut = { t with progress := x, cursor := y, rdByte := z, rdLeft := w } :=
        ⟨_, _, _, _, he⟩
      rw [hx] at h4 ⊢
      exact h4

/-- The bits that `ReadBits` returns are `n` of them. -/
theorem readBits_length (n : Nat) (t : Slot) : (Slot.readBits n t).1.length = n := by
  induction n generalizing t with
  | zero => rfl
  | succ n ih => simp [Slot.readBits, ih]

/-! ### PrimeRead (R103) -/

/-- `PrimeRead(i)`: every valid bit of the buffer is unread, the read fields are legal, and only they change (R103). -/
theorem primeRead_spec (t : Slot) (h1 : 1 ≤ t.lastValid) (h8 : t.lastValid ≤ 8) (hw : t.wrAcc = 0 ∧ t.wrCnt = 0) :
    t.primeRead.rbits = t.bitsFrom 0 ∧ t.primeRead.ReadOk ∧
    t.primeRead = { t with
      progress := t.primeRead.progress, cursor := 0, rdByte := t.primeRead.rdByte, rdLeft := t.primeRead.rdLeft } := by
  have hv : 1 ≤ t.validBits 0 ∧ t.validBits 0 ≤ 8 := by unfold Slot.validBits; split <;> omega
  by_cases h : t.buf.length > 0
  · have hs : t.primeRead = { t with cursor := 0, rdByte := t.byteAt 0, rdLeft := t.validBits 0, progress := .reading } := by
      simp [Slot.primeRead, h]
    refine ⟨?_, ?_, by rw [hs]⟩
    · rw [hs, bitsFrom_cons t 0 h]; rfl
    · rw [hs]
      exact ⟨h1, h8, by show (0 : Nat) ≤ _; omega, fun _ => ⟨by simp, hw⟩, fun _ => ⟨hv.1, hv.2, h⟩, fun h => by simp at h⟩
  · have hs : t.primeRead = { t with cursor := 0, rdByte := 0, rdLeft := 0, progress := .finished } := by
      simp [Slot.primeRead, h]
    refine ⟨?_, ?_, by rw [hs]⟩
    · rw [hs, bitsFrom_end t 0 (by omega)]; rfl
    · rw [hs]
      exact ⟨h1, h8, by show (0 : Nat) ≤ _; omega, fun _ => ⟨by simp, hw⟩, fun h => by simp at h, fun _ => ⟨rfl, rfl⟩⟩

end Sys2Proof.Machine
end

