-- ==== Sys2Proof/Laws/Padding.lean ====
section
/-! SUPPORT. The padded last byte, and what the bytes of a buffer hold from an index on (spec/10_state.md rules R28 to R31,
spec/20_memory.md rule R54). -/

namespace Sys2Proof.Machine

/-- The padded byte as a number (R54). -/
theorem pad_toNat {a : Byte} {n : Nat} (hn : n ≤ 7) (h : a.toNat < 2 ^ n) :
    (a <<< (8 - n)).toNat = a.toNat * 2 ^ (8 - n) := by
  rw [BitVec.toNat_shiftLeft, Nat.shiftLeft_eq]
  apply Nat.mod_eq_of_lt
  calc _ < 2 ^ n * 2 ^ (8 - n) := Nat.mul_lt_mul_of_pos_right h (by positivity)
    _ = 2 ^ 8 := by rw [← Nat.pow_add]; congr 1; omega

/-- The valid bits of the padded byte are the pending bits (R28, R54). -/
theorem topBits_pad {a : Byte} {n : Nat} (hn : n ≤ 7) (h : a.toNat < 2 ^ n) :
    topBits (a <<< (8 - n)) n = bitsOf n a.toNat := by
  rw [topBits, pad_toNat hn h]
  apply List.ext_getElem
  · simp; omega
  · intro i h1 h2
    have hi : i < n := by simpa using h2
    rw [List.getElem_take, bitsOf_getElem, bitsOf_getElem, Nat.testBit_mul_two_pow]
    have hle : 8 - n ≤ 8 - 1 - i := by omega
    have he : 8 - 1 - i - (8 - n) = n - 1 - i := by omega
    simp [hle, he]

/-- A buffer whose last byte is whole (R29). -/
theorem bitsFrom_whole (t : Slot) (h : t.lastValid = 8) : t.bitsFrom 0 = t.buf.flatMap (fun b => bitsOf 8 b.toNat) := by
  have key : ∀ k, k ≤ t.buf.length → t.bitsFrom (t.buf.length - k) =
      (t.buf.drop (t.buf.length - k)).flatMap (fun b => bitsOf 8 b.toNat) := by
    intro k
    induction k with
    | zero => intro _; simp [bitsFrom_end]
    | succ k ih =>
      intro hk
      have hlt : t.buf.length - (k + 1) < t.buf.length := by omega
      have hnext : t.buf.length - (k + 1) + 1 = t.buf.length - k := by omega
      rw [bitsFrom_cons _ _ hlt, hnext, ih (by omega), List.drop_eq_getElem_cons hlt, List.flatMap_cons, hnext]
      congr 1
      have hv : t.validBits (t.buf.length - (k + 1)) = 8 := by unfold Slot.validBits; split <;> simp [h]
      rw [hv, topBits, List.take_of_length_le (by simp), Slot.byteAt, List.getD_eq_getElem?_getD,
        List.getElem?_eq_getElem hlt]
      rfl
  simpa using key t.buf.length (Nat.le_refl _)

/-- A buffer with one byte, the last one, of `lastValid` bits after whole bytes (R29). -/
theorem bitsFrom_last (t : Slot) (bs : List Byte) (b : Byte) (h : t.buf = bs ++ [b]) :
    t.bitsFrom 0 = bs.flatMap (fun b => bitsOf 8 b.toNat) ++ topBits b t.lastValid := by
  have hlen : t.buf.length = bs.length + 1 := by simp [h]
  have key : ∀ k, k ≤ bs.length → t.bitsFrom (bs.length - k) =
      (bs.drop (bs.length - k)).flatMap (fun b => bitsOf 8 b.toNat) ++ topBits b t.lastValid := by
    intro k
    induction k with
    | zero =>
      intro _
      rw [Nat.sub_zero, bitsFrom_cons _ _ (by omega), bitsFrom_end _ _ (by omega)]
      simp [Slot.validBits, Slot.byteAt, h]
    | succ k ih =>
      intro hk
      have hlt : bs.length - (k + 1) < bs.length := by omega
      have hnext : bs.length - (k + 1) + 1 = bs.length - k := by omega
      rw [bitsFrom_cons _ _ (by omega), hnext, ih (by omega), List.drop_eq_getElem_cons hlt, List.flatMap_cons, hnext,
        List.append_assoc]
      congr 1
      have hv : t.validBits (bs.length - (k + 1)) = 8 := by unfold Slot.validBits; rw [if_neg (by omega)]
      rw [hv, topBits, List.take_of_length_le (by simp), Slot.byteAt, h, List.getD_eq_getElem?_getD,
        List.getElem?_append_left hlt, List.getElem?_eq_getElem hlt]
      rfl
  simpa using key bs.length (Nat.le_refl _)

/-- How many valid bits the bytes from index `j` on have (R30, R31). -/
theorem bitsFrom_length (t : Slot) (h8 : t.lastValid ≤ 8) (j : Nat) (hj : j ≤ t.buf.length) :
    (t.bitsFrom j).length = if j = t.buf.length then 0 else 8 * (t.buf.length - j - 1) + t.lastValid := by
  obtain ⟨k, hk⟩ : ∃ k, k = t.buf.length - j := ⟨_, rfl⟩
  induction k generalizing j with
  | zero => rw [bitsFrom_end _ _ (by omega), if_pos (by omega), List.length_nil]
  | succ k ih =>
    have hne : j ≠ t.buf.length := by omega
    rw [bitsFrom_cons _ _ (by omega), List.length_append, ih (j + 1) (by omega) (by omega), topBits_length, if_neg hne]
    unfold Slot.validBits
    by_cases hlast : j + 1 = t.buf.length
    · rw [if_pos hlast, if_pos hlast, Nat.min_eq_left h8]; omega
    · rw [if_neg hlast, if_neg hlast]; omega

/-- After the padding of BS_TO_READ the buffer holds exactly the bits written (R54, R108). -/
theorem padToRead_bits (t : Slot) (hc : t.wrCnt ≤ 7) (ha : t.wrAcc.toNat < 2 ^ t.wrCnt) : t.padToRead.bitsFrom 0 = t.wbits := by
  by_cases h : t.wrCnt > 0
  · have e : t.padToRead = { t with
        buf := t.buf ++ [t.paddedByte], lastValid := t.wrCnt, wrAcc := 0, wrCnt := 0, mode := .read } := by
      simp [Slot.padToRead, h]
    rw [bitsFrom_last _ t.buf t.paddedByte (by rw [e]), e, Slot.paddedByte, topBits_pad hc ha]
    rfl
  · have e : t.padToRead = { t with lastValid := 8, wrAcc := 0, wrCnt := 0, mode := .read } := by simp [Slot.padToRead, h]
    have h0 : t.wrCnt = 0 := by omega
    rw [bitsFrom_whole _ (by rw [e]), e]
    simp [Slot.wbits, h0, bitsOf]

/-- A legal READ-mode slot is FINISHED exactly when it has no unread bit (R24, R29). -/
theorem finished_iff (t : Slot) (hm : t.mode = .read) (hr : t.ReadOk) : t.progress = .finished ↔ t.rbits = [] := by
  obtain ⟨-, -, -, h4, h5, -⟩ := hr
  cases hp : t.progress with
  | notStarted => exact absurd hp (h4 hm).1
  | reading =>
    obtain ⟨h1, h8, -⟩ := h5 hp
    have hpos : 0 < t.rbits.length := by
      simp only [Slot.rbits, hp, List.length_append, topBits_length]
      omega
    constructor
    · intro h; exact absurd h (by decide)
    · intro h; simp [h] at hpos
  | finished => simp [Slot.rbits, hp]

end Sys2Proof.Machine
end

