-- ==== Sys2Proof/Laws/PerInstr.lean ====
section
/-! SUPPORT. The family EncodedWord: the word of a command is legal for a row of the opcode map, one lemma per constructor
(spec/30_encoding.md rules R72 and R79). -/

namespace Sys2Proof.Laws

/-- The command's word satisfies `(CW & mask) = match` for a row of R79, with the row's opcode. -/
def EncodedWord.Statement (i : Instr) : Prop := ∃ row ∈ rows, encodeWord i &&& row.mask = row.word

/-- Two command words are equal when their 32 bits are. -/
theorem bits_agree {x y : CommandWord} (h : ∀ i, i < 32 → x.getLsbD i = y.getLsbD i) : x = y := BitVec.eq_of_getLsbD_eq h

theorem EncodedWord.coreErrinfo : EncodedWord.Statement .coreErrinfo :=
  ⟨⟨0x01, 0x00000001, 0xFFFFFFFF⟩, by decide, by
    simp only [encodeWord, packWord]
    decide⟩

theorem EncodedWord.bsNew (S : Nat) : EncodedWord.Statement (.bsNew S) :=
  ⟨⟨0x10, 0x00000010, 0xFFFFF0FF⟩, by decide, by
    simp only [encodeWord, packWord]
    generalize BitVec.ofNat 4 S = s
    revert s
    decide⟩

theorem EncodedWord.bsWriteBit (S : Nat) (V : Bool) : EncodedWord.Statement (.bsWriteBit S V) :=
  ⟨⟨0x11, 0x00000011, 0xFF7FF0FF⟩, by decide, by
    simp only [encodeWord, packWord]
    generalize BitVec.ofNat 4 S = s
    revert s V
    decide⟩

theorem EncodedWord.bsWriteNumber (S : Nat) (N : Nat) (A : Word) : EncodedWord.Statement (.bsWriteNumber S N A) :=
  ⟨⟨0x12, 0x00000012, 0xFF80F0FF⟩, by decide, bits_agree fun i hi => by interval_cases i <;> simp [encodeWord, packWord]⟩

theorem EncodedWord.bsToRead (S : Nat) : EncodedWord.Statement (.bsToRead S) :=
  ⟨⟨0x13, 0x00000013, 0xFFFFF0FF⟩, by decide, by
    simp only [encodeWord, packWord]
    generalize BitVec.ofNat 4 S = s
    revert s
    decide⟩

theorem EncodedWord.bsReadBit (S : Nat) : EncodedWord.Statement (.bsReadBit S) :=
  ⟨⟨0x14, 0x00000014, 0xFFFFF0FF⟩, by decide, by
    simp only [encodeWord, packWord]
    generalize BitVec.ofNat 4 S = s
    revert s
    decide⟩

theorem EncodedWord.bsReadNumber (S : Nat) (N : Nat) : EncodedWord.Statement (.bsReadNumber S N) :=
  ⟨⟨0x15, 0x00000015, 0xFF80F0FF⟩, by decide, bits_agree fun i hi => by interval_cases i <;> simp [encodeWord, packWord]⟩

theorem EncodedWord.bsMerge (S : Nat) (T : Nat) : EncodedWord.Statement (.bsMerge S T) :=
  ⟨⟨0x16, 0x00000016, 0xFFFF00FF⟩, by decide, bits_agree fun i hi => by interval_cases i <;> simp [encodeWord, packWord]⟩

theorem EncodedWord.bsRemaining (S : Nat) : EncodedWord.Statement (.bsRemaining S) :=
  ⟨⟨0x17, 0x00000017, 0xFFFFF0FF⟩, by decide, by
    simp only [encodeWord, packWord]
    generalize BitVec.ofNat 4 S = s
    revert s
    decide⟩

theorem EncodedWord.bsTotalSize (S : Nat) : EncodedWord.Statement (.bsTotalSize S) :=
  ⟨⟨0x18, 0x00000018, 0xFFFFF0FF⟩, by decide, by
    simp only [encodeWord, packWord]
    generalize BitVec.ofNat 4 S = s
    revert s
    decide⟩

theorem EncodedWord.bsRewind (S : Nat) : EncodedWord.Statement (.bsRewind S) :=
  ⟨⟨0x19, 0x00000019, 0xFFFFF0FF⟩, by decide, by
    simp only [encodeWord, packWord]
    generalize BitVec.ofNat 4 S = s
    revert s
    decide⟩

theorem EncodedWord.bsExport (S : Nat) : EncodedWord.Statement (.bsExport S) :=
  ⟨⟨0x1A, 0x0000001A, 0xFFFFF0FF⟩, by decide, by
    simp only [encodeWord, packWord]
    generalize BitVec.ofNat 4 S = s
    revert s
    decide⟩

theorem EncodedWord.bsImport (S : Nat) (IN : List Byte) : EncodedWord.Statement (.bsImport S IN) :=
  ⟨⟨0x1B, 0x0000001B, 0xFFFFF0FF⟩, by decide, by
    simp only [encodeWord, packWord]
    generalize BitVec.ofNat 4 S = s
    revert s
    decide⟩

theorem EncodedWord.bsInfo (S : Nat) : EncodedWord.Statement (.bsInfo S) :=
  ⟨⟨0x1C, 0x0000001C, 0xFFFFF0FF⟩, by decide, by
    simp only [encodeWord, packWord]
    generalize BitVec.ofNat 4 S = s
    revert s
    decide⟩

theorem EncodedWord.encNew (N : Nat) : EncodedWord.Statement (.encNew N) :=
  ⟨⟨0x20, 0x00000020, 0xFF80FFFF⟩, by decide, by
    simp only [encodeWord, packWord]
    generalize BitVec.ofNat 7 N = n
    revert n
    decide⟩

theorem EncodedWord.encEncode (S : Nat) (V : Bool) (P : Bool) (A : Word) (B : Word) : EncodedWord.Statement (.encEncode S V P A B) :=
  ⟨⟨0x21, 0x00000021, 0xFE7FF0FF⟩, by decide, by
    simp only [encodeWord, packWord]
    generalize BitVec.ofNat 4 S = s
    revert s V P
    decide⟩

theorem EncodedWord.encClose (S : Nat) : EncodedWord.Statement (.encClose S) :=
  ⟨⟨0x22, 0x00000022, 0xFFFFF0FF⟩, by decide, by
    simp only [encodeWord, packWord]
    generalize BitVec.ofNat 4 S = s
    revert s
    decide⟩

theorem EncodedWord.encGetState : EncodedWord.Statement .encGetState :=
  ⟨⟨0x23, 0x00000023, 0xFFFFFFFF⟩, by decide, by
    simp only [encodeWord, packWord]
    decide⟩

theorem EncodedWord.encSetState (A : Word) (B : Word) : EncodedWord.Statement (.encSetState A B) :=
  ⟨⟨0x24, 0x00000024, 0xFFFFFFFF⟩, by decide, by
    simp only [encodeWord, packWord]
    decide⟩

theorem EncodedWord.encInfo : EncodedWord.Statement .encInfo :=
  ⟨⟨0x25, 0x00000025, 0xFFFFFFFF⟩, by decide, by
    simp only [encodeWord, packWord]
    decide⟩

theorem EncodedWord.decNew (S : Nat) (N : Nat) : EncodedWord.Statement (.decNew S N) :=
  ⟨⟨0x30, 0x00000030, 0xFF80F0FF⟩, by decide, bits_agree fun i hi => by interval_cases i <;> simp [encodeWord, packWord]⟩

theorem EncodedWord.decInit : EncodedWord.Statement .decInit :=
  ⟨⟨0x31, 0x00000031, 0xFFFFFFFF⟩, by decide, by
    simp only [encodeWord, packWord]
    decide⟩

theorem EncodedWord.decDecode (P : Bool) (A : Word) (B : Word) : EncodedWord.Statement (.decDecode P A B) :=
  ⟨⟨0x32, 0x00000032, 0xFEFFFFFF⟩, by decide, by
    simp only [encodeWord, packWord]
    revert P
    decide⟩

theorem EncodedWord.decGetState : EncodedWord.Statement .decGetState :=
  ⟨⟨0x33, 0x00000033, 0xFFFFFFFF⟩, by decide, by
    simp only [encodeWord, packWord]
    decide⟩

theorem EncodedWord.decSetState (A : Word) (B : Word) : EncodedWord.Statement (.decSetState A B) :=
  ⟨⟨0x34, 0x00000034, 0xFFFFFFFF⟩, by decide, by
    simp only [encodeWord, packWord]
    decide⟩

theorem EncodedWord.decStatus : EncodedWord.Statement .decStatus :=
  ⟨⟨0x35, 0x00000035, 0xFFFFFFFF⟩, by decide, by
    simp only [encodeWord, packWord]
    decide⟩

theorem EncodedWord.decInfo : EncodedWord.Statement .decInfo :=
  ⟨⟨0x36, 0x00000036, 0xFFFFFFFF⟩, by decide, by
    simp only [encodeWord, packWord]
    decide⟩

end Sys2Proof.Laws
end

