-- ==== Sys2Proof/Laws/SlotOk.lean ====
section
/-! SUPPORT. Every slot operation keeps a legal slot legal (spec/10_state.md rules R21 to R27, spec/40_bitstream.md rules R100
to R116), one lemma per operation. -/

namespace Sys2Proof.Machine

/-- The capacity check and the claims' words for it (R8). -/
theorem withinCapacity_false {cap : Option Nat} {n : Nat} : withinCapacity cap n = false ↔ ∃ c, cap = some c ∧ c < n := by
  cases cap <;> simp [withinCapacity]

theorem emptySlot_ok (cap : Option Nat) {o : Owner} (h : o ≠ .decoder) : (emptySlot o).Ok cap := by
  refine ⟨by cases cap <;> simp [withinCapacity, emptySlot], by simp [Slot.WriteOk, emptySlot], by simp [Slot.ReadOk, emptySlot], ?_, ?_⟩
  · rintro rfl; rfl
  · exact fun h' => absurd h' h

/-- Appending with room for the bits (R59, R102). -/
theorem appendBits_ok {cap : Option Nat} {t : Slot} {q : List Bool} (h : t.Ok cap) (ho : t.owner = .host) (hm : t.mode = .write)
    (hf : t.fits cap q.length = true) : (t.appendBits q).Ok cap := by
  obtain ⟨-, ⟨hc, ha, hw⟩, ⟨r1, r2, -, -, -, -⟩, -, -⟩ := h
  obtain ⟨-, c, a, e, -, -⟩ := appendBits_spec q t hc ha
  have hl := (appendBits_sizes q t hc ha).1
  obtain ⟨p, rb, rl, cu, lv⟩ := hw hm
  generalize (t.appendBits q) = u at *
  obtain ⟨x, y, z, rfl⟩ : ∃ x y z, u = { t with buf := x, wrAcc := y, wrCnt := z } := ⟨_, _, _, e⟩
  refine ⟨by simpa [Slot.fits, hl] using hf, ⟨c, a, fun _ => ⟨p, rb, rl, cu, lv⟩⟩, ⟨r1, r2, ?_, ?_, ?_, ?_⟩, ?_, ?_⟩ <;>
    simp_all

/-- The padding and the switch to READ with room for the padded byte (R103, R108). -/
theorem toRead_ok {cap : Option Nat} {t : Slot} (h : t.Ok cap) (ho : t.owner = .host)
    (hf : (0 < t.wrCnt ∧ withinCapacity cap (t.buf.length + 1) = false) → False) : t.padToRead.primeRead.Ok cap := by
  obtain ⟨hcap, ⟨hc, ha, -⟩, -, -, -⟩ := h
  have key : 1 ≤ t.padToRead.lastValid ∧ t.padToRead.lastValid ≤ 8 ∧ t.padToRead.wrAcc = 0 ∧ t.padToRead.wrCnt = 0 ∧
      t.padToRead.mode = .read ∧ t.padToRead.owner = .host ∧ withinCapacity cap t.padToRead.buf.length = true := by
    unfold Slot.padToRead
    split
    · next hpos =>
      have hroom : withinCapacity cap (t.buf.length + 1) = true := by
        cases hw : withinCapacity cap (t.buf.length + 1) with
        | true => rfl
        | false => exact (hf ⟨hpos, hw⟩).elim
      refine ⟨hpos, by show t.wrCnt ≤ 8; omega, rfl, rfl, rfl, ho, by simpa using hroom⟩
    · exact ⟨by simp, by simp, rfl, rfl, rfl, ho, hcap⟩
  obtain ⟨k1, k8, kw, kc, km, ko, kcap⟩ := key
  obtain ⟨-, hr, he⟩ := primeRead_spec t.padToRead k1 k8 ⟨kw, kc⟩
  generalize t.padToRead.primeRead = u at *
  obtain ⟨x, y, z, rfl⟩ : ∃ x y z, u = { t.padToRead with progress := x, cursor := 0, rdByte := y, rdLeft := z } :=
    ⟨_, _, _, he⟩
  refine ⟨kcap, ⟨by simp [kc], by simp [kw, kc], ?_⟩, hr, ?_, ?_⟩ <;> simp_all

/-- Reading no more bits than there are (R104). -/
theorem readBits_ok {cap : Option Nat} {t : Slot} {n : Nat} (h : t.Ok cap) (hm : t.mode = .read) (hn : n ≤ t.rbits.length)
    (ho : t.owner ≠ .free) : (t.readBits n).2.Ok cap := by
  obtain ⟨hcap, ⟨hc, ha, -⟩, hr, -, -⟩ := h
  obtain ⟨-, -, hr', he⟩ := readBits_spec n t hm hr hn
  generalize (t.readBits n).2 = u at *
  obtain ⟨x, y, z, w, rfl⟩ : ∃ x y z w, u = { t with progress := x, cursor := y, rdByte := z, rdLeft := w } :=
    ⟨_, _, _, _, he⟩
  exact ⟨hcap, ⟨hc, ha, by simp [hm]⟩, hr', fun hf => absurd hf ho, fun _ => hm⟩

/-- Moving the cursor back (R114). -/
theorem rewind_ok {cap : Option Nat} {t : Slot} (h : t.Ok cap) (ho : t.owner = .host) : Slot.Ok cap { t with cursor := 0 } := by
  obtain ⟨hcap, ⟨hc, ha, hw⟩, ⟨r1, r2, r3, r4, r5, r6⟩, -, -⟩ := h
  refine ⟨hcap, ⟨hc, ha, fun hm => ?_⟩, ⟨r1, r2, Nat.zero_le _, r4, fun hp => ?_, r6⟩, by simp [ho], by simp [ho]⟩
  · obtain ⟨a, b, c, -, e⟩ := hw hm
    exact ⟨a, b, c, rfl, e⟩
  · obtain ⟨a, b, c⟩ := r5 hp
    exact ⟨a, b, by show 0 < t.buf.length; omega⟩

/-- An imported image (R116). -/
theorem importedSlot_ok {cap : Option Nat} {nv : Nat} {body : List Byte} (h1 : 1 ≤ nv) (h8 : nv ≤ 8)
    (hc : withinCapacity cap body.length = true) : (importedSlot nv body).Ok cap := by
  obtain ⟨-, hr, he⟩ := primeRead_spec { emptySlot .host with buf := body, mode := .read, lastValid := nv } h1 h8 ⟨rfl, rfl⟩
  rw [importedSlot]
  generalize Slot.primeRead { emptySlot .host with buf := body, mode := .read, lastValid := nv } = u at *
  obtain ⟨x, y, z, rfl⟩ : ∃ x y z, u =
      { ({ emptySlot .host with buf := body, mode := .read, lastValid := nv } : Slot) with
        progress := x, cursor := 0, rdByte := y, rdLeft := z } := ⟨_, _, _, he⟩
  refine ⟨hc, ⟨by simp [emptySlot], by simp [emptySlot], by simp⟩, hr, by simp [emptySlot], by simp [emptySlot]⟩

/-- Handing a READ-mode stream to the decoder (R150). -/
theorem handOver_ok {cap : Option Nat} {t : Slot} (h : t.Ok cap) (hm : t.mode = .read) :
    Slot.Ok cap { t with owner := .decoder } := by
  obtain ⟨hcap, hw, hr, -, -⟩ := h
  exact ⟨hcap, hw, hr, by simp, fun _ => hm⟩

end Sys2Proof.Machine
end

