-- ==== Sys2Proof/Machine/Assembler.lean ====
section
/-! DEFINITION. The assembler syntax of spec/30_encoding.md rule R84: the line that stands for a command. Numbers are written
in decimal and payload bytes in hexadecimal, as R84 allows: DESIGN CHOICE (log 16). -/

namespace Sys2Proof.Machine

/-- A slot operand, `s<i>` (R84). -/
def asmSlot (i : Nat) : String := "s" ++ Nat.repr i

/-- A bit or a boolean, `0` or `1` (R84). -/
def asmBit (b : Bool) : String := if b then "1" else "0"

/-- A hexadecimal digit. -/
def asmHexDigit (n : Nat) : String := ["0", "1", "2", "3", "4", "5", "6", "7", "8", "9", "A", "B", "C", "D", "E", "F"].getD n ""

/-- A byte of a byte list, with the prefix `0x` (R84). -/
def asmByte (b : Byte) : String := "0x" ++ asmHexDigit (b.toNat / 16) ++ asmHexDigit (b.toNat % 16)

/-- Operands with commas between them. -/
def asmCommas : List String → String
  | [] => ""
  | [x] => x
  | x :: y :: rest => x ++ ", " ++ asmCommas (y :: rest)

/-- A word operand. -/
def asmWord (w : Word) : String := Nat.repr w.toNat

/-- One line for one command (R84). -/
def asmLine : Instr → String
  | .coreErrinfo => "core.errinfo"
  | .bsNew S => "bs.new " ++ asmSlot S
  | .bsWriteBit S V => "bs.wbit " ++ asmCommas [asmSlot S, asmBit V]
  | .bsWriteNumber S N A => "bs.wnum " ++ asmCommas [asmSlot S, Nat.repr N, asmWord A]
  | .bsToRead S => "bs.to_read " ++ asmSlot S
  | .bsReadBit S => "bs.rbit " ++ asmSlot S
  | .bsReadNumber S N => "bs.rnum " ++ asmCommas [asmSlot S, Nat.repr N]
  | .bsMerge S T => "bs.merge " ++ asmCommas [asmSlot S, asmSlot T]
  | .bsRemaining S => "bs.remaining " ++ asmSlot S
  | .bsTotalSize S => "bs.total " ++ asmSlot S
  | .bsRewind S => "bs.rewind " ++ asmSlot S
  | .bsExport S => "bs.export " ++ asmSlot S
  | .bsImport S IN => "bs.import " ++ asmCommas [asmSlot S, "[" ++ asmCommas (IN.map asmByte) ++ "]"]
  | .bsInfo S => "bs.info " ++ asmSlot S
  | .encNew N => "enc.new " ++ Nat.repr N
  | .encEncode S V P A B => "enc.encode " ++ asmCommas [asmSlot S, asmBit V, asmBit P, asmWord A, asmWord B]
  | .encClose S => "enc.close " ++ asmSlot S
  | .encGetState => "enc.get_state"
  | .encSetState A B => "enc.set_state " ++ asmCommas [asmWord A, asmWord B]
  | .encInfo => "enc.info"
  | .decNew S N => "dec.new " ++ asmCommas [asmSlot S, Nat.repr N]
  | .decInit => "dec.init"
  | .decDecode P A B => "dec.decode " ++ asmCommas [asmBit P, asmWord A, asmWord B]
  | .decGetState => "dec.get_state"
  | .decSetState A B => "dec.set_state " ++ asmCommas [asmWord A, asmWord B]
  | .decStatus => "dec.status"
  | .decInfo => "dec.info"

end Sys2Proof.Machine
end

