-- ==== Sys2Proof/Tests/Slice0.lean ====
section
/-! SUPPORT. Tests. Words, operands and expected results are those of spec/95_test_vectors.md (the ids in the comments) and of the
examples in spec/40_bitstream.md to spec/43_core.md; a word without an id is written out from the encoding column of
spec/30_encoding.md rule R79. Then one witness for the hypotheses of each statement. -/

namespace Sys2Proof.Tests

open Sys2Proof.Machine Sys2Proof.Claims

/-! ### Well-formedness: a term that each check refuses (R71) -/

theorem test_wf_refuses_slot_16 :
    (Instr.bsNew 16).wf = false ∧ (Instr.bsWriteBit 16 true).wf = false ∧ (Instr.bsWriteNumber 16 0 0).wf = false ∧
    (Instr.bsToRead 16).wf = false ∧ (Instr.bsReadBit 16).wf = false ∧ (Instr.bsReadNumber 16 0).wf = false ∧
    (Instr.bsMerge 16 0).wf = false ∧ (Instr.bsMerge 0 16).wf = false ∧ (Instr.bsRemaining 16).wf = false ∧
    (Instr.bsTotalSize 16).wf = false ∧ (Instr.bsRewind 16).wf = false ∧ (Instr.bsExport 16).wf = false ∧
    (Instr.bsImport 16 []).wf = false ∧ (Instr.bsInfo 16).wf = false ∧ (Instr.encEncode 16 true true 1 2).wf = false ∧
    (Instr.encClose 16).wf = false ∧ (Instr.decNew 16 4).wf = false := by decide

theorem test_wf_refuses_count_128 :
    (Instr.bsWriteNumber 0 128 0).wf = false ∧ (Instr.bsReadNumber 0 128).wf = false ∧ (Instr.encNew 128).wf = false ∧
    (Instr.decNew 0 128).wf = false := by decide

theorem test_wf_accepts_the_largest_fields :
    (Instr.bsWriteNumber 15 127 0).wf = true ∧ (Instr.bsMerge 15 15).wf = true ∧ (Instr.encNew 127).wf = true := by decide

/-! ### Decoding: every command's word -/

theorem test_decode_coreErrinfo : decodeTableWord 32 0x00000001 = some .coreErrinfo := by decide            -- CORE01
theorem test_decode_bsNew : decodeTableWord 32 0x00000410 = some (.bsNew 4) := by decide                    -- BS03
theorem test_decode_bsWriteBit : decodeTableWord 32 0x00800011 = some (.bsWriteBit 0 true) := by decide     -- BS06
theorem test_decode_bsWriteNumber : decodeTableWord 32 0x000C0012 = some (.bsWriteNumber 0 12 0) := by decide   -- BS08
theorem test_decode_bsToRead : decodeTableWord 32 0x00000013 = some (.bsToRead 0) := by decide              -- BS14
theorem test_decode_bsReadBit : decodeTableWord 32 0x00000014 = some (.bsReadBit 0) := by decide            -- BS18
theorem test_decode_bsReadNumber : decodeTableWord 32 0x00070015 = some (.bsReadNumber 0 7) := by decide    -- BS28
theorem test_decode_bsMerge : decodeTableWord 32 0x00001016 = some (.bsMerge 0 1) := by decide              -- BS29
theorem test_decode_bsRemaining : decodeTableWord 32 0x00000017 = some (.bsRemaining 0) := by decide        -- BS36
theorem test_decode_bsTotalSize : decodeTableWord 32 0x00000018 = some (.bsTotalSize 0) := by decide        -- BS38
theorem test_decode_bsRewind : decodeTableWord 32 0x00000019 = some (.bsRewind 0) := by decide              -- BS40
theorem test_decode_bsExport : decodeTableWord 32 0x0000001A = some (.bsExport 0) := by decide              -- BS45
theorem test_decode_bsImport : decodeTableWord 32 0x0000011B = some (.bsImport 1 []) := by decide           -- BS49
theorem test_decode_bsInfo : decodeTableWord 32 0x0000021C = some (.bsInfo 2) := by decide                  -- BS59
theorem test_decode_encNew : decodeTableWord 32 0x00210020 = some (.encNew 33) := by decide                 -- ENC02
theorem test_decode_encEncode : decodeTableWord 32 0x00800021 = some (.encEncode 0 true false 0 0) := by decide   -- ENC18
theorem test_decode_encClose : decodeTableWord 32 0x00000022 = some (.encClose 0) := by decide              -- ENC36
theorem test_decode_encGetState : decodeTableWord 32 0x00000023 = some .encGetState := by decide            -- ENC08
theorem test_decode_encSetState : decodeTableWord 32 0x00000024 = some (.encSetState 0 0) := by decide      -- ENC10
theorem test_decode_encInfo : decodeTableWord 32 0x00000025 = some .encInfo := by decide                    -- ENC07
theorem test_decode_decNew : decodeTableWord 32 0x00080130 = some (.decNew 1 8) := by decide                -- DEC07
theorem test_decode_decInit : decodeTableWord 32 0x00000031 = some .decInit := by decide                    -- DEC09
theorem test_decode_decDecode : decodeTableWord 32 0x01000032 = some (.decDecode true 0 0) := by decide     -- DEC14
theorem test_decode_decGetState : decodeTableWord 32 0x00000033 = some .decGetState := by decide            -- DEC24
theorem test_decode_decSetState : decodeTableWord 32 0x00000034 = some (.decSetState 0 0) := by decide      -- DEC26
theorem test_decode_decStatus : decodeTableWord 32 0x00000035 = some .decStatus := by decide                -- DEC30
theorem test_decode_decInfo : decodeTableWord 32 0x00000036 = some .decInfo := by decide                    -- DEC31

/-- The field letters of R79 on a word with all of them: `0000000p vnnnnnnn ttttssss 00100001` has P at bit 24 and V at bit 23. -/
theorem test_decode_fields :
    decodeTableWord 32 0b00000001000000000000101000100001 = some (.encEncode 10 false true 0 0) ∧
    decodeTableWord 32 0b00000000000000000101101000010110 = some (.bsMerge 10 5) ∧
    decodeTableWord 32 0b00000000010101010000001100010010 = some (.bsWriteNumber 3 85 0) := by decide

/-- CORE02 to CORE08, and an all-ones word (CORE11). -/
theorem test_decode_refuses :
    decodeTableWord 32 0x00000000 = none ∧ decodeTableWord 32 0x0000003F = none ∧ decodeTableWord 32 0x80000010 = none ∧
    decodeTableWord 32 0x00010010 = none ∧ decodeTableWord 32 0x02800021 = none ∧ decodeTableWord 32 0x00000101 = none ∧
    decodeTableWord 32 0x00800014 = none ∧ decodeTableWord 32 0xFFFFFFFF = none := by decide

/-- The operand words and the payload reach the command (R70, R73). -/
theorem test_decode_operands :
    decode { cw := 0x01800021, a := 3, b := 4, input := [9] } = .command (.encEncode 0 true true 3 4) ∧
    decode { cw := 0x0000011B, a := 3, b := 4, input := [0xE7, 0x60] } = .command (.bsImport 1 [0xE7, 0x60]) := by decide

/-! ### Small states -/

/-- A WRITE-mode stream of the host. -/
def writing (buf : List Byte) (acc : Byte) (cnt : Nat) : Slot :=
  { emptySlot .host with buf := buf, wrAcc := acc, wrCnt := cnt }

/-- A READ-mode stream that is READING. -/
def reading (o : Owner) (buf : List Byte) (cursor : Nat) (rdByte : Byte) (rdLeft lastValid : Nat) : Slot :=
  { emptySlot o with
    mode := .read, progress := .reading, buf := buf, cursor := cursor, rdByte := rdByte, rdLeft := rdLeft
    lastValid := lastValid }

/-- A READ-mode stream that is FINISHED. -/
def finished (o : Owner) (buf : List Byte) (cursor lastValid : Nat) : Slot :=
  { emptySlot o with mode := .read, progress := .finished, buf := buf, cursor := cursor, lastValid := lastValid }

/-- The FREE slot. -/
def free : Slot := emptySlot .free

/-- The stream `0110000` of W2, imported. -/
def imported (o : Owner) : Slot := reading o [0x60] 0 0x60 7 7

/-- The same stream after DEC_INIT with `m = 4` (DEC09). -/
def tagRead : Slot := reading .decoder [0x60] 0 0x00 3 7

/-- No encoder. -/
def noEnc : EncoderUnit := { phase := .uninit, m := 0, low := 0, high := 0 }

/-- A READY encoder with `m = 4`. -/
def enc4 (low high : Word) : EncoderUnit := { phase := .ready, m := 4, low := low, high := high }

/-- No decoder. -/
def noDec : DecoderUnit := { phase := .absent, m := 0, low := 0, high := 0, tag := 0, count := 0, slot := 0 }

/-- A decoder with `m = 4` on slot 0. -/
def dec4 (phase : DecPhase) (low high tag count : Word) : DecoderUnit :=
  { phase := phase, m := 4, low := low, high := high, tag := tag, count := count, slot := 0 }

/-- A block of four slots, the last two FREE. -/
def block (s0 s1 : Slot) (enc : EncoderUnit) (dec : DecoderUnit) : State :=
  { State.reset with slots := [s0, s1, free, free], enc := enc, dec := dec }

/-- A block with `BS_CAPACITY_BYTES = 1`. -/
def small (s0 s1 : Slot) (enc : EncoderUnit) : State := { block s0 s1 enc noDec with capacity := some 1 }

/-- The step answers `a`, and the slots, the units and the error record are those of `t`. -/
def ends (o : Result) (a : Response) (t : State) : Bool :=
  match o with
  | .next u => decide (u.responses = [a] ∧ u.slots = t.slots ∧ u.enc = t.enc ∧ u.dec = t.dec ∧ u.err = t.err)
  | .fault _ => false
  | .refused _ => false

/-- Status OK with result words. -/
def ok (r : Results) : Response := { status := .ok, results := r, out := [] }

/-- An error. -/
def failed (e : Status) : Response := { status := e, results := {}, out := [] }

/-- The state with the error record of a first error. -/
def erred (s : State) (e : Status) (cw : CommandWord) : State := { s with err := { valid := true, code := e, cw := cw, count := 1 } }

/-! ### The core command and errors -/

/-- CORE09. -/
theorem test_coreErrinfo :
    ends (exec .coreErrinfo (erred State.reset .eFree 0x00800011)) (ok { r0 := 1, r1 := 3, r2 := 0x800011, r3 := 1 })
      (erred State.reset .eFree 0x00800011) = true := by decide

/-- CORE04, through the step: an illegal word answers E_ILLEGAL and is recorded. -/
theorem test_illegal_word_is_recorded :
    ends (step (State.reset.withFetchWord 32 0x80000010)) (failed .eIllegal) (erred State.reset .eIllegal 0x80000010) = true := by
  decide

/-- The first step after `withFetchWord` runs the word's command (RST1, and CORE13 on the state after `bs.new s0`). -/
theorem test_fetch_runs_the_word :
    ends (step (State.reset.withFetchWord 32 0x0000031C)) (ok { r9 := 8 }) State.reset = true ∧
    ends (step ((block (writing [] 0 0) free noEnc noDec).withFetchWord 32 0x00000410)) (failed .eParam)
      (erred (block (writing [] 0 0) free noEnc noDec) .eParam 0x00000410) = true := by decide

/-- The count of the error record saturates, and the first error stays (R177). -/
theorem test_error_count_saturates :
    (({ valid := true, code := .eFree, cw := 1, count := 0xFFFFFFFF } : ErrorRecord).record 2 .eParam) =
      { valid := true, code := .eFree, cw := 1, count := 0xFFFFFFFF } := by decide

/-! ### The BSU -/

/-- BS02c. -/
theorem test_bsNew :
    ends (exec (.bsNew 0) (block (writing [] 0x15 5) free noEnc noDec)) (ok {}) (block (writing [] 0 0) free noEnc noDec) = true := by
  decide

/-- BS04. -/
theorem test_bsNew_owned :
    ends (exec (.bsNew 0) (block (imported .decoder) free noEnc (dec4 .uninit 0 15 0 0))) (failed .eOwned)
      (erred (block (imported .decoder) free noEnc (dec4 .uninit 0 15 0 0)) .eOwned 0x00000010) = true := by decide

/-- BS07c. -/
theorem test_bsWriteBit :
    ends (exec (.bsWriteBit 0 true) (block (writing [] 0x55 7) free noEnc noDec)) (ok {})
      (block (writing [0xAB] 0 0) free noEnc noDec) = true := by decide

/-- CAP3. -/
theorem test_bsWriteBit_capacity :
    ends (exec (.bsWriteBit 0 true) (small (writing [0xAA] 0x7F 7) free noEnc)) (failed .eCapacity)
      (erred (small (writing [0xAA] 0x7F 7) free noEnc) .eCapacity 0x00800011) = true := by decide

/-- BS08. -/
theorem test_bsWriteNumber :
    ends (exec (.bsWriteNumber 0 12 0xABC) (block (writing [] 0 0) free noEnc noDec)) (ok {})
      (block (writing [0xAB] 0xC 4) free noEnc noDec) = true := by decide

/-- BS12: E_PARAM before E_FREE. -/
theorem test_bsWriteNumber_width :
    ends (exec (.bsWriteNumber 0 65 0) State.reset) (failed .eParam) (erred State.reset .eParam 0x00410012) = true := by decide

/-- BS14. -/
theorem test_bsToRead :
    ends (exec (.bsToRead 0) (block (writing [0xAB] 0xC 4) free noEnc noDec)) (ok {})
      (block (reading .host [0xAB, 0xC0] 0 0xAB 8 4) free noEnc noDec) = true := by decide

/-- BS15c. -/
theorem test_bsToRead_empty :
    ends (exec (.bsToRead 0) (block (writing [] 0 0) free noEnc noDec)) (ok {})
      (block (finished .host [] 0 8) free noEnc noDec) = true := by decide

/-- BS19c. -/
theorem test_bsReadBit :
    ends (exec (.bsReadBit 0) (block (reading .host [0x80] 0 0x80 1 1) free noEnc noDec)) (ok { r0 := 1 })
      (block (finished .host [0x80] 0 1) free noEnc noDec) = true := by decide

/-- BS20c: a read past the end fails and returns no bit (90_conflicts.md C5). -/
theorem test_bsReadBit_exhausted :
    ends (exec (.bsReadBit 0) (block (finished .host [0x80] 0 1) free noEnc noDec)) (failed .eExhausted)
      (erred (block (finished .host [0x80] 0 1) free noEnc noDec) .eExhausted 0x00000014) = true := by decide

/-- BS28: a read across a byte boundary. -/
theorem test_bsReadNumber :
    ends (exec (.bsReadNumber 0 7) (block (reading .host [0xAB, 0xC0] 0 0x58 5 4) free noEnc noDec)) (ok { r0 := 0x2F })
      (block (reading .host [0xAB, 0xC0] 1 0x00 2 4) free noEnc noDec) = true := by decide

/-- BS25c: E_EXHAUSTED in WRITE mode even for no bits. -/
theorem test_bsReadNumber_write_mode :
    ends (exec (.bsReadNumber 0 0) (block (writing [] 0 0) free noEnc noDec)) (failed .eExhausted)
      (erred (block (writing [] 0 0) free noEnc noDec) .eExhausted 0x00000015) = true := by decide

/-- BS29. -/
theorem test_bsMerge :
    ends (exec (.bsMerge 0 1) (block (writing [] 0x5 3) (writing [0xF0] 1 1) noEnc noDec)) (ok {})
      (block (writing [0xBE] 0x1 4) free noEnc noDec) = true := by decide

/-- BS34c: the FREE class is checked on both slots before the DECODER class. -/
theorem test_bsMerge_order :
    ends (exec (.bsMerge 0 1) (block (imported .decoder) free noEnc (dec4 .uninit 0 15 0 0))) (failed .eFree)
      (erred (block (imported .decoder) free noEnc (dec4 .uninit 0 15 0 0)) .eFree 0x00001016) = true := by decide

/-- BS41: after a rewind in the last byte the count goes up again. -/
theorem test_bsRemaining :
    ends (exec (.bsRemaining 0) (block (reading .host [0x12, 0x34, 0x56] 0 0x56 8 8) free noEnc noDec)) (ok { r0 := 24 })
      (block (reading .host [0x12, 0x34, 0x56] 0 0x56 8 8) free noEnc noDec) = true := by decide

/-- BS39c: the size does not depend on what was read. -/
theorem test_bsTotalSize :
    ends (exec (.bsTotalSize 0) (block (reading .host [0xFF, 0x80] 0 0xF0 4 1) free noEnc noDec)) (ok { r0 := 9 })
      (block (reading .host [0xFF, 0x80] 0 0xF0 4 1) free noEnc noDec) = true := by decide

/-- BS40. -/
theorem test_bsRewind :
    ends (exec (.bsRewind 0) (block (reading .host [0x12, 0x34, 0x56] 2 0x56 8 8) free noEnc noDec)) (ok {})
      (block (reading .host [0x12, 0x34, 0x56] 0 0x56 8 8) free noEnc noDec) = true := by decide

/-- BS45. -/
theorem test_bsExport :
    ends (exec (.bsExport 0) (block (writing [] 0x30 7) free noEnc noDec))
      { status := .ok, results := {}, out := [0xE7, 0x60] } (block (writing [] 0x30 7) free noEnc noDec) = true := by decide

/-- BS49, on slot 1. -/
theorem test_bsImport :
    ends (exec (.bsImport 1 [0xE7, 0x60]) State.reset) (ok {}) (block free (imported .host) noEnc noDec) = true := by decide

/-- CAP10c and W6c: the order of the format checks. -/
theorem test_bsImport_order :
    ends (exec (.bsImport 0 [0xF8, 0x01, 0x02]) (small free free noEnc)) (failed .eFmtHeader)
      (erred (small free free noEnc) .eFmtHeader 0x0000001B) = true ∧
    ends (exec (.bsImport 0 [0xE8]) (small free free noEnc)) (failed .eFmtHeaderOnly)
      (erred (small free free noEnc) .eFmtHeaderOnly 0x0000001B) = true := by decide

/-- BS58: a DECODER slot. -/
theorem test_bsInfo :
    ends (exec (.bsInfo 0) (block tagRead free noEnc (dec4 .ready 0 15 6 0)))
      (ok { r0 := 2, r1 := 1, r2 := 1, r3 := 1, r8 := 3, r9 := 7 }) (block tagRead free noEnc (dec4 .ready 0 15 6 0)) = true := by
  decide

/-! ### The encoder -/

/-- W1a. -/
theorem test_encNew : ends (exec (.encNew 4) State.reset) (ok {}) (block free free (enc4 0 15) noDec) = true := by decide

/-- ENC02. -/
theorem test_encNew_param :
    ends (exec (.encNew 33) State.reset) (failed .eParam) (erred State.reset .eParam 0x00210020) = true := by decide

/-- ENC16: an LPS. -/
theorem test_encEncode_lps :
    ends (exec (.encEncode 0 false true 3 4) (block (writing [] 0 0) free (enc4 0 15) noDec)) (ok {})
      (block (writing [] 0x3 2) free (enc4 0 15) noDec) = true := by decide

/-- W2d: an MPS that emits three bits. -/
theorem test_encEncode_mps :
    ends (exec (.encEncode 0 true true 3 4) (block (writing [] 0 0) free (enc4 6 8) noDec)) (ok {})
      (block (writing [] 0x3 3) free (enc4 0 15) noDec) = true := by decide

/-- ENC36. -/
theorem test_encClose :
    ends (exec (.encClose 0) (block (writing [] 0 0) free (enc4 5 9) noDec)) (ok {})
      (block (writing [] 0x5 4) free { enc4 5 9 with phase := .closed } noDec) = true := by decide

/-- W1c. -/
theorem test_encGetState :
    ends (exec .encGetState (block free free (enc4 0 15) noDec)) (ok { r1 := 15 }) (block free free (enc4 0 15) noDec) = true := by
  decide

/-- ENC10, and ENC12 at the end of the range. -/
theorem test_encSetState :
    ends (exec (.encSetState 5 5) (block free free (enc4 0 15) noDec)) (ok {}) (block free free (enc4 5 5) noDec) = true ∧
    ends (exec (.encSetState 0 16) (block free free (enc4 0 15) noDec)) (failed .eDomain)
      (erred (block free free (enc4 0 15) noDec) .eDomain 0x00000024) = true := by decide

/-- W1b. -/
theorem test_encInfo :
    ends (exec .encInfo (block free free (enc4 0 15) noDec)) (ok { r0 := 4, r1 := 8, r2 := 15, r3 := 1 })
      (block free free (enc4 0 15) noDec) = true := by decide

/-! ### The decoder -/

/-- DEC07c: the old stream is freed. -/
theorem test_decNew :
    ends (exec (.decNew 1 8) (block (imported .decoder) (reading .host [0xFF] 0 0xFF 8 8) noEnc (dec4 .uninit 0 15 0 0))) (ok {})
      (block free (reading .decoder [0xFF] 0 0xFF 8 8) noEnc
        { phase := .uninit, m := 8, low := 0, high := 255, tag := 0, count := 0, slot := 1 }) = true := by decide

/-- DEC09. -/
theorem test_decInit :
    ends (exec .decInit (block (imported .decoder) free noEnc (dec4 .uninit 0 15 0 0))) (ok {})
      (block tagRead free noEnc (dec4 .ready 0 15 6 0)) = true := by decide

/-- DEC11c: three bits are too few, and none is consumed. -/
theorem test_decInit_exhausted :
    ends (exec .decInit (block (reading .decoder [0xA0] 0 0xA0 3 3) free noEnc (dec4 .uninit 0 15 0 0))) (failed .eExhausted)
      (erred (block (reading .decoder [0xA0] 0 0xA0 3 3) free noEnc (dec4 .uninit 0 15 0 0)) .eExhausted 0x00000031) = true := by
  decide

/-- DEC15c: W3's step 4, which reads three bits. -/
theorem test_decDecode :
    ends (exec (.decDecode true 3 4) (block tagRead free noEnc (dec4 .ready 6 8 6 3))) (ok { r0 := 1 })
      (block (finished .decoder [0x60] 0 7) free noEnc (dec4 .ready 0 15 0 4)) = true := by decide

/-- DEC20c: the tag lies below the interval. -/
theorem test_decDecode_below :
    ends (exec (.decDecode true 3 4) (block tagRead free noEnc (dec4 .ready 8 15 6 0))) (failed .eDomain)
      (erred (block tagRead free noEnc (dec4 .ready 8 15 6 0)) .eDomain 0x01000032) = true := by decide

/-- DEC24. -/
theorem test_decGetState :
    ends (exec .decGetState (block (imported .decoder) free noEnc (dec4 .uninit 0 15 0 0))) (ok { r1 := 15 })
      (block (imported .decoder) free noEnc (dec4 .uninit 0 15 0 0)) = true := by decide

/-- DEC26. -/
theorem test_decSetState :
    ends (exec (.decSetState 3 12) (block (imported .decoder) free noEnc (dec4 .uninit 0 15 0 0))) (ok {})
      (block (imported .decoder) free noEnc (dec4 .uninit 3 12 0 0)) = true := by decide

/-- DEC29c. -/
theorem test_decStatus :
    ends (exec .decStatus (block (imported .decoder) free noEnc (dec4 .uninit 0 15 0 0))) (ok { r1 := 15, r3 := 7 })
      (block (imported .decoder) free noEnc (dec4 .uninit 0 15 0 0)) = true := by decide

/-- DEC32, with the decoder on slot 0. -/
theorem test_decInfo :
    ends (exec .decInfo (block tagRead free noEnc (dec4 .ready 0 15 6 0)))
      (ok { r0 := 4, r1 := 8, r2 := 15, r3 := 2, r4 := 6 }) (block tagRead free noEnc (dec4 .ready 0 15 6 0)) = true := by decide

/-! ### Reset and the assembler -/

/-- R41 from another state, and the block idle afterwards. -/
theorem test_reset :
    step { block tagRead (writing [1] 0 0) (enc4 6 8) (dec4 .ready 6 8 6 3) with pending := [.reset] } = .next State.reset ∧
    step State.reset = .next State.reset := ⟨rfl, rfl⟩

/-- The lines of W2a, BS49 and BS08 (R84). -/
theorem test_asmLine :
    asmLine (.encEncode 0 true true 3 4) = "enc.encode s0, 1, 1, 3, 4" ∧
    asmLine (.bsImport 1 [0xE7, 0x60]) = "bs.import s1, [0xE7, 0x60]" ∧ asmLine (.bsNew 0) = "bs.new s0" := by decide

/-! ### Witnesses: one for the hypotheses of each statement -/

/-- The state of an answer, for a witness that needs one. -/
def stateOf (o : Result) : State :=
  match o with
  | .next t => t
  | .fault _ => State.reset
  | .refused _ => State.reset

/-- An unbounded block has room for every buffer. -/
theorem room {s : State} (h : s.capacity = none) (n : Nat) : ¬TooManyBytes s n := by
  rintro ⟨c, hc, -⟩
  simp [h] at hc

/-- A block with capacity `c` has room for `c` bytes. -/
theorem room_to {s : State} {c n : Nat} (h : s.capacity = some c) (hn : n ≤ c) : ¬TooManyBytes s n := by
  rintro ⟨c', hc, hlt⟩
  rw [h] at hc
  cases hc
  omega

/-- A block with an empty stream, and one whose capacity is one byte and is full. -/
def freshBlock : State := block (writing [] 0 0) free (enc4 0 15) noDec
def fullBlock : State := small (writing [0xAA] 0x7F 7) (writing [] 0 0) (enc4 0 15)

/-- A block whose decoder owns slot 0, with a READ-mode stream of the host in slot 1. -/
def decodingBlock : State := block tagRead (imported .host) (enc4 0 15) (dec4 .ready 6 8 6 3)

/-- The same before DEC_INIT. -/
def waitingBlock : State := block (imported .decoder) (imported .host) noEnc (dec4 .uninit 0 15 0 0)

theorem freshBlock_inv : freshBlock.Inv :=
  ⟨⟨by decide, by decide, nofun⟩, by decide, by decide, by decide, by decide, by decide⟩

theorem fullBlock_inv : fullBlock.Inv :=
  ⟨⟨by decide, by decide, by rintro c ⟨⟩; decide⟩, by decide, by decide, by decide, by decide, by decide⟩

theorem decodingBlock_inv : decodingBlock.Inv :=
  ⟨⟨by decide, by decide, nofun⟩, by decide, by decide, by decide, by decide, by decide⟩

theorem waitingBlock_inv : waitingBlock.Inv :=
  ⟨⟨by decide, by decide, nofun⟩, by decide, by decide, by decide, by decide, by decide⟩

theorem witness_DecodeOfEncodeIsIdentity :
    (Instr.bsWriteNumber 15 127 0xFFFFFFFFFFFFFFFF).wf = true ∧ (Instr.encEncode 15 true true 3 4).wf = true := by decide

theorem witness_EncodeOfDecodeIsIdentity :
    decode { cw := 0x007F0F12, a := 1, b := 2, input := [3] } = .command (.bsWriteNumber 15 127 1) := by decide

theorem witness_WordIsLegalExactlyWhenUnusedBitsAreZero :
    UnusedFieldsZero 0x00800011 ∧ ¬UnusedFieldsZero 0x00000101 ∧ ¬UnusedFieldsZero 0x80000010 := by
  refine ⟨⟨{ S := true, V := true }, by decide, by decide, by decide, by decide, by decide, by decide, by decide⟩, ?_, ?_⟩
  · rintro ⟨u, hu, -, hS, -⟩
    have hu' : fieldUse ((0x00000101 : CommandWord).toNat % 256) = some {} := by decide
    rw [hu'] at hu
    cases hu
    exact absurd (hS rfl) (by decide)
  · rintro ⟨u, -, hr, -⟩
    exact absurd hr (by decide)

theorem witness_UnlistedOpcodesAreIllegal :
    (State.reset.withFetchWord 32 0x37).pending = .request (tableRequest 32 0x37) :: [] ∧
    UnlistedOpcode ((tableRequest 32 0x37).cw.toNat % 256) ∧ UnlistedOpcode 0x00 ∧ UnlistedOpcode 0x02 ∧ UnlistedOpcode 0x0F ∧
    UnlistedOpcode 0x1D ∧ UnlistedOpcode 0x1F ∧ UnlistedOpcode 0x26 ∧ UnlistedOpcode 0x2F ∧ UnlistedOpcode 0xFF ∧
    ¬UnlistedOpcode 0x01 ∧ ¬UnlistedOpcode 0x10 ∧ ¬UnlistedOpcode 0x1C ∧ ¬UnlistedOpcode 0x20 ∧ ¬UnlistedOpcode 0x25 ∧
    ¬UnlistedOpcode 0x30 ∧ ¬UnlistedOpcode 0x36 ∧
    (State.reset.withFetchWord 32 0x101).pending = .request (tableRequest 32 0x101) :: [] ∧
    ¬UnusedFieldsZero (tableRequest 32 0x101).cw :=
  ⟨rfl, by simp [UnlistedOpcode, tableRequest], by simp [UnlistedOpcode], by simp [UnlistedOpcode], by simp [UnlistedOpcode],
    by simp [UnlistedOpcode], by simp [UnlistedOpcode], by simp [UnlistedOpcode], by simp [UnlistedOpcode],
    by simp [UnlistedOpcode], by simp [UnlistedOpcode], by simp [UnlistedOpcode], by simp [UnlistedOpcode],
    by simp [UnlistedOpcode], by simp [UnlistedOpcode], by simp [UnlistedOpcode], by simp [UnlistedOpcode], rfl,
    witness_WordIsLegalExactlyWhenUnusedBitsAreZero.2.1⟩

theorem witness_StepRunsTheDecodedCommand :
    (State.reset.withFetchWord 32 0x00040020).pending = .request (tableRequest 32 0x00040020) :: [] ∧
    decode (tableRequest 32 0x00040020) = .command (.encNew 4) := by decide

/-- Also for the reset clause of `ErrorRecordFollowsStatus`. -/
theorem witness_ResetSetsEveryField :
    ({ decodingBlock with pending := [.reset, .reset] } : State).pending = .reset :: [.reset] := by decide

theorem witness_ResetStartsARunAndIdleHolds :
    ({ decodingBlock with pending := [.reset] } : State).pending = .reset :: [] ∧ decodingBlock.pending = [] := by decide

theorem witness_CommandsAfterReset :
    Params.Ok { numStreams := 16, capacity := some 1 } ∧ Params.Ok { numStreams := 2, capacity := none } ∧ 15 < 16 ∧
    15 ∈ usedStreams (.bsMerge 0 15) ∧ ¬CountOutOfRange (.bsMerge 0 15) ∧ (∀ T, Instr.bsMerge 0 15 ≠ .bsMerge T T) ∧
    (∀ T ∈ namedSlots (.bsMerge 0 15), T < 16) ∧ 1 ∈ usedStreams (.decNew 1 32) ∧ ¬CountOutOfRange (.decNew 1 32) ∧
    (∀ T, Instr.decNew 1 32 ≠ .bsMerge T T) ∧ (∀ T ∈ namedSlots (.decNew 1 32), T < 2) := by
  refine ⟨⟨by decide, by decide, by rintro c ⟨⟩; decide⟩, ⟨by decide, by decide, nofun⟩, by decide, by decide,
    by simp [CountOutOfRange], ?_, by decide, by decide, by simp [CountOutOfRange], nofun, by decide⟩
  intro T h
  injection h with h1 h2
  omega

/-- Every clause of `ErrorRecordFollowsStatus`: a request that succeeds, one that fails first, and one that fails later. -/
theorem witness_ErrorRecordFollowsStatus :
    (∃ t, step (State.reset.withFetchWord 32 0x00000010) = .next t ∧ t.responses = [ok {}]) ∧
    (∃ t, step (State.reset.withFetchWord 32 0x00000410) = .next t ∧ t.responses = [failed .eParam]) ∧
    (∃ t, step ((erred State.reset .eFree 0x11).withFetchWord 32 0x00000410) = .next t ∧ t.responses = [failed .eParam]) :=
  ⟨⟨_, rfl, by decide⟩, ⟨_, rfl, by decide⟩, ⟨_, rfl, by decide⟩⟩

theorem witness_FailingCommandIsPrecise :
    Answers (.bsReadBit 0) freshBlock (stateOf (exec (.bsReadBit 0) freshBlock)) (failed .eExhausted) ∧
    (failed .eExhausted).status ≠ .ok := ⟨⟨rfl, by decide⟩, by decide⟩

theorem witness_ReportedStatusIsTheFirstThatApplies :
    decode (tableRequest 32 0x80000010) = .illegal .unusedBitSet ∧ decode (tableRequest 32 0) = .illegal .undefinedOpcode ∧
    Answers (.bsNew 3) freshBlock (stateOf (exec (.bsNew 3) freshBlock)) (ok {}) ∧
    Answers (.bsNew 4) freshBlock (stateOf (exec (.bsNew 4) freshBlock)) (failed .eParam) :=
  ⟨by decide, by decide, ⟨rfl, by decide⟩, ⟨rfl, by decide⟩⟩

theorem witness_HostCommandsDoNotReachTheDecodersStream :
    ¬IsDecoderCommand (.bsMerge 1 0) ∧ (∀ S, Instr.bsMerge 1 0 ≠ .bsInfo S) ∧ (decodingBlock.slot 0).owner = .decoder ∧
    (finished .decoder [0x60] 0 7).owner = .decoder ∧
    exec (.bsMerge 1 0) decodingBlock = .next (stateOf (exec (.bsMerge 1 0) decodingBlock)) :=
  ⟨by simp [IsDecoderCommand], nofun, by decide, by decide, rfl⟩

theorem witness_UnitsChangeOnlyByTheirCommands :
    exec (.encSetState 5 5) freshBlock = .next (stateOf (exec (.encSetState 5 5) freshBlock)) ∧
    exec .decInit waitingBlock = .next (stateOf (exec .decInit waitingBlock)) := ⟨rfl, rfl⟩

theorem witness_OnlyNamedOrOwnedSlotsChange :
    exec (.encClose 0) freshBlock = .next (stateOf (exec (.encClose 0) freshBlock)) ∧
    exec (.decDecode true 3 4) decodingBlock = .next (stateOf (exec (.decDecode true 3 4) decodingBlock)) := ⟨rfl, rfl⟩

theorem witness_QueriesChangeNothing :
    IsQuery (.bsExport 0) ∧ exec (.bsExport 0) freshBlock = .next (stateOf (exec (.bsExport 0) freshBlock)) := ⟨trivial, rfl⟩

theorem witness_AppendingCommandsFrame :
    appendTarget (.bsMerge 0 1) = some 0 ∧ (fullBlock.slot 0).Ok fullBlock.capacity ∧
    Answers (.bsMerge 0 1) fullBlock (stateOf (exec (.bsMerge 0 1) fullBlock)) (ok {}) ∧ (ok {}).status = .ok :=
  ⟨rfl, by decide, ⟨rfl, by decide⟩, rfl⟩

theorem witness_ReadingCommandsFrame :
    readTarget decodingBlock (.decDecode true 3 4) = some 0 ∧
    exec (.decDecode true 3 4) decodingBlock = .next (stateOf (exec (.decDecode true 3 4) decodingBlock)) := ⟨rfl, rfl⟩

/-- Both ways out of READ mode. -/
theorem witness_ReadModeIsLeftOnlyByReplacement :
    decodingBlock.Inv ∧
    exec (.bsNew 1) decodingBlock = .next (stateOf (exec (.bsNew 1) decodingBlock)) ∧ (decodingBlock.slot 1).mode = .read ∧
    ((stateOf (exec (.bsNew 1) decodingBlock)).slot 1).mode = .write ∧
    exec (.decNew 1 4) decodingBlock = .next (stateOf (exec (.decNew 1 4) decodingBlock)) ∧ (decodingBlock.slot 0).mode = .read ∧
    ((stateOf (exec (.decNew 1 4) decodingBlock)).slot 0).mode = .write :=
  ⟨decodingBlock_inv, rfl, by decide, by decide, rfl, by decide, by decide⟩

theorem witness_SymbolCounterCountsDecodes :
    Answers (.decNew 1 4) decodingBlock (stateOf (exec (.decNew 1 4) decodingBlock)) (ok {}) ∧
    Answers (.decDecode true 3 4) decodingBlock (stateOf (exec (.decDecode true 3 4) decodingBlock)) (ok { r0 := 1 }) ∧
    Answers (.decDecode true 0 4) decodingBlock (stateOf (exec (.decDecode true 0 4) decodingBlock)) (failed .eDomain) :=
  ⟨⟨rfl, by decide⟩, ⟨rfl, by decide⟩, ⟨rfl, by decide⟩⟩

theorem witness_StepKeepsInvariant :
    ({ freshBlock with pending := [.request (encode (.encClose 0))] } : State).Inv ∧
    step { freshBlock with pending := [.request (encode (.encClose 0))] } =
      .next (stateOf (step { freshBlock with pending := [.request (encode (.encClose 0))] })) :=
  ⟨⟨freshBlock_inv.params, freshBlock_inv.slots, freshBlock_inv.enc, freshBlock_inv.dec, freshBlock_inv.ownership,
    freshBlock_inv.err⟩, rfl⟩

theorem witness_ResetSatisfiesInvariants : Params.Ok { numStreams := 2, capacity := some 1 } :=
  ⟨by decide, by decide, by rintro c ⟨⟩; decide⟩

theorem witness_StepKeepsRecordAgreement :
    (State.reset.withFetchWord 32 0).RecordAgrees ∧
    step (State.reset.withFetchWord 32 0) = .next (stateOf (step (State.reset.withFetchWord 32 0))) :=
  ⟨⟨by decide, by decide, nofun⟩, rfl⟩

/-- Every clause of `IntervalAfterCommand`. -/
theorem witness_IntervalAfterCommand :
    decodingBlock.Inv ∧ freshBlock.Inv ∧
    Answers (.encNew 1) freshBlock (stateOf (exec (.encNew 1) freshBlock)) (ok {}) ∧
    Answers (.encEncode 0 false true 3 4) freshBlock (stateOf (exec (.encEncode 0 false true 3 4) freshBlock)) (ok {}) ∧
    Answers (.encSetState 15 15) freshBlock (stateOf (exec (.encSetState 15 15) freshBlock)) (ok {}) ∧
    Answers (.decNew 1 32) decodingBlock (stateOf (exec (.decNew 1 32) decodingBlock)) (ok {}) ∧
    Answers (.decDecode true 3 4) decodingBlock (stateOf (exec (.decDecode true 3 4) decodingBlock)) (ok { r0 := 1 }) ∧
    Answers (.decSetState 0 0) decodingBlock (stateOf (exec (.decSetState 0 0) decodingBlock)) (ok {}) :=
  ⟨decodingBlock_inv, freshBlock_inv, ⟨rfl, by decide⟩, ⟨rfl, by decide⟩, ⟨rfl, by decide⟩, ⟨rfl, by decide⟩, ⟨rfl, by decide⟩,
    ⟨rfl, by decide⟩⟩

/-- Every clause of `NewStreamIsEmpty`: the first index outside, the decoder's slot, a FREE slot and the host's. -/
theorem witness_NewStreamIsEmpty :
    decodingBlock.slots.length ≤ 4 ∧ 0 < decodingBlock.slots.length ∧ (decodingBlock.slot 0).owner = .decoder ∧
    3 < decodingBlock.slots.length ∧ (decodingBlock.slot 3).owner ≠ .decoder ∧ (decodingBlock.slot 1).owner ≠ .decoder := by decide

/-- Both clauses of `WritesAppendTheirBits`, in a full buffer (`N = 0`) and an unbounded one (`N = 64`). -/
theorem witness_WritesAppendTheirBits :
    HostMayUse freshBlock 0 ∧ (freshBlock.slot 0).Ok freshBlock.capacity ∧ (freshBlock.slot 0).mode = .write ∧
    ¬TooManyBytes freshBlock ((freshBlock.slot 0).buf.length + ((freshBlock.slot 0).wrCnt + 1) / 8) ∧ 64 ≤ 64 ∧
    ¬TooManyBytes freshBlock ((freshBlock.slot 0).buf.length + ((freshBlock.slot 0).wrCnt + 64) / 8) ∧
    HostMayUse fullBlock 0 ∧ (fullBlock.slot 0).Ok fullBlock.capacity ∧ (fullBlock.slot 0).mode = .write ∧
    ¬TooManyBytes fullBlock ((fullBlock.slot 0).buf.length + ((fullBlock.slot 0).wrCnt + 0) / 8) :=
  ⟨⟨by decide, by decide⟩, by decide, by decide, room rfl _, by decide, room rfl _, ⟨by decide, by decide⟩, by decide, by decide,
    room_to rfl (by decide)⟩

/-- `ToReadKeepsTheBits`: no bits at all in a full-size block of one byte, and pending bits. -/
theorem witness_ToReadKeepsTheBits :
    HostMayUse fullBlock 1 ∧ (fullBlock.slot 1).Ok fullBlock.capacity ∧ (fullBlock.slot 1).mode = .write ∧
    ¬(0 < (fullBlock.slot 1).wrCnt ∧ TooManyBytes fullBlock ((fullBlock.slot 1).buf.length + 1)) ∧
    HostMayUse (block (writing [0xAB] 0xC 4) free noEnc noDec) 0 ∧ 0 < (writing [0xAB] 0xC 4).wrCnt ∧
    (writing [0xAB] 0xC 4).Ok none :=
  ⟨⟨by decide, by decide⟩, by decide, by decide, fun h => absurd h.1 (by decide), ⟨by decide, by decide⟩, by decide, by decide⟩

/-- Both clauses of `ReadsReturnTheNextBits`, with all the bits and with none. -/
theorem witness_ReadsReturnTheNextBits :
    HostMayUse decodingBlock 1 ∧ (decodingBlock.slot 1).Ok decodingBlock.capacity ∧ (decodingBlock.slot 1).mode = .read ∧
    (decodingBlock.slot 1).rbits = false :: [true, true, false, false, false, false] ∧ 7 ≤ 64 ∧
    7 ≤ (decodingBlock.slot 1).rbits.length ∧ 0 ≤ (decodingBlock.slot 1).rbits.length :=
  ⟨⟨by decide, by decide⟩, by decide, by decide, by decide, by decide, by decide, by decide⟩

theorem witness_MergeConcatenates :
    0 ≠ 1 ∧ HostMayUse fullBlock 0 ∧ HostMayUse fullBlock 1 ∧ (fullBlock.slot 0).Ok fullBlock.capacity ∧
    (fullBlock.slot 0).mode = .write ∧ (fullBlock.slot 1).mode = .write ∧
    ¬TooManyBytes fullBlock ((fullBlock.slot 0).buf.length + ((fullBlock.slot 0).wrCnt + (fullBlock.slot 1).totalSize) / 8) :=
  ⟨by decide, ⟨by decide, by decide⟩, ⟨by decide, by decide⟩, by decide, by decide, by decide, room_to rfl (by decide)⟩

/-- Every clause of `CountsOfAStream`: a READING stream, and one that is not. -/
theorem witness_CountsOfAStream :
    HostMayUse decodingBlock 1 ∧ (decodingBlock.slot 1).Ok decodingBlock.capacity ∧ (decodingBlock.slot 1).progress = .reading ∧
    (7 = (decodingBlock.slot 1).rdLeft + (if (decodingBlock.slot 1).cursor + 1 = (decodingBlock.slot 1).buf.length then 0
      else 8 * ((decodingBlock.slot 1).buf.length - (decodingBlock.slot 1).cursor - 2) + (decodingBlock.slot 1).lastValid)) ∧
    (allBits (decodingBlock.slot 1)).length < 2 ^ 64 ∧
    HostMayUse fullBlock 0 ∧ (fullBlock.slot 0).Ok fullBlock.capacity ∧ (fullBlock.slot 0).progress ≠ .reading :=
  ⟨⟨by decide, by decide⟩, by decide, by decide, by decide, by decide, ⟨by decide, by decide⟩, by decide, by decide⟩

/-- Every clause of `ExportReturnsTheImage`: READ mode, and WRITE mode with pending bits and without. -/
theorem witness_ExportReturnsTheImage :
    HostMayUse decodingBlock 1 ∧ (decodingBlock.slot 1).Ok decodingBlock.capacity ∧ (decodingBlock.slot 1).mode = .read ∧
    HostMayUse fullBlock 0 ∧ (fullBlock.slot 0).Ok fullBlock.capacity ∧ (fullBlock.slot 0).mode = .write ∧
    0 < (fullBlock.slot 0).wrCnt ∧ HostMayUse fullBlock 1 ∧ (fullBlock.slot 1).Ok fullBlock.capacity ∧
    (fullBlock.slot 1).mode = .write ∧ (fullBlock.slot 1).wrCnt = 0 :=
  ⟨⟨by decide, by decide⟩, by decide, by decide, ⟨by decide, by decide⟩, by decide, by decide, by decide,
    ⟨by decide, by decide⟩, by decide, by decide, by decide⟩

theorem witness_RewindMovesTheCursorOnly :
    HostMayUse (block (reading .host [0x12, 0x34, 0x56] 2 0x56 8 8) free noEnc noDec) 0 ∧
    (reading .host [0x12, 0x34, 0x56] 2 0x56 8 8).Ok none ∧ (reading .host [0x12, 0x34, 0x56] 2 0x56 8 8).progress = .reading :=
  ⟨⟨by decide, by decide⟩, by decide, by decide⟩

/-- `ImportPrimesTheStream`, at both ends of the header's range, on the host's slot and on a FREE one. -/
theorem witness_ImportPrimesTheStream :
    0 < fullBlock.slots.length ∧ (fullBlock.slot 0).owner ≠ .decoder ∧ (fullBlock.slot 3).owner ≠ .decoder ∧
    0xE1 ≤ (0xE1 : Byte).toNat ∧ (0xE8 : Byte).toNat ≤ 0xE8 ∧ ([0x60] : List Byte) ≠ [] ∧
    ¬TooManyBytes fullBlock ([0x60] : List Byte).length :=
  ⟨by decide, by decide, by decide, by decide, by decide, by decide, room_to rfl (by decide)⟩

/-- Both clauses of `ImportOfExportGivesTheBits`: an image with bits, and one without, in a block of one byte. -/
theorem witness_ImportOfExportGivesTheBits :
    HostMayUse fullBlock 1 ∧ (fullBlock.slot 1).Ok fullBlock.capacity ∧ 3 < fullBlock.slots.length ∧
    (fullBlock.slot 3).owner ≠ .decoder ∧ ¬TooManyBytes fullBlock (((allBits (fullBlock.slot 1)).length + 7) / 8) ∧
    Answers (.bsExport 1) fullBlock (stateOf (exec (.bsExport 1) fullBlock)) (okWith {} [0xE8]) ∧
    allBits (fullBlock.slot 1) = [] ∧
    HostMayUse decodingBlock 1 ∧ (decodingBlock.slot 1).Ok decodingBlock.capacity ∧
    Answers (.bsExport 1) decodingBlock (stateOf (exec (.bsExport 1) decodingBlock)) (okWith {} [0xE7, 0x60]) ∧
    ¬TooManyBytes decodingBlock (((allBits (decodingBlock.slot 1)).length + 7) / 8) ∧ allBits (decodingBlock.slot 1) ≠ [] :=
  ⟨⟨by decide, by decide⟩, by decide, by decide, by decide, room_to rfl (by decide), ⟨rfl, by decide⟩, by decide,
    ⟨by decide, by decide⟩, by decide, ⟨rfl, by decide⟩, room rfl _, by decide⟩

/-- `InfoReturnsTheSlot`: a FREE slot, the decoder's and the host's. -/
theorem witness_InfoReturnsTheSlot :
    3 < decodingBlock.slots.length ∧ (decodingBlock.slot 3).Ok decodingBlock.capacity ∧
    (decodingBlock.slot 0).Ok decodingBlock.capacity ∧ (decodingBlock.slot 1).Ok decodingBlock.capacity ∧
    (decodingBlock.slot 1).buf.length < 2 ^ 64 ∧ (decodingBlock.slot 1).cursor < 2 ^ 64 :=
  ⟨by decide, by decide, by decide, by decide, by decide, by decide⟩

theorem witness_NewEncoderIsReady : (0 < 1 ∨ 32 < 0) ∧ (33 < 1 ∨ 32 < 33) ∧ 1 ≤ 1 ∧ 32 ≤ 32 := by decide

/-- `EncodeNarrowsAndEmits`: an MPS and an LPS. -/
theorem witness_EncodeNarrowsAndEmits :
    fullBlock.Inv ∧ HostMayUse fullBlock 0 ∧ (fullBlock.slot 0).mode = .write ∧ fullBlock.enc.phase = .ready ∧
    0 < (3 : Word).toNat ∧ (3 : Word).toNat < (4 : Word).toNat ∧ (4 : Word).toNat < 2 ^ (64 - fullBlock.enc.m) ∧
    (true = true → tempOf fullBlock.enc.low fullBlock.enc.high 3 4 ≠ 0) ∧
    ¬TooManyBytes fullBlock ((fullBlock.slot 0).buf.length +
      ((fullBlock.slot 0).wrCnt + encodeShift fullBlock.enc true true 3 4) / 8) ∧
    ¬TooManyBytes freshBlock ((freshBlock.slot 0).buf.length +
      ((freshBlock.slot 0).wrCnt + encodeShift freshBlock.enc false true 3 4) / 8) :=
  ⟨fullBlock_inv, ⟨by decide, by decide⟩, by decide, by decide, by decide, by decide, by decide, by decide,
    room_to rfl (by decide), room rfl _⟩

theorem witness_CloseAppendsLow :
    HostMayUse fullBlock 1 ∧ (fullBlock.slot 1).Ok fullBlock.capacity ∧ (fullBlock.slot 1).mode = .write ∧
    fullBlock.enc.phase = .ready ∧ fullBlock.enc.low.toNat < 2 ^ fullBlock.enc.m ∧
    ¬TooManyBytes fullBlock ((fullBlock.slot 1).buf.length + ((fullBlock.slot 1).wrCnt + fullBlock.enc.m) / 8) :=
  ⟨⟨by decide, by decide⟩, by decide, by decide, by decide, by decide, room_to rfl (by decide)⟩

/-- Every clause of `EncoderStateAccess`. -/
theorem witness_EncoderStateAccess :
    decodingBlock.enc.phase ≠ .uninit ∧ (0 : Word).toNat ≤ (15 : Word).toNat ∧ (15 : Word).toNat ≤ 2 ^ decodingBlock.enc.m - 1 ∧
    (15 : Word).toNat ≤ (15 : Word).toNat ∧ decodingBlock.enc.m ≤ 32 ∧ State.reset.enc.m ≤ 32 := by decide

/-- Every clause of `DecoderStateAccess`. -/
theorem witness_DecoderStateAccess :
    decodingBlock.dec.phase ≠ .absent ∧ (0 : Word).toNat ≤ (15 : Word).toNat ∧ (15 : Word).toNat ≤ 2 ^ decodingBlock.dec.m - 1 ∧
    (decodingBlock.slot decodingBlock.dec.slot).remaining < 2 ^ 64 ∧ decodingBlock.dec.m ≤ 32 ∧ decodingBlock.dec.slot < 16 ∧
    State.reset.dec.m ≤ 32 ∧ State.reset.dec.slot < 16 := by decide

/-- `NewDecoderTakesTheStream`: replacing a decoder, and making the first one. -/
theorem witness_NewDecoderTakesTheStream :
    decodingBlock.OwnershipOk ∧ HostMayUse decodingBlock 1 ∧ (decodingBlock.slot 1).mode = .read ∧ 1 ≤ 32 ∧ 32 ≤ 32 ∧
    decodingBlock.dec.phase ≠ .absent ∧ decodingBlock.dec.slot < decodingBlock.slots.length ∧
    (block (imported .host) free noEnc noDec).OwnershipOk ∧ HostMayUse (block (imported .host) free noEnc noDec) 0 ∧
    (block (imported .host) free noEnc noDec).dec.phase = .absent :=
  ⟨by decide, ⟨by decide, by decide⟩, by decide, by decide, by decide, by decide, by decide, by decide,
    ⟨by decide, by decide⟩, by decide⟩

theorem witness_InitReadsTheTag :
    waitingBlock.Inv ∧ waitingBlock.dec.phase = .uninit ∧
    waitingBlock.dec.m ≤ (waitingBlock.slot waitingBlock.dec.slot).rbits.length := ⟨waitingBlock_inv, by decide, by decide⟩

/-- `DecodeFollowsTheTag`: W3's step 4, where the renormalisation reads all three bits that are left. -/
theorem witness_DecodeFollowsTheTag :
    decodingBlock.Inv ∧ decodingBlock.dec.phase = .ready ∧ 0 < (3 : Word).toNat ∧ (3 : Word).toNat < (4 : Word).toNat ∧
    (4 : Word).toNat < 2 ^ (64 - decodingBlock.dec.m) ∧ decodingBlock.dec.low.toNat ≤ decodingBlock.dec.tag.toNat ∧
    decodeShift decodingBlock.dec 3 4 = (decodingBlock.slot decodingBlock.dec.slot).rbits.length :=
  ⟨decodingBlock_inv, by decide, by decide, by decide, by decide, by decide, by decide⟩

/-- The statements about the interval arithmetic: two values that differ, two that are equal (`m` bits shared), and the largest
precision. -/
theorem witness_SharedPrefixIsTheLargest :
    6 < 2 ^ 4 ∧ 7 < 2 ^ 4 ∧ 6 / 2 ^ (4 - 3) = 7 / 2 ^ (4 - 3) ∧ 0 < 2 ^ 0 ∧ 2 ^ 32 - 1 < 2 ^ 32 := by decide

theorem witness_RenormEqualsItsClosedForm :
    1 ≤ 4 ∧ 6 < 2 ^ 4 ∧ 7 < 2 ^ 4 ∧ 6 ≤ 7 ∧ 6 &&& msbMask 4 = 7 &&& msbMask 4 := by decide

theorem witness_RenormEndsWithDifferingTopBits : 1 ≤ 1 ∧ 0 < 2 ^ 1 ∧ 0 &&& msbMask 1 = 0 &&& msbMask 1 ∧ 32 ≤ 33 := by decide

/-- `NarrowStaysInsideTheInterval`: a narrowing, and DOMAIN (ENC31c). -/
theorem witness_NarrowStaysInsideTheInterval :
    0 ≤ 15 ∧ 0 < 3 ∧ 3 < 4 ∧ narrow 0 15 true 3 4 = some (0, 11, 12) ∧ narrow 6 8 true 1 4 = none := by decide

theorem witness_ProductsFitInAWord :
    1 ≤ 32 ∧ 32 ≤ 32 ∧ 0 ≤ 2 ^ 32 - 1 ∧ 2 ^ 32 - 1 < 2 ^ 32 ∧ contextOK 1 (2 ^ 32 - 1) 32 = true := by decide

/-- `DecisionIsTheSubintervalTest`: W3's step 4, and the second value a tag can have in it. -/
theorem witness_DecisionIsTheSubintervalTest :
    6 ≤ 6 ∧ 6 ≤ 8 ∧ 0 < 3 ∧ 3 < 4 ∧ tagStar 6 6 8 4 < 3 ∧ 1 ≤ 4 ∧ 8 < 2 ^ 4 ∧ ¬tagStar 8 6 8 4 < 3 ∧
    [false, false, false].length = sharedPrefix 6 7 4 := by decide

/-- `NoRescalingOfANarrowInterval`: the interval `{6, 8}` of ENC31c. -/
theorem witness_NoRescalingOfANarrowInterval :
    HostMayUse (block (writing [] 0 0) free (enc4 6 8) noDec) 0 ∧
    ((block (writing [] 0 0) free (enc4 6 8) noDec).slot 0).mode = .write ∧ (enc4 6 8).phase = .ready ∧ 0 < (1 : Word).toNat ∧
    (1 : Word).toNat < (4 : Word).toNat ∧ (4 : Word).toNat < 2 ^ (64 - (enc4 6 8).m) ∧
    ((enc4 6 8).high.toNat - (enc4 6 8).low.toNat + 1) * (1 : Word).toNat < (4 : Word).toNat :=
  ⟨⟨by decide, by decide⟩, by decide, by decide, by decide, by decide, by decide, by decide⟩

/-- `DecodingReturnsTheEncodedSymbols`, with one symbol of each kind. -/
theorem witness_DecodingReturnsTheEncodedSymbols :
    freshBlock.Inv ∧ HostMayUse freshBlock 0 ∧ freshBlock.slot 0 = emptySlot .host ∧
    (okRun ([.encNew 4] ++ [(⟨true, true, 3, 4⟩ : Symbol), ⟨false, true, 3, 4⟩].map (fun y => .encEncode 0 y.V y.P y.A y.B) ++
      [.encClose 0, .bsToRead 0, .decNew 0 4, .decInit]) freshBlock).isSome = true :=
  ⟨freshBlock_inv, ⟨by decide, by decide⟩, by decide, by decide⟩

end Sys2Proof.Tests
end

section
/-! PROOFS. The statements of spec/00_scope.md that need no invariant: a step runs the decoded command (R13, R83), and the
products of the interval arithmetic stay below `2^64` (R10, R133). -/

namespace Sys2Proof.Machine

/-- A step whose event is a request serves that request. -/
theorem step_request {s : State} {r : Request} {rest : List HostEvent} (h : s.pending = .request r :: rest) :
    step s = serve r (s.withPending rest) := by
  simp [step, h]

/-- A step whose event is a reset resets the block. -/
theorem step_reset {s : State} {rest : List HostEvent} (h : s.pending = .reset :: rest) :
    step s = .next (applyReset (s.withPending rest)) := by
  simp [step, h]

/-- A step without an event holds the state (R188). -/
theorem step_idle {s : State} (h : s.pending = []) : step s = .next s := by
  simp [step, h]

/-- Serving a legal request runs its command (R83). -/
theorem serve_command {r : Request} {i : Instr} (h : decode r = .command i) (s : State) : serve r s = exec i s := by
  simp [serve, h]

/-- Serving an illegal request refuses its word (R80). -/
theorem serve_illegal {r : Request} {why : Reject} (h : decode r = .illegal why) (s : State) :
    serve r s = refuseWord r s := by
  simp [serve, h]

/-- What `ContextOK` asks of the two counts (R133). -/
theorem contextOK_iff {cmp tot m : Nat} : contextOK cmp tot m = true ↔ 0 < cmp ∧ cmp < tot ∧ tot < 2 ^ (64 - m) := by
  simp [contextOK]

/-- An `m`-bit width times a count below `2^(64-m)` fits in a word (R133). -/
theorem mul_lt_word {width count m : Nat} (hm : m ≤ 32) (hw : width ≤ 2 ^ m) (hc : count < 2 ^ (64 - m)) :
    width * count < 2 ^ 64 := by
  calc width * count ≤ 2 ^ m * count := Nat.mul_le_mul_right _ hw
    _ < 2 ^ m * 2 ^ (64 - m) := Nat.mul_lt_mul_of_pos_left hc (by positivity)
    _ = 2 ^ 64 := by rw [← Nat.pow_add]; congr 1; omega

/-- Settles O6: the step takes the request off the list, and the request decodes to the command. -/
theorem stepRunsTheDecodedCommand : Obligations.StepRunsTheDecodedCommand := by
  intro s r rest i hpending hdecode
  rw [step_request hpending, serve_command hdecode]
  rfl

/-- Settles O50: both widths are at most `2^m`, and both counts are below `2^(64-m)`. -/
theorem productsFitInAWord : Obligations.ProductsFitInAWord := by
  intro l0 u0 tag cmp tot m _ hm _ hu htag hctx
  obtain ⟨-, hlt, htot⟩ := contextOK_iff.mp hctx
  exact ⟨mul_lt_word hm (by omega) (hlt.trans htot), mul_lt_word hm (by omega) htot⟩

end Sys2Proof.Machine
end

section
/-! PROOFS. The parts of the invariant that the units and the error record carry (spec/10_state.md rules R33 to R40), and
what the interval arithmetic keeps of them. -/

namespace Sys2Proof.Machine

/-! ### The error record -/

/-- Recording an error gives a legal record (R40, R177). -/
theorem record_ok {err : ErrorRecord} (h : err.Ok) (cw : CommandWord) {e : Status} (he : e ≠ .ok) :
    (err.record cw e).Ok := by
  obtain ⟨-, hvalid⟩ := h
  refine ⟨fun hf => by simp [ErrorRecord.record] at hf, fun _ => ⟨?_, ?_⟩⟩
  · cases hv : err.valid with
    | false => simpa [ErrorRecord.record, hv] using he
    | true => simpa [ErrorRecord.record, hv] using (hvalid hv).1
  · simp only [ErrorRecord.record]
    split
    next hfull => rw [hfull]; decide
    next hroom =>
      have hlt : err.count.toNat ≠ 2 ^ 32 - 1 := by simpa [← BitVec.toNat_inj] using hroom
      bv_omega

/-! ### Intervals -/

theorem validMask_eq (m : Nat) : validMask m = 2 ^ m - 1 := by
  simp [validMask, Nat.shiftLeft_eq]

theorem le_validMask_iff {v m : Nat} : v ≤ validMask m ↔ v < 2 ^ m := by
  have : 0 < 2 ^ m := by positivity
  rw [validMask_eq]
  omega

/-- A value of at most 32 bits is the word that holds it. -/
theorem ofNat_toNat_of_lt {v m : Nat} (hm : m ≤ 32) (hv : v < 2 ^ m) : (BitVec.ofNat 64 v).toNat = v := by
  have h64 : 2 ^ m < 2 ^ 64 := Nat.pow_lt_pow_right (by decide) (by omega)
  rw [BitVec.toNat_ofNat, Nat.mod_eq_of_lt (by omega)]

/-- Two ordered values below `2^m`, as words, are a legal interval of precision `m` (R38). -/
theorem interval_ok {l u m : Nat} (hm : m ≤ 32) (hlu : l ≤ u) (hu : u < 2 ^ m) :
    (BitVec.ofNat 64 l).toNat ≤ (BitVec.ofNat 64 u).toNat ∧ (BitVec.ofNat 64 u).toNat ≤ validMask m := by
  rw [ofNat_toNat_of_lt hm hu, ofNat_toNat_of_lt hm (hlu.trans_lt hu), le_validMask_iff]
  exact ⟨hlu, hu⟩

/-- A narrowed interval is in order and below the old upper bound (R130). -/
theorem narrow_bounds {l0 u0 cmp tot : Nat} {mps : Bool} {l1 u1 temp : Nat} (h0 : l0 ≤ u0) (hc : cmp < tot)
    (h : narrow l0 u0 mps cmp tot = some (l1, u1, temp)) : l1 ≤ u1 ∧ u1 ≤ u0 := by
  have htemp : (u0 - l0 + 1) * cmp / tot < u0 - l0 + 1 := temp_lt (by omega) hc
  rw [narrow_cases] at h
  generalize (u0 - l0 + 1) * cmp / tot = w at h htemp
  cases mps with
  | true =>
    obtain ⟨hw, rfl, rfl, rfl⟩ : w ≠ 0 ∧ l0 = l1 ∧ l0 + w - 1 = u1 ∧ w = temp := by simpa using h
    omega
  | false =>
    obtain ⟨rfl, rfl, rfl⟩ : l0 + w = l1 ∧ u0 = u1 ∧ w = temp := by simpa using h
    omega

/-- What narrowing and renormalising leaves is a legal interval (R130, R132, R140). -/
theorem renorm_narrow_ok {l0 u0 cmp tot m : Nat} {mps : Bool} {l1 u1 temp : Nat} (h1 : 1 ≤ m) (h32 : m ≤ 32)
    (h0 : l0 ≤ u0) (hu0 : u0 ≤ validMask m) (hc : cmp < tot) (h : narrow l0 u0 mps cmp tot = some (l1, u1, temp)) :
    (BitVec.ofNat 64 (renorm l1 u1 m).1).toNat ≤ (BitVec.ofNat 64 (renorm l1 u1 m).2.1).toNat ∧
    (BitVec.ofNat 64 (renorm l1 u1 m).2.1).toNat ≤ validMask m := by
  obtain ⟨hle, hu1⟩ := narrow_bounds h0 hc h
  obtain ⟨hord, hlt⟩ := renorm_bounds h1 hle (hu1.trans_lt (le_validMask_iff.mp hu0))
  exact interval_ok h32 hord hlt

/-- The tag after a renormalisation fits in `m` bits (R153). -/
theorem shiftTag_lt (tag : Nat) {m : Nat} {q : List Bool} (hq : q.length ≤ m) : shiftTag tag m q < 2 ^ m := by
  have hnum := num_lt q
  have hroom := mod_add_le tag hq
  rw [shiftTag_eq tag m q hq]
  omega

/-- A number below `2^m`, as a word, is a legal tag (R36). -/
theorem tag_ok {v m : Nat} (hm : m ≤ 32) (hv : v < 2 ^ m) : (BitVec.ofNat 64 v).toNat ≤ validMask m := by
  rwa [ofNat_toNat_of_lt hm hv, le_validMask_iff]

theorem precision_of_check {N : Nat} (h : badPrecision N = false) : 1 ≤ N ∧ N ≤ 32 := by
  have hrange : ¬(N < 1 ∨ 32 < N) := of_decide_eq_false h
  omega

theorem interval_of_check {A B : Word} {m : Nat} (h : (!(A.toNat ≤ B.toNat && B.toNat ≤ validMask m)) = false) :
    A.toNat ≤ B.toNat ∧ B.toNat ≤ validMask m := by
  simpa using h

/-- The whole interval of a new unit is legal (R134, R150). -/
theorem fullInterval_ok {N : Nat} (h : N ≤ 32) : (BitVec.ofNat 64 (validMask N)).toNat ≤ validMask N :=
  tag_ok h (le_validMask_iff.mp (Nat.le_refl _))

end Sys2Proof.Machine
end

section
/-! PROOFS. What the slot operations keep of a slot's owner, and what a passed check says of a slot (spec/10_state.md rules R22
to R32). -/

namespace Sys2Proof.Machine

@[simp] theorem emptySlot_owner (o : Owner) : (emptySlot o).owner = o := rfl

@[simp] theorem appendBit_owner (t : Slot) (b : Bool) : (t.appendBit b).owner = t.owner := by
  unfold Slot.appendBit
  dsimp only
  split <;> rfl

@[simp] theorem appendBits_owner (t : Slot) (q : List Bool) : (t.appendBits q).owner = t.owner := by
  induction q generalizing t with
  | nil => rfl
  | cons b q ih => exact (ih (t.appendBit b)).trans (appendBit_owner t b)

@[simp] theorem primeRead_owner (t : Slot) : t.primeRead.owner = t.owner := by
  unfold Slot.primeRead
  split <;> rfl

@[simp] theorem padToRead_owner (t : Slot) : t.padToRead.owner = t.owner := by
  unfold Slot.padToRead
  split <;> rfl

@[simp] theorem shiftOut_owner (t : Slot) : t.shiftOut.owner = t.owner := by
  unfold Slot.shiftOut
  split
  · split <;> rfl
  · rfl

@[simp] theorem readBits_owner (n : Nat) (t : Slot) : (t.readBits n).2.owner = t.owner := by
  induction n generalizing t with
  | zero => rfl
  | succ n ih => exact (ih t.shiftOut).trans (shiftOut_owner t)

@[simp] theorem importedSlot_owner (nv : Nat) (body : List Byte) : (importedSlot nv body).owner = .host := by
  simp [importedSlot]

theorem inside_of_check {s : State} {S : Nat} (h : noSuchSlot s S = false) : S < s.slots.length := by
  simpa [noSuchSlot] using h

theorem write_of_check {t : Slot} (h : decide (t.mode = .read) = false) : t.mode = .write := by
  cases hm : t.mode <;> simp_all

theorem read_of_check {t : Slot} (h : decide (t.mode = .write) = false) : t.mode = .read := by
  cases hm : t.mode <;> simp_all

/-- A legal READING slot is in READ mode and has an unread bit (R24, R26). -/
theorem unread_of_reading {cap : Option Nat} {t : Slot} (h : t.Ok cap) (hp : t.progress = .reading) :
    t.mode = .read ∧ 1 ≤ t.rbits.length := by
  obtain ⟨-, ⟨-, -, hwrite⟩, hread, -, -⟩ := h
  have hm : t.mode = .read := by
    cases hm : t.mode with
    | read => rfl
    | write => rw [(hwrite hm).1] at hp; cases hp
  have hne : t.rbits ≠ [] := fun hnil => by
    rw [(finished_iff t hm hread).mpr hnil] at hp
    cases hp
  exact ⟨hm, List.length_pos_iff.mpr hne⟩

/-- A passed check for exhaustion: a READ-mode slot has the bits asked for (R30). -/
theorem unread_of_check {t : Slot} {n : Nat} (hm : t.mode = .read) (h : decide (t.remaining < n) = false) :
    n ≤ t.rbits.length := by
  simpa [Slot.remaining, hm] using h

end Sys2Proof.Machine
end

section
/-! PROOFS. The invariant `State.Inv`: what each update of the state has to bring to keep it, and that an answer keeps it. -/

namespace Sys2Proof.Machine

/-! ### Updates of the state -/

theorem inv_withPending {s : State} (h : s.Inv) (rest : List HostEvent) : (s.withPending rest).Inv :=
  ⟨h.params, h.slots, h.enc, h.dec, h.ownership, h.err⟩

/-- Replacing a slot by a legal one keeps the invariant, if the decoder owns the new slot exactly when it owned the old one. -/
theorem inv_setSlot {s : State} (h : s.Inv) (i : Nat) {u : Slot} (hu : u.Ok s.capacity)
    (ho : u.owner = .decoder ↔ (s.slot i).owner = .decoder) : (s.setSlot i u).Inv where
  params := by simpa [State.params] using h.params
  slots t ht := by
    rcases List.mem_or_eq_of_mem_set ht with hold | rfl
    · exact h.slots t hold
    · exact hu
  enc := h.enc
  dec := by simpa using h.dec
  ownership j hj := by
    have hj' : j < s.slots.length := by simpa using hj
    by_cases hij : j = i
    · subst hij
      rw [slot_setSlot_same hj', ho]
      exact h.ownership j hj'
    · rw [slot_setSlot_ne hij]
      exact h.ownership j hj'
  err := h.err

/-- Replacing a slot that the decoder does not own by a legal one that it does not own either. -/
theorem inv_setSlot_host {s : State} (h : s.Inv) {i : Nat} {u : Slot} (hold : (s.slot i).owner ≠ .decoder)
    (hu : u.Ok s.capacity) (hnew : u.owner ≠ .decoder) : (s.setSlot i u).Inv :=
  inv_setSlot h i hu (iff_of_false hnew hold)

theorem inv_setEnc {s : State} (h : s.Inv) {e : EncoderUnit} (he : e.Ok) : (s.setEnc e).Inv :=
  ⟨h.params, h.slots, he, h.dec, h.ownership, h.err⟩

/-- A legal decoder unit that exists when the old one did, on the same slot. -/
theorem inv_setDec {s : State} (h : s.Inv) {d : DecoderUnit} (hd : d.Ok s.slots.length)
    (hphase : d.phase ≠ .absent ↔ s.dec.phase ≠ .absent) (hslot : d.slot = s.dec.slot) : (s.setDec d).Inv where
  params := h.params
  slots := h.slots
  enc := h.enc
  dec := hd
  ownership j hj := by
    simpa only [setDec_dec, setDec_slot, hphase, hslot] using h.ownership j hj
  err := h.err

/-- The decoder unit of R41, without a stream. -/
def absentDecoder : DecoderUnit :=
  { phase := .absent, m := 0, low := 0, high := 0, tag := 0, count := 0, slot := 0 }

theorem absentDecoder_ok (n : Nat) : absentDecoder.Ok n := by
  simp [DecoderUnit.Ok, absentDecoder]

/-- A decoder that exists owns a READ-mode slot of the block (R32). -/
theorem decoder_slot {s : State} (h : s.Inv) (hp : s.dec.phase ≠ .absent) :
    s.dec.slot < s.slots.length ∧ (s.slot s.dec.slot).owner = .decoder ∧ (s.slot s.dec.slot).mode = .read := by
  obtain ⟨-, hexists, -⟩ := h.dec
  obtain ⟨-, -, hin⟩ := hexists hp
  have howner := (h.ownership _ hin).mpr ⟨hp, rfl⟩
  obtain ⟨-, -, -, -, hread⟩ := h.slots _ (slot_mem hin)
  exact ⟨hin, howner, hread howner⟩

/-- Dropping the decoder with its stream keeps the invariant (R101). -/
theorem inv_dropDecoder {s : State} (h : s.Inv) : (s.dropDecoderStream.setDec absentDecoder).Inv := by
  unfold State.dropDecoderStream
  split
  next habsent =>
    obtain ⟨hfields, -⟩ := h.dec
    obtain ⟨-, -, -, -, -, hslot⟩ := hfields habsent
    exact inv_setDec h (absentDecoder_ok _) (by simp [absentDecoder, habsent]) (by simp [absentDecoder, hslot])
  next hpresent =>
    refine ⟨by simpa [State.params] using h.params, fun t ht => ?_, h.enc, absentDecoder_ok _, fun j hj => ?_, h.err⟩
    · rcases List.mem_or_eq_of_mem_set ht with hold | rfl
      · exact h.slots t hold
      · exact emptySlot_ok _ (by decide)
    · have hj' : j < s.slots.length := by simpa using hj
      refine iff_of_false ?_ (by simp [absentDecoder])
      by_cases hjs : j = s.dec.slot
      · subst hjs
        simp [slot_freeSlot_same hj']
      · rw [setDec_slot, slot_freeSlot_ne hjs, h.ownership j hj']
        exact fun hown => hjs hown.2.symm

/-- Dropping the decoder's stream leaves the host's slots (R101). -/
theorem slot_dropDecoderStream {s : State} (h : s.Inv) {S : Nat} (ho : (s.slot S).owner = .host) :
    s.dropDecoderStream.slot S = s.slot S := by
  unfold State.dropDecoderStream
  split
  next => rfl
  next hpresent =>
    refine slot_freeSlot_ne ?_
    rintro rfl
    rw [(decoder_slot h hpresent).2.1] at ho
    cases ho

/-- Without a decoder, handing a slot to a new one on that slot keeps the invariant (R32, R150). -/
theorem inv_handOver {s : State} (h : s.Inv) (habsent : s.dec.phase = .absent) {S : Nat} {u : Slot} {d : DecoderUnit}
    (hu : u.Ok s.capacity) (hown : u.owner = .decoder) (hd : d.Ok s.slots.length) (hpresent : d.phase ≠ .absent)
    (hS : d.slot = S) : ((s.setSlot S u).setDec d).Inv where
  params := by simpa [State.params] using h.params
  slots t ht := by
    rcases List.mem_or_eq_of_mem_set ht with hold | rfl
    · exact h.slots t hold
    · exact hu
  enc := h.enc
  dec := by simpa using hd
  ownership j hj := by
    have hj' : j < s.slots.length := by simpa using hj
    rw [setDec_slot, setDec_dec, hS]
    by_cases hjS : j = S
    · subst hjS
      simp [slot_setSlot_same hj', hown, hpresent]
    · rw [slot_setSlot_ne hjS, h.ownership j hj']
      exact iff_of_false (fun hold => hold.1 habsent) (fun hnew => hjS hnew.2.symm)
  err := h.err

/-- The state after reset, for every allowed choice of the parameters (R41). -/
theorem resetWith_inv {p : Params} (hp : p.Ok) : (State.resetWith p).Inv where
  params := by simpa [State.params, State.resetWith] using hp
  slots t ht := by
    rw [List.eq_of_mem_replicate ht]
    exact emptySlot_ok _ (by decide)
  enc := by simp [EncoderUnit.Ok, State.resetWith]
  dec := absentDecoder_ok _
  ownership j _ := by
    rw [slot_resetWith]
    simp [State.resetWith]
  err := by simp [ErrorRecord.Ok, State.resetWith]

theorem applyReset_inv {s : State} (h : s.Inv) : (applyReset s).Inv :=
  inv_withPending (resetWith_inv h.params) s.pending

/-! ### Answers -/

/-- The state that an answer gives satisfies the invariant. -/
def KeepsInv (o : Result) : Prop := ∀ t, o = .next t → t.Inv

theorem reply_keepsInv {s : State} (h : s.Inv) (r : Results) (out : List Byte) : KeepsInv (reply s r out) := by
  intro t ht
  cases ht
  exact ⟨h.params, h.slots, h.enc, h.dec, h.ownership, h.err⟩

theorem raiseWord_keepsInv {s : State} (h : s.Inv) (cw : CommandWord) {e : Status} (he : e ≠ .ok) (info : Word) :
    KeepsInv (raiseWord cw e info s) := by
  intro t ht
  cases ht
  exact ⟨h.params, h.slots, h.enc, h.dec, h.ownership, record_ok h.err cw he⟩

/-- A guarded command keeps the invariant, if its effect does when every check passes. -/
theorem guarded_keepsInv {i : Instr} {s : State} {cs : Checks} {effect : Result} (h : s.Inv) (hc : cs.Errors)
    (he : firstFailure cs = none → KeepsInv effect) : KeepsInv (guarded i s cs effect) := by
  rcases guarded_cases i s cs effect with ⟨e, hf, hraise⟩ | ⟨hpass, heffect⟩
  · rw [hraise]
    exact raiseWord_keepsInv h _ (hc _ (firstFailure_some hf)) 0
  · rw [heffect]
    exact he hpass

/-- A guarded query keeps the invariant: it answers and changes nothing. -/
theorem query_keepsInv {i : Instr} {s : State} {cs : Checks} {r : Results} {out : List Byte} (h : s.Inv)
    (hc : cs.Errors) : KeepsInv (guarded i s cs (reply s r out)) :=
  guarded_keepsInv h hc fun _ => reply_keepsInv h r out

end Sys2Proof.Machine
end

section
/-! PROOFS. Every command keeps the invariant, one lemma per command that changes a slot or a unit (spec/40_bitstream.md rules
R105 to R116, spec/41_encoder.md rules R134 to R138, spec/42_decoder.md rules R150 to R155). -/

namespace Sys2Proof.Machine

/-! ### The commands of the BSU -/

theorem execBsNew_keepsInv {s : State} (h : s.Inv) (S : Nat) : KeepsInv (execBsNew S s) :=
  guarded_keepsInv h (by simp [Checks.Errors]) fun hpass => by
    obtain ⟨-, hpass⟩ := firstFailure_pass hpass
    obtain ⟨howner, -⟩ := firstFailure_pass hpass
    exact reply_keepsInv (inv_setSlot_host h (by simpa using howner) (emptySlot_ok _ (by decide)) (by simp)) _ _

/-- Appending bits to a WRITE-mode stream of the host with room for them (R59, R102). -/
theorem inv_append {s : State} (h : s.Inv) {S : Nat} {q : List Bool} (hin : noSuchSlot s S = false)
    (ho : (s.slot S).owner = .host) (hm : decide ((s.slot S).mode = .read) = false)
    (hroom : (!(s.slot S).fits s.capacity q.length) = false) : (s.setSlot S ((s.slot S).appendBits q)).Inv :=
  inv_setSlot h S
    (appendBits_ok (h.slots _ (slot_mem (inside_of_check hin))) ho (write_of_check hm) (by simpa using hroom)) (by simp)

/-- Reading bits that are there from a READ-mode stream (R104). -/
theorem inv_readBits {s : State} (h : s.Inv) {S n : Nat} (hin : S < s.slots.length) (ho : (s.slot S).owner ≠ .free)
    (hm : (s.slot S).mode = .read) (hn : n ≤ (s.slot S).rbits.length) :
    (s.setSlot S ((s.slot S).readBits n).2).Inv :=
  inv_setSlot h S (readBits_ok (h.slots _ (slot_mem hin)) hm hn ho) (by simp)

theorem execBsWriteBit_keepsInv {s : State} (h : s.Inv) (S : Nat) (V : Bool) : KeepsInv (execBsWriteBit S V s) :=
  guarded_keepsInv h (by simp [Checks.Errors, hostSlot]) fun hpass => by
    obtain ⟨hin, hpass⟩ := firstFailure_pass hpass
    obtain ⟨ho, hpass⟩ := hostSlot_pass hpass
    obtain ⟨hm, hpass⟩ := firstFailure_pass hpass
    obtain ⟨hroom, -⟩ := firstFailure_pass hpass
    exact reply_keepsInv (inv_append (q := [V]) h hin ho hm hroom) _ _

theorem execBsWriteNumber_keepsInv {s : State} (h : s.Inv) (S N : Nat) (A : Word) :
    KeepsInv (execBsWriteNumber S N A s) :=
  guarded_keepsInv h (by simp [Checks.Errors, hostSlot]) fun hpass => by
    obtain ⟨hin, hpass⟩ := firstFailure_pass hpass
    obtain ⟨-, hpass⟩ := firstFailure_pass hpass
    obtain ⟨ho, hpass⟩ := hostSlot_pass hpass
    obtain ⟨hm, hpass⟩ := firstFailure_pass hpass
    obtain ⟨hroom, -⟩ := firstFailure_pass hpass
    exact reply_keepsInv (inv_append h hin ho hm (by rwa [bitsOf_length])) _ _

theorem execBsToRead_keepsInv {s : State} (h : s.Inv) (S : Nat) : KeepsInv (execBsToRead S s) :=
  guarded_keepsInv h (by simp [Checks.Errors, hostSlot]) fun hpass => by
    obtain ⟨hin, hpass⟩ := firstFailure_pass hpass
    obtain ⟨ho, hpass⟩ := hostSlot_pass hpass
    obtain ⟨-, hpass⟩ := firstFailure_pass hpass
    obtain ⟨hroom, -⟩ := firstFailure_pass hpass
    refine reply_keepsInv (inv_setSlot h S (toRead_ok (h.slots _ (slot_mem (inside_of_check hin))) ho ?_) (by simp)) _ _
    rintro ⟨hpending, hfull⟩
    simp [hpending, hfull] at hroom

theorem execBsReadBit_keepsInv {s : State} (h : s.Inv) (S : Nat) : KeepsInv (execBsReadBit S s) :=
  guarded_keepsInv h (by simp [Checks.Errors, hostSlot]) fun hpass => by
    obtain ⟨hin, hpass⟩ := firstFailure_pass hpass
    obtain ⟨ho, hpass⟩ := hostSlot_pass hpass
    obtain ⟨hreading, -⟩ := firstFailure_pass hpass
    have hS := inside_of_check hin
    obtain ⟨hm, hn⟩ := unread_of_reading (h.slots _ (slot_mem hS)) (by simpa using hreading)
    exact reply_keepsInv (inv_readBits h hS (by simp [ho]) hm hn) _ _

theorem execBsReadNumber_keepsInv {s : State} (h : s.Inv) (S N : Nat) : KeepsInv (execBsReadNumber S N s) :=
  guarded_keepsInv h (by simp [Checks.Errors, hostSlot]) fun hpass => by
    obtain ⟨hin, hpass⟩ := firstFailure_pass hpass
    obtain ⟨-, hpass⟩ := firstFailure_pass hpass
    obtain ⟨ho, hpass⟩ := hostSlot_pass hpass
    obtain ⟨hmode, hpass⟩ := firstFailure_pass hpass
    obtain ⟨hleft, -⟩ := firstFailure_pass hpass
    have hm := read_of_check hmode
    exact reply_keepsInv (inv_readBits h (inside_of_check hin) (by simp [ho]) hm (unread_of_check hm hleft)) _ _

theorem execBsMerge_keepsInv {s : State} (h : s.Inv) (S T : Nat) : KeepsInv (execBsMerge S T s) :=
  guarded_keepsInv h (by simp [Checks.Errors]) fun hpass => by
    obtain ⟨hinS, hpass⟩ := firstFailure_pass hpass
    obtain ⟨-, hpass⟩ := firstFailure_pass hpass
    obtain ⟨hne, hpass⟩ := firstFailure_pass hpass
    obtain ⟨hfree, hpass⟩ := firstFailure_pass hpass
    obtain ⟨howned, hpass⟩ := firstFailure_pass hpass
    obtain ⟨hmode, hpass⟩ := firstFailure_pass hpass
    obtain ⟨hroom, -⟩ := firstFailure_pass hpass
    obtain ⟨hfreeS, -⟩ := Bool.or_eq_false_iff.mp hfree
    obtain ⟨hownedS, hownedT⟩ := Bool.or_eq_false_iff.mp howned
    obtain ⟨hmS, -⟩ := Bool.or_eq_false_iff.mp hmode
    have hoS : (s.slot S).owner = .host := by cases ho : (s.slot S).owner <;> simp_all
    have hTS : T ≠ S := by rintro rfl; simp at hne
    have happended := inv_append h hinS hoS hmS hroom
    refine reply_keepsInv (inv_setSlot_host happended ?_ (emptySlot_ok _ (by decide)) (by simp)) _ _
    rw [slot_setSlot_ne hTS]
    simpa using hownedT

theorem execBsRewind_keepsInv {s : State} (h : s.Inv) (S : Nat) : KeepsInv (execBsRewind S s) :=
  guarded_keepsInv h (by simp [Checks.Errors, hostSlot]) fun hpass => by
    obtain ⟨hin, hpass⟩ := firstFailure_pass hpass
    obtain ⟨ho, -⟩ := hostSlot_pass hpass
    exact reply_keepsInv (inv_setSlot h S (rewind_ok (h.slots _ (slot_mem (inside_of_check hin))) ho) Iff.rfl) _ _

theorem execBsImport_keepsInv {s : State} (h : s.Inv) (S : Nat) (IN : List Byte) : KeepsInv (execBsImport S IN s) :=
  guarded_keepsInv h (by simp [Checks.Errors, imageChecks]) fun hpass => by
    obtain ⟨-, hpass⟩ := firstFailure_pass hpass
    obtain ⟨howner, hpass⟩ := firstFailure_pass hpass
    obtain ⟨-, hpass⟩ := firstFailure_pass hpass
    obtain ⟨-, hpass⟩ := firstFailure_pass hpass
    obtain ⟨-, hpass⟩ := firstFailure_pass hpass
    obtain ⟨hnibble, hpass⟩ := firstFailure_pass hpass
    obtain ⟨hroom, -⟩ := firstFailure_pass hpass
    have hrange : 1 ≤ imageNibble IN ∧ imageNibble IN ≤ 8 := by
      obtain ⟨hzero, hlarge⟩ : imageNibble IN ≠ 0 ∧ imageNibble IN ≤ 8 := by simpa using hnibble
      omega
    have hfits : withinCapacity s.capacity (IN.drop 1).length = true := by
      rw [List.length_drop]
      simpa using hroom
    exact reply_keepsInv (inv_setSlot_host h (by simpa using howner) (importedSlot_ok hrange.1 hrange.2 hfits)
      (by simp)) _ _

/-! ### The commands of the encoder -/

theorem execEncNew_keepsInv {s : State} (h : s.Inv) (N : Nat) : KeepsInv (execEncNew N s) :=
  guarded_keepsInv h (by simp [Checks.Errors]) fun hpass => by
    obtain ⟨hprecision, -⟩ := firstFailure_pass hpass
    obtain ⟨h1, h32⟩ := precision_of_check hprecision
    exact reply_keepsInv (inv_setEnc h ⟨by simp, fun _ => ⟨h1, h32⟩, by simp, fullInterval_ok h32⟩) _ _

/-- A new interval for an encoder that exists (R38). -/
theorem encInterval_ok {e : EncoderUnit} (h : e.Ok) (hp : e.phase ≠ .uninit) {low high : Word}
    (hi : low.toNat ≤ high.toNat ∧ high.toNat ≤ validMask e.m) : EncoderUnit.Ok { e with low := low, high := high } := by
  obtain ⟨-, hm, -, -⟩ := h
  exact ⟨fun hu => absurd hu hp, hm, hi⟩

theorem execEncEncode_keepsInv {s : State} (h : s.Inv) (S : Nat) (V P : Bool) (A B : Word) :
    KeepsInv (execEncEncode S V P A B s) :=
  guarded_keepsInv h (by simp [Checks.Errors, hostSlot]) fun hpass => by
    obtain ⟨hin, hpass⟩ := firstFailure_pass hpass
    obtain ⟨ho, hpass⟩ := hostSlot_pass hpass
    obtain ⟨hready, hpass⟩ := firstFailure_pass hpass
    obtain ⟨hmode, hpass⟩ := firstFailure_pass hpass
    obtain ⟨hctx, -⟩ := firstFailure_pass hpass
    obtain ⟨-, hAB, -⟩ := contextOK_iff.mp (by simpa using hctx)
    have hready : s.enc.phase = .ready := by simpa using hready
    have hphase : s.enc.phase ≠ .uninit := by simp [hready]
    obtain ⟨-, hm, hord, hmax⟩ := h.enc
    obtain ⟨h1, h32⟩ := hm hphase
    split
    next => exact raiseWord_keepsInv h _ (by decide) 0
    next l1 u1 temp hnarrow =>
      refine guarded_keepsInv h (by simp [Checks.Errors]) fun hpass => ?_
      obtain ⟨hroom, -⟩ := firstFailure_pass hpass
      have hinterval := encInterval_ok h.enc hphase (renorm_narrow_ok h1 h32 hord hmax hAB hnarrow)
      exact reply_keepsInv (inv_setEnc (inv_append h hin ho hmode hroom) hinterval) _ _

theorem execEncClose_keepsInv {s : State} (h : s.Inv) (S : Nat) : KeepsInv (execEncClose S s) :=
  guarded_keepsInv h (by simp [Checks.Errors, hostSlot]) fun hpass => by
    obtain ⟨hin, hpass⟩ := firstFailure_pass hpass
    obtain ⟨ho, hpass⟩ := hostSlot_pass hpass
    obtain ⟨hready, hpass⟩ := firstFailure_pass hpass
    obtain ⟨hmode, hpass⟩ := firstFailure_pass hpass
    obtain ⟨hroom, -⟩ := firstFailure_pass hpass
    have hready : s.enc.phase = .ready := by simpa using hready
    have hphase : s.enc.phase ≠ .uninit := by simp [hready]
    obtain ⟨-, hm, hinterval⟩ := h.enc
    have hclosed : EncoderUnit.Ok { s.enc with phase := .closed } := ⟨by simp, fun _ => hm hphase, hinterval⟩
    exact reply_keepsInv (inv_setEnc (inv_append h hin ho hmode (by rwa [bitsOf_length])) hclosed) _ _

theorem execEncSetState_keepsInv {s : State} (h : s.Inv) (A B : Word) : KeepsInv (execEncSetState A B s) :=
  guarded_keepsInv h (by simp [Checks.Errors]) fun hpass => by
    obtain ⟨hphase, hpass⟩ := firstFailure_pass hpass
    obtain ⟨hinterval, -⟩ := firstFailure_pass hpass
    exact reply_keepsInv
      (inv_setEnc h (encInterval_ok h.enc (by simpa using hphase) (interval_of_check hinterval))) _ _

/-! ### The commands of the decoder -/

/-- A decoder made on a slot of the block with an allowed precision (R150). -/
theorem newDecoder_ok {n S N : Nat} (hS : S < n) (h1 : 1 ≤ N) (h32 : N ≤ 32) :
    DecoderUnit.Ok n
      { phase := .uninit, m := N, low := 0, high := BitVec.ofNat 64 (validMask N), tag := 0, count := 0, slot := S } :=
  ⟨by simp, fun _ => ⟨h1, h32, hS⟩, fun _ => ⟨rfl, rfl⟩, by simp, fullInterval_ok h32, by simp⟩

theorem execDecNew_keepsInv {s : State} (h : s.Inv) (S N : Nat) : KeepsInv (execDecNew S N s) :=
  guarded_keepsInv h (by simp [Checks.Errors, hostSlot]) fun hpass => by
    obtain ⟨hin, hpass⟩ := firstFailure_pass hpass
    obtain ⟨hprecision, hpass⟩ := firstFailure_pass hpass
    obtain ⟨ho, hpass⟩ := hostSlot_pass hpass
    obtain ⟨hmode, -⟩ := firstFailure_pass hpass
    obtain ⟨h1, h32⟩ := precision_of_check hprecision
    have hS := inside_of_check hin
    obtain ⟨-, -, -, hcap, hlen⟩ := effect_dropDecoderStream s
    have hslot := handOver_ok (h.slots _ (slot_mem hS)) (read_of_check hmode)
    rw [slot_dropDecoderStream h ho]
    exact reply_keepsInv (inv_handOver (inv_dropDecoder h) rfl (by simpa [hcap] using hslot) rfl
      (newDecoder_ok (by simpa [hlen] using hS) h1 h32) (by simp) rfl) _ _

/-- New values of a decoder that becomes or stays READY (R36 to R38). -/
theorem readyDecoder_ok {n : Nat} {d : DecoderUnit} (h : d.Ok n) (hp : d.phase ≠ .absent) {low high tag : Word}
    (count : Word) (hi : low.toNat ≤ high.toNat ∧ high.toNat ≤ validMask d.m) (ht : tag.toNat ≤ validMask d.m) :
    DecoderUnit.Ok n { phase := .ready, m := d.m, low := low, high := high, tag := tag, count := count, slot := d.slot } := by
  obtain ⟨-, hm, -⟩ := h
  exact ⟨by simp, fun _ => hm hp, by simp, hi.1, hi.2, ht⟩

/-- A decoder reads bits that are there, and becomes or stays READY on its slot (R151, R153). -/
theorem inv_decoderReads {s : State} (h : s.Inv) (hp : s.dec.phase ≠ .absent) {n : Nat}
    (hleft : decide ((s.slot s.dec.slot).remaining < n) = false) {d : DecoderUnit} (hd : d.Ok s.slots.length)
    (hready : d.phase = .ready) (hslot : d.slot = s.dec.slot) :
    ((s.setSlot s.dec.slot ((s.slot s.dec.slot).readBits n).2).setDec d).Inv := by
  obtain ⟨hin, howner, hm⟩ := decoder_slot h hp
  have hread := inv_readBits h hin (by simp [howner]) hm (unread_of_check hm hleft)
  exact inv_setDec hread (by simpa using hd) (iff_of_true (by simp [hready]) hp) hslot

theorem execDecInit_keepsInv {s : State} (h : s.Inv) : KeepsInv (execDecInit s) :=
  guarded_keepsInv h (by simp [Checks.Errors]) fun hpass => by
    obtain ⟨huninit, hpass⟩ := firstFailure_pass hpass
    obtain ⟨hleft, -⟩ := firstFailure_pass hpass
    have huninit : s.dec.phase = .uninit := by simpa using huninit
    have hphase : s.dec.phase ≠ .absent := by simp [huninit]
    obtain ⟨-, hm, -, hord, hmax, -⟩ := h.dec
    obtain ⟨-, h32, -⟩ := hm hphase
    have htag : num ((s.slot s.dec.slot).readBits s.dec.m).1 < 2 ^ s.dec.m := by
      simpa [readBits_length] using num_lt ((s.slot s.dec.slot).readBits s.dec.m).1
    exact reply_keepsInv (inv_decoderReads h hphase hleft
      (readyDecoder_ok h.dec hphase _ ⟨hord, hmax⟩ (tag_ok h32 htag)) rfl rfl) _ _

theorem execDecDecode_keepsInv {s : State} (h : s.Inv) (P : Bool) (A B : Word) : KeepsInv (execDecDecode P A B s) :=
  guarded_keepsInv h (by simp [Checks.Errors]) fun hpass => by
    obtain ⟨hready, hpass⟩ := firstFailure_pass hpass
    obtain ⟨hctx, -⟩ := firstFailure_pass hpass
    obtain ⟨-, hAB, -⟩ := contextOK_iff.mp (by simpa using hctx)
    have hready : s.dec.phase = .ready := by simpa using hready
    have hphase : s.dec.phase ≠ .absent := by simp [hready]
    obtain ⟨-, hm, -, hord, hmax, -⟩ := h.dec
    obtain ⟨h1, h32, -⟩ := hm hphase
    dsimp only
    split
    next => exact raiseWord_keepsInv h _ (by decide) 0
    next l1 u1 temp hnarrow =>
      refine guarded_keepsInv h (by simp [Checks.Errors]) fun hpass => ?_
      obtain ⟨hleft, -⟩ := firstFailure_pass hpass
      have hread : ((s.slot s.dec.slot).readBits (sharedPrefix l1 u1 s.dec.m)).1.length ≤ s.dec.m := by
        rw [readBits_length]
        exact sharedPrefix_le l1 u1 s.dec.m
      have hunit := readyDecoder_ok h.dec hphase (s.dec.count + 1)
        (renorm_narrow_ok h1 h32 hord hmax hAB hnarrow) (tag_ok h32 (shiftTag_lt s.dec.tag.toNat hread))
      rw [hready]
      exact reply_keepsInv (inv_decoderReads h hphase hleft hunit rfl rfl) _ _

theorem execDecSetState_keepsInv {s : State} (h : s.Inv) (A B : Word) : KeepsInv (execDecSetState A B s) :=
  guarded_keepsInv h (by simp [Checks.Errors]) fun hpass => by
    obtain ⟨hphase, hpass⟩ := firstFailure_pass hpass
    obtain ⟨hinterval, -⟩ := firstFailure_pass hpass
    have hphase : s.dec.phase ≠ .absent := by simpa using hphase
    obtain ⟨hle, hmax⟩ := interval_of_check hinterval
    obtain ⟨-, hm, huninit, -, -, htag⟩ := h.dec
    have hunit : DecoderUnit.Ok s.slots.length { s.dec with low := A, high := B } :=
      ⟨fun ha => absurd ha hphase, hm, huninit, hle, hmax, htag⟩
    exact reply_keepsInv (inv_setDec h hunit Iff.rfl rfl) _ _

/-! ### Every command, and the step -/

/-- Every command keeps the invariant: the queries change nothing, and each of the others has its lemma. -/
theorem exec_keepsInv {s : State} (h : s.Inv) (i : Instr) : KeepsInv (exec i s) := by
  cases i with
  | coreErrinfo => exact reply_keepsInv h _ _
  | bsNew S => exact execBsNew_keepsInv h S
  | bsWriteBit S V => exact execBsWriteBit_keepsInv h S V
  | bsWriteNumber S N A => exact execBsWriteNumber_keepsInv h S N A
  | bsToRead S => exact execBsToRead_keepsInv h S
  | bsReadBit S => exact execBsReadBit_keepsInv h S
  | bsReadNumber S N => exact execBsReadNumber_keepsInv h S N
  | bsMerge S T => exact execBsMerge_keepsInv h S T
  | bsRemaining S => exact query_keepsInv h (by simp [Checks.Errors, hostSlot])
  | bsTotalSize S => exact query_keepsInv h (by simp [Checks.Errors, hostSlot])
  | bsRewind S => exact execBsRewind_keepsInv h S
  | bsExport S => exact query_keepsInv h (by simp [Checks.Errors, hostSlot])
  | bsImport S IN => exact execBsImport_keepsInv h S IN
  | bsInfo S => exact query_keepsInv h (by simp [Checks.Errors])
  | encNew N => exact execEncNew_keepsInv h N
  | encEncode S V P A B => exact execEncEncode_keepsInv h S V P A B
  | encClose S => exact execEncClose_keepsInv h S
  | encGetState => exact query_keepsInv h (by simp [Checks.Errors])
  | encSetState A B => exact execEncSetState_keepsInv h A B
  | encInfo => exact reply_keepsInv h _ _
  | decNew S N => exact execDecNew_keepsInv h S N
  | decInit => exact execDecInit_keepsInv h
  | decDecode P A B => exact execDecDecode_keepsInv h P A B
  | decGetState => exact query_keepsInv h (by simp [Checks.Errors])
  | decSetState A B => exact execDecSetState_keepsInv h A B
  | decStatus => exact query_keepsInv h (by simp [Checks.Errors])
  | decInfo => exact reply_keepsInv h _ _

/-- Serving a request keeps the invariant: an illegal word is an error, and a legal one is a command (R72, R83). -/
theorem serve_keepsInv {s : State} (h : s.Inv) (r : Request) : KeepsInv (serve r s) := by
  cases hdecode : decode r with
  | illegal why =>
    rw [serve_illegal hdecode]
    exact raiseWord_keepsInv h _ (by decide) 0
  | command i =>
    rw [serve_command hdecode]
    exact exec_keepsInv h i

/-- Settles O22: the step idles, resets the block, or serves a request, and each keeps the invariant. -/
theorem stepKeepsInvariant : Obligations.StepKeepsInvariant := by
  intro s t h hstep
  cases hpending : s.pending with
  | nil =>
    rw [step_idle hpending] at hstep
    cases hstep
    exact h
  | cons event rest =>
    have hs := inv_withPending h rest
    cases event with
    | reset =>
      rw [step_reset hpending] at hstep
      cases hstep
      exact applyReset_inv hs
    | request r =>
      rw [step_request hpending] at hstep
      exact serve_keepsInv hs r t hstep

end Sys2Proof.Machine
end

section
/-! PROOFS. The error record and the responses of the run agree after every step (spec/10_state.md rule R40,
spec/60_exceptions.md rule R177, spec/70_reset_and_hazards.md rule R197), and the reset state satisfies the invariants. -/

namespace Sys2Proof.Machine

/-- The count goes up by one and saturates (R177). -/
theorem record_count (err : ErrorRecord) (cw : CommandWord) (e : Status) :
    (err.record cw e).count.toNat = min (err.count.toNat + 1) (2 ^ 32 - 1) := by
  have hlt := err.count.isLt
  simp only [ErrorRecord.record]
  split
  next hfull => simp [hfull]
  next hroom =>
    have hne : err.count.toNat ≠ 2 ^ 32 - 1 := by simpa [← BitVec.toNat_inj] using hroom
    rw [BitVec.toNat_add, show (1 : BitVec 32).toNat = 1 from rfl]
    omega

/-- The code is the first error's (R40, R177). -/
theorem record_code (err : ErrorRecord) (cw : CommandWord) (e : Status) :
    (err.record cw e).code = if err.valid then err.code else e := rfl

/-- No response so far has an error exactly when a search for one finds none. -/
theorem find_error_none {rs : List Response} :
    rs.find? (fun r => r.status ≠ .ok) = none ↔ ∀ r ∈ rs, r.status = .ok := by
  simp

/-- One more response with status OK, and the record as it was. -/
theorem recordAgrees_ok {s t : State} {a : Response} (h : s.RecordAgrees) (herr : t.err = s.err)
    (hresp : t.responses = s.responses ++ [a]) (ha : a.status = .ok) : t.RecordAgrees where
  valid := by
    rw [herr, hresp, h.valid]
    simp [or_imp, forall_and, ha]
  count := by
    rw [herr, hresp, h.count]
    simp [errorCount, ha]
  first r hr := by
    rw [herr]
    refine h.first r ?_
    simpa [hresp, List.find?_append, ha] using hr

/-- One more response with an error, and the record updated by that error (R177). -/
theorem recordAgrees_error {s t : State} {a : Response} {cw : CommandWord} (h : s.RecordAgrees)
    (herr : t.err = s.err.record cw a.status) (hresp : t.responses = s.responses ++ [a]) (ha : a.status ≠ .ok) :
    t.RecordAgrees where
  valid := by
    rw [herr, hresp]
    refine iff_of_false (by simp [ErrorRecord.record]) fun hall => ha (hall a (by simp))
  count := by
    have hcount : errorCount (s.responses ++ [a]) = errorCount s.responses + 1 := by simp [errorCount, ha]
    rw [herr, hresp, record_count, h.count, hcount]
    omega
  first r hr := by
    rw [herr, record_code]
    rw [hresp, List.find?_append] at hr
    cases hfind : s.responses.find? (fun r => r.status ≠ .ok) with
    | none =>
      rw [hfind] at hr
      have hvalid : s.err.valid = false := h.valid.mpr (find_error_none.mp hfind)
      obtain rfl : a = r := by simpa [ha] using hr
      simp [hvalid]
    | some b =>
      rw [hfind] at hr
      have hvalid : s.err.valid = true := by
        by_contra hv
        have hnone := find_error_none.mpr (h.valid.mp (by simpa using hv))
        rw [hfind] at hnone
        cases hnone
      obtain rfl : b = r := by simpa using hr
      simp [hvalid, h.first b hfind]

theorem recordAgrees_withPending {s : State} (h : s.RecordAgrees) (rest : List HostEvent) :
    (s.withPending rest).RecordAgrees :=
  ⟨h.valid, h.count, h.first⟩

/-- The reset state has a clear record and no response (R41). -/
theorem resetWith_recordAgrees (p : Params) : (State.resetWith p).RecordAgrees := by
  constructor <;> simp [State.resetWith, errorCount]

theorem applyReset_recordAgrees (s : State) : (applyReset s).RecordAgrees :=
  recordAgrees_withPending (resetWith_recordAgrees _) s.pending

theorem raiseWord_recordAgrees {s t : State} {cw : CommandWord} {e : Status} {info : Word} (h : s.RecordAgrees)
    (he : e ≠ .ok) (ht : raiseWord cw e info s = .next t) : t.RecordAgrees := by
  cases ht
  exact recordAgrees_error h rfl rfl he

/-- A command raises an error, which it records, or replies with status OK and the record as it was (R175, R177). -/
theorem exec_recordAgrees {s t : State} {i : Instr} (h : s.RecordAgrees) (ht : exec i s = .next t) :
    t.RecordAgrees := by
  rcases exec_raisesOrReplies i s with ⟨e, he, hraise⟩ | ⟨s', r, out, heffect, hreply⟩
  · exact raiseWord_recordAgrees h he (hraise.symm.trans ht)
  · obtain ⟨herr, hresp, -⟩ := heffect
    cases hreply.symm.trans ht
    exact recordAgrees_ok h herr (congrArg (· ++ _) hresp) rfl

theorem serve_recordAgrees {s t : State} {r : Request} (h : s.RecordAgrees) (ht : serve r s = .next t) :
    t.RecordAgrees := by
  cases hdecode : decode r with
  | illegal why =>
    rw [serve_illegal hdecode] at ht
    exact raiseWord_recordAgrees h (by decide) ht
  | command i =>
    rw [serve_command hdecode] at ht
    exact exec_recordAgrees h ht

theorem step_recordAgrees {s t : State} (h : s.RecordAgrees) (hstep : step s = .next t) : t.RecordAgrees := by
  cases hpending : s.pending with
  | nil =>
    rw [step_idle hpending] at hstep
    cases hstep
    exact h
  | cons event rest =>
    cases event with
    | reset =>
      rw [step_reset hpending] at hstep
      cases hstep
      exact applyReset_recordAgrees _
    | request r =>
      rw [step_request hpending] at hstep
      exact serve_recordAgrees (recordAgrees_withPending h rest) hstep

/-- Settles O24: the step idles, resets the block, or serves a request, and each keeps the agreement. -/
theorem stepKeepsRecordAgreement : Obligations.StepKeepsRecordAgreement := by
  intro s t h hstep
  have ht := step_recordAgrees h hstep
  exact ⟨ht, ht.valid⟩

/-- Settles O23: the parts of the invariant at the reset state, for every allowed choice of the parameters (log 1). -/
theorem resetSatisfiesInvariants : Obligations.ResetSatisfiesInvariants :=
  ⟨fun p hp => ⟨resetWith_inv hp, resetWith_recordAgrees p⟩,
    resetWith_inv ⟨by decide, by decide, by simp [Config.defaultParams]⟩, resetWith_recordAgrees _⟩

/-- Settles O7: a reset event gives the state of R41 with the block's own parameters. -/
theorem resetSetsEveryField : Obligations.ResetSetsEveryField := by
  intro s rest hpending
  refine ⟨_, step_reset hpending, by simp [applyReset, State.resetWith], fun i _ => ?_, rfl, rfl, rfl⟩
  exact slot_resetWith { numStreams := s.slots.length, capacity := s.capacity } i

end Sys2Proof.Machine
end

section
/-! PROOFS. What a command leaves when it succeeds, said once for all commands, with the streams it used (spec/60_exceptions.md
rules R175 and R179). The claims about single fields and slots follow from it. -/

namespace Sys2Proof.Machine

open Sys2Proof.Claims

/-- The state that a command leaves when it succeeds, before the response is given. -/
def completed (i : Instr) (s : State) : State :=
  match i with
  | .bsNew S => s.setSlot S (emptySlot .host)
  | .bsWriteBit S V => s.setSlot S ((s.slot S).appendBits [V])
  | .bsWriteNumber S N A => s.setSlot S ((s.slot S).appendBits (bitsOf N A.toNat))
  | .bsToRead S => s.setSlot S (s.slot S).padToRead.primeRead
  | .bsReadBit S => s.setSlot S ((s.slot S).readBits 1).2
  | .bsReadNumber S N => s.setSlot S ((s.slot S).readBits N).2
  | .bsMerge S T => (s.setSlot S ((s.slot S).appendBits (s.slot T).wbits)).freeSlot T
  | .bsRewind S => s.setSlot S { s.slot S with cursor := 0 }
  | .bsImport S IN => s.setSlot S (importedSlot (imageNibble IN) (IN.drop 1))
  | .encNew N => s.setEnc { phase := .ready, m := N, low := 0, high := BitVec.ofNat 64 (validMask N) }
  | .encEncode S V P A B =>
    let (l, u, _) := (narrow s.enc.low.toNat s.enc.high.toNat (isMps V P) A.toNat B.toNat).getD (0, 0, 0)
    (s.setSlot S ((s.slot S).appendBits (renorm l u s.enc.m).2.2)).setEnc
      { s.enc with low := BitVec.ofNat 64 (renorm l u s.enc.m).1, high := BitVec.ofNat 64 (renorm l u s.enc.m).2.1 }
  | .encClose S =>
    (s.setSlot S ((s.slot S).appendBits (bitsOf s.enc.m s.enc.low.toNat))).setEnc { s.enc with phase := .closed }
  | .encSetState A B => s.setEnc { s.enc with low := A, high := B }
  | .decNew S N =>
    (s.dropDecoderStream.setSlot S { s.dropDecoderStream.slot S with owner := .decoder }).setDec
      { phase := .uninit, m := N, low := 0, high := BitVec.ofNat 64 (validMask N), tag := 0, count := 0, slot := S }
  | .decInit =>
    (s.setSlot s.dec.slot ((s.slot s.dec.slot).readBits s.dec.m).2).setDec
      { s.dec with phase := .ready, tag := BitVec.ofNat 64 (num ((s.slot s.dec.slot).readBits s.dec.m).1) }
  | .decDecode _ A B =>
    let mps := decide (tagStar s.dec.tag.toNat s.dec.low.toNat s.dec.high.toNat B.toNat < A.toNat)
    let (l, u, _) := (narrow s.dec.low.toNat s.dec.high.toNat mps A.toNat B.toNat).getD (0, 0, 0)
    let rd := (s.slot s.dec.slot).readBits (sharedPrefix l u s.dec.m)
    (s.setSlot s.dec.slot rd.2).setDec
      { s.dec with
        low := BitVec.ofNat 64 (renorm l u s.dec.m).1
        high := BitVec.ofNat 64 (renorm l u s.dec.m).2.1
        tag := BitVec.ofNat 64 (shiftTag s.dec.tag.toNat s.dec.m rd.1)
        count := s.dec.count + 1 }
  | .decSetState A B => s.setDec { s.dec with low := A, high := B }
  | .coreErrinfo | .bsRemaining _ | .bsTotalSize _ | .bsExport _ | .bsInfo _ | .encGetState | .encInfo | .decGetState
  | .decStatus | .decInfo => s

/-- The streams that a command uses are the host's and in the right mode for it (R100, R176). -/
def StreamsUsable (i : Instr) (s : State) : Prop :=
  (∀ S ∈ usedStreams i, (s.slot S).owner = .host) ∧ ¬WrongMode s i

/-- An answer that is a raise of an error, or, with usable streams, a reply from the state that the command leaves. -/
def RaisesOrCompletes (i : Instr) (s : State) (o : Result) : Prop :=
  (∃ e, e ≠ .ok ∧ o = raise i e s) ∨ (StreamsUsable i s ∧ ∃ r out, o = reply (completed i s) r out)

theorem completes {i : Instr} {s : State} {r : Results} {out : List Byte} (h : StreamsUsable i s) :
    RaisesOrCompletes i s (reply (completed i s) r out) := .inr ⟨h, r, out, rfl⟩

theorem guarded_raisesOrCompletes {i : Instr} {s : State} {cs : Checks} {effect : Result} (hc : cs.Errors)
    (he : firstFailure cs = none → RaisesOrCompletes i s effect) : RaisesOrCompletes i s (guarded i s cs effect) := by
  rcases guarded_cases i s cs effect with ⟨e, hf, h⟩ | ⟨hpass, h⟩
  · rw [h]; exact .inl ⟨e, hc _ (firstFailure_some hf), rfl⟩
  · rw [h]; exact he hpass

/-- A command that uses no stream. -/
theorem usable_nil {i : Instr} {s : State} (hu : usedStreams i = []) (hm : ¬WrongMode s i) : StreamsUsable i s :=
  ⟨by simp [hu], hm⟩

/-- When no check fails, `HostSlot` found the host's slot, whatever was checked before it (R100, R178). -/
theorem hostSlot_pass_after {pre cs : Checks} {t : Slot} (h : firstFailure (pre ++ hostSlot t cs) = none) :
    t.owner = .host ∧ firstFailure cs = none := by
  induction pre with
  | nil => exact hostSlot_pass h
  | cons c pre ih => exact ih (firstFailure_pass h).2

/-- A guarded command that uses one stream: what is left to say is that the checks after `HostSlot` look at the mode. -/
theorem hostStream_completes {i : Instr} {s : State} {S : Nat} {cs : Checks} {effect : Result} (pre : Checks)
    (hu : usedStreams i = [S]) (hc : Checks.Errors (pre ++ hostSlot (s.slot S) cs))
    (hm : firstFailure cs = none → ¬WrongMode s i)
    (he : StreamsUsable i s → RaisesOrCompletes i s effect) :
    RaisesOrCompletes i s (guarded i s (pre ++ hostSlot (s.slot S) cs) effect) :=
  guarded_raisesOrCompletes hc fun hpass => by
    obtain ⟨ho, hpass⟩ := hostSlot_pass_after hpass
    exact he ⟨by simp [hu, ho], hm hpass⟩

/-- A passed first check that looks for a mode: the stream is not in that mode (R178). -/
theorem mode_ne_of_pass {t : Slot} {m : Mode} {e : Status} {cs : Checks}
    (h : firstFailure ((decide (t.mode = m), e) :: cs) = none) : ¬t.mode = m :=
  of_decide_eq_false (firstFailure_pass h).1

/-- Every command raises an error, or replies from the state it leaves (R175). -/
theorem exec_raisesOrCompletes (i : Instr) (s : State) : RaisesOrCompletes i s (exec i s) := by
  cases i with
  | coreErrinfo => exact completes (usable_nil rfl id)
  | bsNew S => exact guarded_raisesOrCompletes (by simp [Checks.Errors]) fun _ => completes (usable_nil rfl id)
  | bsWriteBit S V =>
    exact hostStream_completes [_] rfl (by simp [Checks.Errors, hostSlot]) (fun h => mode_ne_of_pass h) completes
  | bsWriteNumber S N A =>
    exact hostStream_completes [_, _] rfl (by simp [Checks.Errors, hostSlot]) (fun h => mode_ne_of_pass h) completes
  | bsToRead S =>
    exact hostStream_completes [_] rfl (by simp [Checks.Errors, hostSlot]) (fun h => mode_ne_of_pass h) completes
  | bsReadBit S => exact hostStream_completes [_] rfl (by simp [Checks.Errors, hostSlot]) (fun _ => id) completes
  | bsReadNumber S N => exact hostStream_completes [_, _] rfl (by simp [Checks.Errors, hostSlot]) (fun _ => id) completes
  | bsMerge S T =>
    refine guarded_raisesOrCompletes (by simp [Checks.Errors]) fun hpass => ?_
    obtain ⟨-, hpass⟩ := firstFailure_pass hpass
    obtain ⟨-, hpass⟩ := firstFailure_pass hpass
    obtain ⟨-, hpass⟩ := firstFailure_pass hpass
    obtain ⟨hfree, hpass⟩ := firstFailure_pass hpass
    obtain ⟨howned, hpass⟩ := firstFailure_pass hpass
    obtain ⟨hmode, -⟩ := firstFailure_pass hpass
    have hhost : ∀ R ∈ [S, T], (s.slot R).owner = .host := by
      intro R hR
      rcases List.mem_pair.mp hR with rfl | rfl <;> cases ho : (s.slot R).owner <;> simp_all
    exact completes ⟨hhost, by simpa [WrongMode] using hmode⟩
  | bsRemaining S => exact hostStream_completes [_] rfl (by simp [Checks.Errors, hostSlot]) (fun _ => id) completes
  | bsTotalSize S => exact hostStream_completes [_] rfl (by simp [Checks.Errors, hostSlot]) (fun _ => id) completes
  | bsRewind S => exact hostStream_completes [_] rfl (by simp [Checks.Errors, hostSlot]) (fun _ => id) completes
  | bsExport S => exact hostStream_completes [_] rfl (by simp [Checks.Errors, hostSlot]) (fun _ => id) completes
  | bsImport S IN =>
    exact guarded_raisesOrCompletes (by simp [Checks.Errors, imageChecks]) fun _ => completes (usable_nil rfl id)
  | bsInfo S => exact guarded_raisesOrCompletes (by simp [Checks.Errors]) fun _ => completes (usable_nil rfl id)
  | encNew N => exact guarded_raisesOrCompletes (by simp [Checks.Errors]) fun _ => completes (usable_nil rfl id)
  | encEncode S V P A B =>
    refine hostStream_completes [_] rfl (by simp [Checks.Errors, hostSlot])
      (fun h => mode_ne_of_pass (firstFailure_pass h).2) fun husable => ?_
    split
    next => exact .inl ⟨.eDomain, by decide, rfl⟩
    next l u temp hnarrow =>
      refine guarded_raisesOrCompletes (by simp [Checks.Errors]) fun _ => .inr ⟨husable, ?_⟩
      simp only [completed, hnarrow, Option.getD_some]
      exact ⟨_, _, rfl⟩
  | encClose S =>
    exact hostStream_completes [_] rfl (by simp [Checks.Errors, hostSlot])
      (fun h => mode_ne_of_pass (firstFailure_pass h).2) completes
  | encGetState => exact guarded_raisesOrCompletes (by simp [Checks.Errors]) fun _ => completes (usable_nil rfl id)
  | encSetState A B => exact guarded_raisesOrCompletes (by simp [Checks.Errors]) fun _ => completes (usable_nil rfl id)
  | encInfo => exact completes (usable_nil rfl id)
  | decNew S N =>
    exact hostStream_completes [_, _] rfl (by simp [Checks.Errors, hostSlot]) (fun h => mode_ne_of_pass h) completes
  | decInit => exact guarded_raisesOrCompletes (by simp [Checks.Errors]) fun _ => completes (usable_nil rfl id)
  | decDecode P A B =>
    refine guarded_raisesOrCompletes (by simp [Checks.Errors]) fun _ => ?_
    dsimp only
    split
    next => exact .inl ⟨.eDomain, by decide, rfl⟩
    next l u temp hnarrow =>
      refine guarded_raisesOrCompletes (by simp [Checks.Errors]) fun _ => .inr ⟨usable_nil rfl id, ?_⟩
      simp only [completed, hnarrow, Option.getD_some]
      exact ⟨_, _, rfl⟩
  | decGetState => exact guarded_raisesOrCompletes (by simp [Checks.Errors]) fun _ => completes (usable_nil rfl id)
  | decSetState A B => exact guarded_raisesOrCompletes (by simp [Checks.Errors]) fun _ => completes (usable_nil rfl id)
  | decStatus => exact guarded_raisesOrCompletes (by simp [Checks.Errors]) fun _ => completes (usable_nil rfl id)
  | decInfo => exact completes (usable_nil rfl id)

/-- The slots and the units of two states are the same. -/
def SameBlock (s t : State) : Prop := t.slots = s.slots ∧ t.enc = s.enc ∧ t.dec = s.dec

/-- What an executed command can do to the slots and the units: nothing, or what it does when it succeeds. -/
theorem exec_cases {i : Instr} {s t : State} (h : exec i s = .next t) :
    SameBlock s t ∨ (StreamsUsable i s ∧ SameBlock (completed i s) t) := by
  rcases exec_raisesOrCompletes i s with ⟨e, -, hraise⟩ | ⟨husable, r, out, hreply⟩
  · cases hraise.symm.trans h
    exact .inl ⟨rfl, rfl, rfl⟩
  · cases hreply.symm.trans h
    exact .inr ⟨husable, rfl, rfl, rfl⟩

/-- The same by the status of the answer (R175, R179). -/
theorem answers_cases {i : Instr} {s t : State} {a : Response} (h : Answers i s t a) :
    (a.status ≠ .ok ∧ SameBlock s t) ∨ (a.status = .ok ∧ StreamsUsable i s ∧ SameBlock (completed i s) t) := by
  obtain ⟨hexec, hresp⟩ := h
  rcases exec_raisesOrCompletes i s with ⟨e, he, hraise⟩ | ⟨husable, r, out, hreply⟩
  · cases hraise.symm.trans hexec
    obtain rfl := List.singleton_inj.mp (List.append_inj_right' hresp rfl)
    exact .inl ⟨he, rfl, rfl, rfl⟩
  · cases hreply.symm.trans hexec
    obtain rfl := List.singleton_inj.mp (List.append_inj_right' hresp rfl)
    exact .inr ⟨rfl, husable, rfl, rfl, rfl⟩

end Sys2Proof.Machine
end

section
/-! PROOFS. What the commands change of a slot's fields and of the symbol counter (spec/10_state.md rules R23, R31 and R36,
spec/40_bitstream.md rules R101, R104 and R114). -/

namespace Sys2Proof.Machine

open Sys2Proof.Claims

/-! ### A slot after a write, field by field -/

/-- States with the same slots read the same slot at every index. -/
theorem slot_congr {s t : State} (h : t.slots = s.slots) (j : Nat) : t.slot j = s.slot j := by
  simp only [State.slot, h]

/-- Reading any slot after writing one: it is as before, or it is the one written. -/
theorem slot_setSlot_cases (s : State) (i : Nat) (u : Slot) (j : Nat) :
    (s.setSlot i u).slot j = s.slot j ∨ (j = i ∧ (s.setSlot i u).slot j = u) := by
  by_cases hj : j = i
  · subst hj
    by_cases hin : j < s.slots.length
    · exact .inr ⟨rfl, slot_setSlot_same hin u⟩
    · rw [slot_outside (s := s.setSlot j u) (by simpa using hin), slot_outside (by simpa using hin)]
      exact .inl rfl
  · exact .inl (slot_setSlot_ne hj u)

/-- A field that the written slot has as the slot before is as before in every slot. -/
theorem field_setSlot {α : Type} (field : Slot → α) {s : State} {i : Nat} {u : Slot} (h : field u = field (s.slot i))
    (j : Nat) : field ((s.setSlot i u).slot j) = field (s.slot j) := by
  rcases slot_setSlot_cases s i u j with hold | ⟨rfl, hnew⟩
  · rw [hold]
  · rw [hnew, h]

/-! ### Reading and rewinding -/

/-- All but the read fields of a slot is as before (R26). -/
def ReadFieldsOnly (t u : Slot) : Prop :=
  u.owner = t.owner ∧ u.mode = t.mode ∧ u.buf = t.buf ∧ u.wrAcc = t.wrAcc ∧ u.wrCnt = t.wrCnt ∧ u.lastValid = t.lastValid

theorem readFieldsOnly_shiftOut (t : Slot) : ReadFieldsOnly t t.shiftOut := by
  unfold Slot.shiftOut
  split
  · split <;> exact ⟨rfl, rfl, rfl, rfl, rfl, rfl⟩
  · exact ⟨rfl, rfl, rfl, rfl, rfl, rfl⟩

/-- `ReadBits` changes the read fields only, however many bits are asked for (R104). -/
theorem readFieldsOnly_readBits (n : Nat) (t : Slot) : ReadFieldsOnly t (t.readBits n).2 := by
  induction n generalizing t with
  | zero => exact ⟨rfl, rfl, rfl, rfl, rfl, rfl⟩
  | succ n ih =>
    obtain ⟨howner, hmode, hbuf, hacc, hcnt, hlast⟩ := readFieldsOnly_shiftOut t
    obtain ⟨howner', hmode', hbuf', hacc', hcnt', hlast'⟩ := ih t.shiftOut
    exact ⟨howner'.trans howner, hmode'.trans hmode, hbuf'.trans hbuf, hacc'.trans hacc, hcnt'.trans hcnt,
      hlast'.trans hlast⟩

/-- The size of a stream does not depend on the read fields (R31). -/
theorem totalSize_of_readFieldsOnly {t u : Slot} (h : ReadFieldsOnly t u) : u.totalSize = t.totalSize := by
  obtain ⟨-, hmode, hbuf, -, hcnt, hlast⟩ := h
  simp only [Slot.totalSize, hmode, hbuf, hcnt, hlast]

/-- A command that reads or rewinds writes its slot, and of it the read fields only. -/
theorem completed_readTarget {i : Instr} {s : State} {S : Nat} (h : readTarget s i = some S) :
    ∃ u, ReadFieldsOnly (s.slot S) u ∧ (completed i s).slots = (s.setSlot S u).slots := by
  cases i with
  | bsReadBit => cases h; exact ⟨_, readFieldsOnly_readBits _ _, rfl⟩
  | bsReadNumber => cases h; exact ⟨_, readFieldsOnly_readBits _ _, rfl⟩
  | bsRewind => cases h; exact ⟨{ s.slot S with cursor := 0 }, ⟨rfl, rfl, rfl, rfl, rfl, rfl⟩, rfl⟩
  | decInit => cases h; exact ⟨_, readFieldsOnly_readBits _ _, rfl⟩
  | decDecode => cases h; exact ⟨_, readFieldsOnly_readBits _ _, rfl⟩
  | _ => cases h

/-- Whether it succeeds or not, such a command leaves the slots as a write of the read fields of its slot does. -/
theorem exec_readTarget {i : Instr} {s t : State} {S : Nat} (h : readTarget s i = some S) (hexec : exec i s = .next t) :
    ∃ u, ReadFieldsOnly (s.slot S) u ∧ ∀ j, t.slot j = (s.setSlot S u).slot j := by
  rcases exec_cases hexec with ⟨hslots, -⟩ | ⟨-, hslots, -⟩
  · have hself : ReadFieldsOnly (s.slot S) (s.slot S) := ⟨rfl, rfl, rfl, rfl, rfl, rfl⟩
    exact ⟨_, hself, fun j => (slot_congr hslots j).trans (field_setSlot id rfl j).symm⟩
  · obtain ⟨u, hu, hwrite⟩ := completed_readTarget h
    exact ⟨u, hu, slot_congr (hslots.trans hwrite)⟩

/-- Settles O19: every field but the read fields is as before in every slot, and the other slots are as before. -/
theorem readingCommandsFrame : Obligations.ReadingCommandsFrame := by
  intro i s t S htarget hexec
  obtain ⟨u, hu, hslot⟩ := exec_readTarget htarget hexec
  have hsize := totalSize_of_readFieldsOnly hu
  obtain ⟨howner, hmode, hbuf, hacc, hcnt, hlast⟩ := hu
  simp only [State.memRead, hslot]
  exact ⟨fun j k => congrArg (·[k]?) (field_setSlot Slot.buf hbuf j), fun j hj => slot_setSlot_ne hj u,
    field_setSlot Slot.owner howner S, field_setSlot Slot.mode hmode S, field_setSlot Slot.wrAcc hacc S,
    field_setSlot Slot.wrCnt hcnt S, field_setSlot Slot.lastValid hlast S, field_setSlot Slot.totalSize hsize S⟩

/-! ### The mode -/

@[simp] theorem appendBit_mode (t : Slot) (b : Bool) : (t.appendBit b).mode = t.mode := by
  unfold Slot.appendBit
  dsimp only
  split <;> rfl

@[simp] theorem appendBits_mode (t : Slot) (q : List Bool) : (t.appendBits q).mode = t.mode := by
  induction q generalizing t with
  | nil => rfl
  | cons b q ih => exact (ih (t.appendBit b)).trans (appendBit_mode t b)

@[simp] theorem readBits_mode (n : Nat) (t : Slot) : (t.readBits n).2.mode = t.mode := (readFieldsOnly_readBits n t).2.1

@[simp] theorem primeRead_mode (t : Slot) : t.primeRead.mode = t.mode := by
  unfold Slot.primeRead
  split <;> rfl

@[simp] theorem padToRead_mode (t : Slot) : t.padToRead.mode = .read := by
  unfold Slot.padToRead
  split <;> rfl

@[simp] theorem importedSlot_mode (nv : Nat) (body : List Byte) : (importedSlot nv body).mode = .read := by
  simp [importedSlot]

/-- A slot in READ mode stays in READ mode when a slot is written whose new mode is READ if its old one was. -/
theorem setSlot_keeps_read {s : State} {i j : Nat} {u : Slot} (hu : (s.slot i).mode = .read → u.mode = .read)
    (h : (s.slot j).mode = .read) : ((s.setSlot i u).slot j).mode = .read := by
  rcases slot_setSlot_cases s i u j with hold | ⟨rfl, hnew⟩
  · rw [hold, h]
  · rw [hnew, hu h]

/-- No command but BS_NEW and DEC_NEW takes a slot out of READ mode: the slots it writes keep their mode, or pass to READ, or,
as the freed slot of BS_MERGE, were in WRITE mode (R23). -/
theorem completed_keeps_read {i : Instr} {s : State} (hi : StreamsUsable i s) (hnew : ∀ S, i ≠ .bsNew S)
    (hdec : ∀ S N, i ≠ .decNew S N) {j : Nat} (h : (s.slot j).mode = .read) : ((completed i s).slot j).mode = .read := by
  cases i with
  | bsNew S => exact absurd rfl (hnew S)
  | decNew S N => exact absurd rfl (hdec S N)
  | bsWriteBit S V => exact setSlot_keeps_read (by simp) h
  | bsWriteNumber S N A => exact setSlot_keeps_read (by simp) h
  | bsToRead S => exact setSlot_keeps_read (by simp) h
  | bsReadBit S => exact setSlot_keeps_read (by simp) h
  | bsReadNumber S N => exact setSlot_keeps_read (by simp) h
  | bsMerge S T =>
    obtain ⟨-, hmode⟩ := hi
    have hT : (s.slot T).mode ≠ .read := fun hT => hmode (.inr hT)
    refine setSlot_keeps_read (fun hread => absurd ?_ hT) (setSlot_keeps_read (by simp) h)
    rwa [field_setSlot Slot.mode (by simp)] at hread
  | bsRewind S => exact setSlot_keeps_read id h
  | bsImport S IN => exact setSlot_keeps_read (by simp) h
  | encEncode S V P A B => exact setSlot_keeps_read (s := s) (by simp) h
  | encClose S => exact setSlot_keeps_read (s := s) (by simp) h
  | decInit => exact setSlot_keeps_read (s := s) (by simp) h
  | decDecode P A B => exact setSlot_keeps_read (s := s) (by simp) h
  | _ => exact h

/-- DEC_NEW takes a slot out of READ mode only by dropping the stream of the decoder it replaces (R101, R150). -/
theorem decNew_leaves_read {s : State} (h : s.Inv) {S N : Nat} (hi : StreamsUsable (.decNew S N) s) {j : Nat}
    (hread : (s.slot j).mode = .read) (hwrite : ((completed (.decNew S N) s).slot j).mode = .write) :
    s.dec.slot = j ∧ (completed (.decNew S N) s).slot j = emptySlot .free := by
  obtain ⟨howner, -⟩ := hi
  have hS : (s.slot S).owner = .host := howner S (by simp [usedStreams, namedSlots])
  have hdrop : (s.dropDecoderStream.slot j).mode = .write := by
    rw [← hwrite]
    exact (field_setSlot (s := s.dropDecoderStream) (i := S) (u := { s.dropDecoderStream.slot S with owner := .decoder })
      Slot.mode rfl j).symm
  by_cases habsent : s.dec.phase = .absent
  · simp [State.dropDecoderStream, habsent, hread] at hdrop
  · obtain ⟨hin, hdec, -⟩ := decoder_slot h habsent
    have hj : j = s.dec.slot := by
      by_contra hj
      simp [State.dropDecoderStream, habsent, slot_freeSlot_ne hj, hread] at hdrop
    have hjS : j ≠ S := by
      rintro rfl
      rw [hj, hdec] at hS
      cases hS
    subst hj
    refine ⟨rfl, (slot_setSlot_ne hjS _).trans ?_⟩
    simp [State.dropDecoderStream, habsent, slot_freeSlot_same hin]

/-- Settles O20: BS_NEW and DEC_NEW replace the whole slot, and every other command keeps READ mode. -/
theorem readModeIsLeftOnlyByReplacement : Obligations.ReadModeIsLeftOnlyByReplacement := by
  intro i s t j hinv hexec hread hwrite
  rcases exec_cases hexec with ⟨hslots, -⟩ | ⟨husable, hslots, -⟩
  · rw [slot_congr hslots, hread] at hwrite
    cases hwrite
  · rw [slot_congr hslots] at hwrite ⊢
    by_cases hnew : ∃ S, i = .bsNew S
    · obtain ⟨S, rfl⟩ := hnew
      rcases slot_setSlot_cases s S (emptySlot .host) j with hold | ⟨rfl, hnew⟩
      · rw [show (completed (.bsNew S) s).slot j = s.slot j from hold, hread] at hwrite
        cases hwrite
      · exact .inl ⟨rfl, hnew⟩
    · by_cases hdec : ∃ S N, i = .decNew S N
      · obtain ⟨S, N, rfl⟩ := hdec
        exact .inr ⟨⟨S, N, rfl⟩, decNew_leaves_read hinv husable hread hwrite⟩
      · rw [completed_keeps_read husable (by simpa using hnew) (by simpa using hdec) hread] at hwrite
        cases hwrite

/-! ### The symbol counter -/

/-- The symbol counter after a command that succeeds (R36, R184). -/
theorem completed_count (i : Instr) (s : State) :
    (completed i s).dec.count =
      match i with
      | .decNew _ _ => 0
      | .decDecode _ _ _ => s.dec.count + 1
      | _ => s.dec.count := by
  cases i <;> rfl

/-- Settles O21: by the status of the answer and, when it is OK, by the command. -/
theorem symbolCounterCountsDecodes : Obligations.SymbolCounterCountsDecodes := by
  intro i s t a hanswer
  rcases answers_cases hanswer with ⟨hstatus, -, -, hdec⟩ | ⟨hstatus, -, -, -, hdec⟩
  · exact ⟨fun _ hok => absurd hok hstatus, fun _ hok => absurd hok hstatus, fun _ => by rw [hdec]⟩
  · rw [hdec, completed_count]
    refine ⟨?_, ?_, ?_⟩
    · rintro ⟨S, N, rfl⟩ -
      rfl
    · rintro ⟨P, A, B, rfl⟩ -
      exact BitVec.toNat_add _ _
    · rintro (hfail | ⟨hnew, hdecode⟩)
      · exact absurd hstatus hfail
      · split
        next S N => exact absurd rfl (hnew S N)
        next P A B => exact absurd rfl (hdecode P A B)
        next => rfl

end Sys2Proof.Machine
end

section
/-! PROOFS. The completion of the commands that return counts or access the units (spec/10_state.md rules R30, R31 and R35,
spec/40_bitstream.md rules R112 and R113, spec/41_encoder.md rules R137 to R139, spec/42_decoder.md rules R154 to R157). -/

namespace Sys2Proof.Machine

open Sys2Proof.Claims

/-- A command that replies from the state it was given answers OK and changes nothing else. -/
theorem answers_query {i : Instr} {s : State} {r : Results} {out : List Byte} (h : exec i s = reply s r out) :
    ∃ t, Answers i s t (okWith r out) ∧ KeepsUnits s t ∧ t.slots = s.slots :=
  ⟨_, ⟨h, rfl⟩, ⟨rfl, rfl, rfl, rfl, rfl, rfl⟩, rfl⟩

/-! ### The counts of a stream -/

/-- `HostSlot` passes on the host's slot (R76, R100). -/
theorem hostStream_passes {s : State} {S : Nat} (h : HostMayUse s S) :
    firstFailure ((noSuchSlot s S, .eParam) :: hostSlot (s.slot S) []) = none := by
  obtain ⟨hin, hhost⟩ := h
  simp [firstFailure, noSuchSlot, hostSlot, hin, hhost]

/-- A stream that is not READING has no unread bit (R30). -/
theorem remaining_of_not_reading {t : Slot} (h : t.progress ≠ .reading) : t.remaining = 0 := by
  cases hm : t.mode with
  | write => simp [Slot.remaining, hm]
  | read =>
    cases hp : t.progress with
    | reading => exact absurd hp h
    | notStarted => simp [Slot.remaining, Slot.rbits, hm, hp]
    | finished => simp [Slot.remaining, Slot.rbits, hm, hp]

/-- The unread bits of a legal stream that is READING: those of the active byte and of the bytes after it (R30). -/
theorem remaining_of_reading {cap : Option Nat} {t : Slot} (h : t.Ok cap) (hp : t.progress = .reading) :
    t.remaining = t.rdLeft + (if t.cursor + 1 = t.buf.length then 0
      else 8 * (t.buf.length - t.cursor - 2) + t.lastValid) := by
  obtain ⟨hm, -⟩ := unread_of_reading h hp
  obtain ⟨-, -, ⟨-, hlast, -, -, hreading, -⟩, -, -⟩ := h
  obtain ⟨-, hleft, hcursor⟩ := hreading hp
  have hrest := bitsFrom_length t hlast (t.cursor + 1) hcursor
  have hbytes : t.buf.length - (t.cursor + 1) - 1 = t.buf.length - t.cursor - 2 := by omega
  simp only [Slot.remaining, Slot.rbits, hm, hp, List.length_append, topBits_length, Nat.min_eq_left hleft, hrest,
    hbytes]

/-- The size of a legal stream is the number of its bits (R31). -/
theorem totalSize_eq_allBits {cap : Option Nat} {t : Slot} (h : t.Ok cap) : t.totalSize = (allBits t).length := by
  obtain ⟨-, -, ⟨-, hlast, -⟩, -, -⟩ := h
  cases hm : t.mode with
  | write => simp only [Slot.totalSize, allBits, hm, wbits_length]
  | read =>
    simp only [Slot.totalSize, allBits, hm, bitsFrom_length t hlast 0 (Nat.zero_le _), Nat.sub_zero,
      eq_comm (a := 0)]

/-- Settles O31: both queries pass `HostSlot`, and their counts are those of the stream's bits (log 5). -/
theorem countsOfAStream : Obligations.CountsOfAStream := by
  intro s S hhost hok
  constructor
  · obtain ⟨t, hanswer, hunits, hslots⟩ := answers_query (i := .bsRemaining S) (guarded_pass (hostStream_passes hhost))
    refine ⟨t, _, hanswer, hunits, hslots, fun hp => ?_, fun n hp hn hlt => ?_⟩
    · rw [remaining_of_not_reading hp]
      rfl
    · rw [← remaining_of_reading hok hp] at hn
      rw [← hn, resultWord_toNat hlt]
  · obtain ⟨t, hanswer, hunits, hslots⟩ := answers_query (i := .bsTotalSize S) (guarded_pass (hostStream_passes hhost))
    refine ⟨t, _, hanswer, hunits, hslots, fun hlt => ?_⟩
    rw [totalSize_eq_allBits hok, resultWord_toNat hlt]

/-! ### The state of the units -/

theorem two_pow_lt_word {m : Nat} (h : m ≤ 32) : 2 ^ m < 2 ^ 64 := Nat.pow_lt_pow_right (by decide) (by omega)

/-- The masks as numbers (R35). -/
theorem msbMask_eq (m : Nat) : msbMask m = if m = 0 then 0 else 2 ^ (m - 1) := by
  simp [msbMask, Nat.shiftLeft_eq]

/-- The precision and its masks as result words (R35, R77). -/
theorem precisionWords {m : Nat} (h : m ≤ 32) :
    (resultWord m).toNat = m ∧ (resultWord (msbMask m)).toNat = (if m = 0 then 0 else 2 ^ (m - 1)) ∧
    (resultWord (validMask m)).toNat = 2 ^ m - 1 := by
  have hpow := two_pow_lt_word h
  have hhalf : 2 ^ (m - 1) < 2 ^ 64 := two_pow_lt_word (by omega)
  refine ⟨resultWord_toNat (by omega), ?_, ?_⟩
  · rw [← msbMask_eq]
    refine resultWord_toNat ?_
    rw [msbMask_eq]
    split <;> omega
  · rw [validMask_eq, resultWord_toNat (by omega)]

/-- A pair that is a legal interval passes the check of the two SET_STATE commands (R138, R155). -/
theorem interval_passes {A B : Word} {m : Nat} (hAB : A.toNat ≤ B.toNat) (hB : B.toNat ≤ 2 ^ m - 1) :
    (!(A.toNat ≤ B.toNat && B.toNat ≤ validMask m)) = false := by
  simp [validMask_eq, hAB, hB]

/-- Settles O40: the checks pass, and the words of ENC_INFO fit. -/
theorem encoderStateAccess : Obligations.EncoderStateAccess := by
  intro s
  refine ⟨fun hphase => ?_, fun A B hphase hAB hB => ?_, fun hm => ?_⟩
  · exact answers_query (i := .encGetState) (guarded_pass (by simp [firstFailure, hphase]))
  · have hcheck := interval_passes hAB hB
    exact ⟨_, ⟨guarded_pass (by simp [firstFailure, hphase, hcheck]), rfl⟩, ⟨rfl, rfl, rfl, rfl, rfl⟩, rfl⟩
  · obtain ⟨hprecision, htop, hvalid⟩ := precisionWords hm
    obtain ⟨t, hanswer, hunits, hslots⟩ := answers_query (i := .encInfo) (s := s) rfl
    refine ⟨t, _, hanswer, hunits, hslots, hprecision, htop, hvalid, resultWord_toNat ?_⟩
    cases s.enc.phase <;> decide

/-- Settles O44: the checks pass, and the words of DEC_STATUS and DEC_INFO fit (log 5). -/
theorem decoderStateAccess : Obligations.DecoderStateAccess := by
  intro s
  refine ⟨fun hphase => ?_, fun A B hphase hAB hB => ?_, fun hphase => ?_, fun hm hslot => ?_⟩
  · exact answers_query (i := .decGetState) (guarded_pass (by simp [firstFailure, hphase]))
  · have hcheck := interval_passes hAB hB
    exact ⟨_, ⟨guarded_pass (by simp [firstFailure, hphase, hcheck]), rfl⟩, ⟨rfl, rfl, rfl, rfl, rfl⟩, rfl⟩
  · obtain ⟨t, hanswer, hunits, hslots⟩ :=
      answers_query (i := .decStatus) (s := s) (guarded_pass (by simp [firstFailure, hphase]))
    exact ⟨t, _, hanswer, hunits, hslots, resultWord_toNat⟩
  · obtain ⟨hprecision, htop, hvalid⟩ := precisionWords hm
    obtain ⟨t, hanswer, hunits, hslots⟩ := answers_query (i := .decInfo) (s := s) rfl
    refine ⟨t, _, hanswer, hunits, hslots, hprecision, htop, hvalid, resultWord_toNat ?_, rfl,
      resultWord_toNat (by omega)⟩
    cases s.dec.phase <;> decide

end Sys2Proof.Machine
end

section
/-! PROOFS. The decoder's stream is out of the host's reach (spec/10_state.md rule R32, spec/20_memory.md rule R60): a host
command is run side by side on two states that differ in a slot the decoder owns. -/

namespace Sys2Proof.Machine

open Sys2Proof.Claims

/-- Two answers, the second from the state with `u` in slot `j`: they differ in slot `j` only, which neither changes. -/
def OutOfReach (j : Nat) (u : Slot) (s : State) (o o' : Result) : Prop :=
  ∃ t, o = .next t ∧ t.slot j = s.slot j ∧ o' = .next (t.setSlot j u)

section TwoRuns
variable {i : Instr} {s : State} {j : Nat} {u : Slot}

theorem raise_outOfReach (e : Status) : OutOfReach j u s (raise i e s) (raise i e (s.setSlot j u)) :=
  ⟨_, rfl, rfl, rfl⟩

/-- A reply that changes no slot. -/
theorem reply_outOfReach {s' : State} {r : Results} {out : List Byte} (h : s'.slots = s.slots) :
    OutOfReach j u s (reply s' r out) (reply (s'.setSlot j u) r out) :=
  ⟨_, rfl, slot_congr h j, rfl⟩

theorem setSlot_setSlot_comm {S : Nat} (h : S ≠ j) (x : Slot) :
    (s.setSlot j u).setSlot S x = (s.setSlot S x).setSlot j u := by
  simp only [State.setSlot, List.set_comm u x (Ne.symm h)]

/-- A reply that writes another slot. -/
theorem write_outOfReach {S : Nat} {x : Slot} {r : Results} {out : List Byte} (h : S ≠ j) :
    OutOfReach j u s (reply (s.setSlot S x) r out) (reply ((s.setSlot j u).setSlot S x) r out) := by
  rw [setSlot_setSlot_comm h]
  exact ⟨_, rfl, slot_setSlot_ne (Ne.symm h) x, rfl⟩

/-- A reply that writes another slot and the encoder. -/
theorem writeEnc_outOfReach {S : Nat} {x : Slot} {e : EncoderUnit} {r : Results} {out : List Byte} (h : S ≠ j) :
    OutOfReach j u s (reply ((s.setSlot S x).setEnc e) r out) (reply (((s.setSlot j u).setSlot S x).setEnc e) r out) := by
  rw [setSlot_setSlot_comm h]
  exact ⟨_, rfl, slot_setSlot_ne (Ne.symm h) x, rfl⟩

/-- Checks that pass leave the failure to the checks after them (R178). -/
theorem firstFailure_append (pre cs : Checks) : firstFailure (pre ++ cs) = (firstFailure pre).or (firstFailure cs) := by
  induction pre with
  | nil => rfl
  | cons c pre ih =>
    obtain ⟨failing, e⟩ := c
    cases failing <;> simp [firstFailure, ih]

/-- A guarded command whose first checks are the same on both sides, and what comes after them too when they pass. -/
theorem guarded_outOfReach {effect effect' : Result} (pre : Checks) {cs cs' : Checks}
    (h : firstFailure pre = none → firstFailure cs' = firstFailure cs ∧ OutOfReach j u s effect effect') :
    OutOfReach j u s (guarded i s (pre ++ cs) effect) (guarded i (s.setSlot j u) (pre ++ cs') effect') := by
  simp only [guarded, firstFailure_append]
  cases hpre : firstFailure pre with
  | some e => exact raise_outOfReach e
  | none =>
    obtain ⟨hcs, heffect⟩ := h hpre
    rw [hcs]
    cases firstFailure cs with
    | some e => exact raise_outOfReach e
    | none => exact heffect

/-- A guarded command that looks at no slot and changes none. -/
theorem slotless_outOfReach {cs : Checks} {s' : State} {r : Results} {out : List Byte} (h : s'.slots = s.slots) :
    OutOfReach j u s (guarded i s cs (reply s' r out)) (guarded i (s.setSlot j u) cs (reply (s'.setSlot j u) r out)) :=
  guarded_outOfReach [] fun _ => ⟨rfl, reply_outOfReach h⟩

/-- The range check does not look into the slots. -/
theorem noSuchSlot_setSlot (S : Nat) : noSuchSlot (s.setSlot j u) S = noSuchSlot s S := by
  simp [noSuchSlot]

variable (hj : (s.slot j).owner = .decoder) (hu : u.owner = .decoder)
include hj hu

/-- Both runs see the same owners. -/
theorem owner_setSlot (S : Nat) : ((s.setSlot j u).slot S).owner = (s.slot S).owner :=
  field_setSlot Slot.owner (hu.trans hj.symm) S

/-- `HostSlot` stops a command on the decoder's slot on both sides, so what comes after it is on another slot (R100). -/
theorem hostStream_outOfReach {S : Nat} {rest rest' : Checks} {effect effect' : Result} (pre : Checks)
    (h : S ≠ j → firstFailure rest' = firstFailure rest ∧ OutOfReach j u s effect effect') :
    OutOfReach j u s
      (guarded i s ((noSuchSlot s S, .eParam) :: (pre ++ hostSlot (s.slot S) rest)) effect)
      (guarded i (s.setSlot j u)
        ((noSuchSlot (s.setSlot j u) S, .eParam) :: (pre ++ hostSlot ((s.setSlot j u).slot S) rest')) effect') := by
  have split : ∀ cs, (noSuchSlot s S, .eParam) :: (pre ++ hostSlot (s.slot S) cs) =
      ((noSuchSlot s S, .eParam) :: pre ++ hostSlot (s.slot S) []) ++ cs := by
    simp [hostSlot]
  have owners : ∀ cs, hostSlot ((s.setSlot j u).slot S) cs = hostSlot (s.slot S) cs := by
    simp [hostSlot, owner_setSlot hj hu]
  rw [noSuchSlot_setSlot, owners, split, split]
  refine guarded_outOfReach _ fun hpass => h ?_
  rintro rfl
  obtain ⟨howner, -⟩ := hostSlot_pass_after hpass
  rw [hj] at howner
  cases howner

/-- The commands that work on a FREE slot too stop on the decoder's slot on both sides (R105, R116). -/
theorem notTaken_outOfReach {S : Nat} {rest : Checks} {effect effect' : Result}
    (h : S ≠ j → OutOfReach j u s effect effect') :
    OutOfReach j u s
      (guarded i s ((noSuchSlot s S, .eParam) :: (decide ((s.slot S).owner = .decoder), .eOwned) :: rest) effect)
      (guarded i (s.setSlot j u)
        ((noSuchSlot (s.setSlot j u) S, .eParam) :: (decide (((s.setSlot j u).slot S).owner = .decoder), .eOwned) :: rest)
        effect') := by
  rw [noSuchSlot_setSlot, owner_setSlot hj hu]
  refine guarded_outOfReach [_, _] fun hpass => ⟨rfl, h ?_⟩
  rintro rfl
  obtain ⟨howner, -⟩ := firstFailure_pass (firstFailure_pass hpass).2
  exact of_decide_eq_false howner hj

/-- BS_MERGE stops on both sides when one of its two slots is the decoder's (R111). -/
theorem execBsMerge_outOfReach (S T : Nat) : OutOfReach j u s (execBsMerge S T s) (execBsMerge S T (s.setSlot j u)) := by
  simp only [execBsMerge, noSuchSlot_setSlot, owner_setSlot hj hu]
  refine guarded_outOfReach [_, _, _, _, _] fun hpass => ?_
  obtain ⟨-, hpass⟩ := firstFailure_pass hpass
  obtain ⟨-, hpass⟩ := firstFailure_pass hpass
  obtain ⟨-, hpass⟩ := firstFailure_pass hpass
  obtain ⟨-, hpass⟩ := firstFailure_pass hpass
  obtain ⟨howned, -⟩ := firstFailure_pass hpass
  obtain ⟨hownedS, hownedT⟩ := Bool.or_eq_false_iff.mp howned
  have hS : S ≠ j := by rintro rfl; exact of_decide_eq_false hownedS hj
  have hT : T ≠ j := by rintro rfl; exact of_decide_eq_false hownedT hj
  rw [slot_setSlot_ne hS, slot_setSlot_ne hT, setSlot_setSlot_comm hS]
  refine ⟨rfl, ?_⟩
  simp only [State.freeSlot, setSlot_setSlot_comm hT]
  exact ⟨_, rfl, (slot_setSlot_ne (Ne.symm hT) _).trans (slot_setSlot_ne (Ne.symm hS) _), rfl⟩

/-- ENC_ENCODE narrows the interval of the encoder, which is the same on both sides (R135). -/
theorem execEncEncode_outOfReach (S : Nat) (V P : Bool) (A B : Word) :
    OutOfReach j u s (execEncEncode S V P A B s) (execEncEncode S V P A B (s.setSlot j u)) := by
  refine hostStream_outOfReach hj hu [] fun hS => ?_
  rw [slot_setSlot_ne hS]
  refine ⟨rfl, ?_⟩
  simp only [setSlot_enc]
  split
  next => exact raise_outOfReach _
  next => exact guarded_outOfReach [] fun _ => ⟨rfl, writeEnc_outOfReach hS⟩

/-- Every command of the host's but BS_INFO runs on both sides alike: the queries and the encoder's own commands use no
slot, and the others stop on the decoder's slot. -/
theorem exec_outOfReach (hdec : ¬IsDecoderCommand i) (hinfo : ∀ S, i ≠ .bsInfo S) :
    OutOfReach j u s (exec i s) (exec i (s.setSlot j u)) := by
  cases i with
  | coreErrinfo => exact reply_outOfReach rfl
  | bsNew S => exact notTaken_outOfReach hj hu fun hS => write_outOfReach hS
  | bsWriteBit S V =>
    exact hostStream_outOfReach hj hu [] fun hS => by rw [slot_setSlot_ne hS]; exact ⟨rfl, write_outOfReach hS⟩
  | bsWriteNumber S N A =>
    exact hostStream_outOfReach hj hu [_] fun hS => by rw [slot_setSlot_ne hS]; exact ⟨rfl, write_outOfReach hS⟩
  | bsToRead S =>
    exact hostStream_outOfReach hj hu [] fun hS => by rw [slot_setSlot_ne hS]; exact ⟨rfl, write_outOfReach hS⟩
  | bsReadBit S =>
    exact hostStream_outOfReach hj hu [] fun hS => by rw [slot_setSlot_ne hS]; exact ⟨rfl, write_outOfReach hS⟩
  | bsReadNumber S N =>
    exact hostStream_outOfReach hj hu [_] fun hS => by rw [slot_setSlot_ne hS]; exact ⟨rfl, write_outOfReach hS⟩
  | bsMerge S T => exact execBsMerge_outOfReach hj hu S T
  | bsRemaining S =>
    exact hostStream_outOfReach hj hu [] fun hS => by rw [slot_setSlot_ne hS]; exact ⟨rfl, reply_outOfReach rfl⟩
  | bsTotalSize S =>
    exact hostStream_outOfReach hj hu [] fun hS => by rw [slot_setSlot_ne hS]; exact ⟨rfl, reply_outOfReach rfl⟩
  | bsRewind S =>
    exact hostStream_outOfReach hj hu [] fun hS => by rw [slot_setSlot_ne hS]; exact ⟨rfl, write_outOfReach hS⟩
  | bsExport S =>
    exact hostStream_outOfReach hj hu [] fun hS => by rw [slot_setSlot_ne hS]; exact ⟨rfl, reply_outOfReach rfl⟩
  | bsImport S IN => exact notTaken_outOfReach hj hu fun hS => write_outOfReach hS
  | bsInfo S => exact absurd rfl (hinfo S)
  | encNew N => exact slotless_outOfReach rfl
  | encEncode S V P A B => exact execEncEncode_outOfReach hj hu S V P A B
  | encClose S =>
    exact hostStream_outOfReach hj hu [] fun hS => by rw [slot_setSlot_ne hS]; exact ⟨rfl, writeEnc_outOfReach hS⟩
  | encGetState => exact slotless_outOfReach rfl
  | encSetState A B => exact slotless_outOfReach rfl
  | encInfo => exact reply_outOfReach rfl
  | _ => exact absurd trivial hdec

end TwoRuns

/-- Settles O14: the two runs, side by side, for every command of the host's but BS_INFO. -/
theorem hostCommandsDoNotReachTheDecodersStream : Obligations.HostCommandsDoNotReachTheDecodersStream := by
  intro i s t j u hdec hinfo hj hu hexec
  obtain ⟨t', hleft, hslot, hright⟩ := exec_outOfReach hj hu hdec hinfo
  cases hleft.symm.trans hexec
  exact ⟨hslot, hright⟩

end Sys2Proof.Machine
end

section
/-! PROOFS. What the queries keep, and the frame of the commands that append bits to a stream (spec/20_memory.md rules R57 and
R58, spec/40_bitstream.md rule R102, spec/60_exceptions.md rule R187). -/

namespace Sys2Proof.Machine

open Sys2Proof.Claims

/-- No command changes the capacity or takes an event of the host's (R8, R198). -/
theorem exec_keeps_capacity_pending {i : Instr} {s t : State} (h : exec i s = .next t) :
    t.capacity = s.capacity ∧ t.pending = s.pending := by
  rcases exec_raisesOrReplies i s with ⟨e, -, hraise⟩ | ⟨s', r, out, ⟨-, -, hpending, hcapacity, -⟩, hreply⟩
  · cases hraise.symm.trans h
    exact ⟨rfl, rfl⟩
  · cases hreply.symm.trans h
    exact ⟨hcapacity, hpending⟩

/-- A query replies from the state it was given (R58). -/
theorem completed_query {i : Instr} (h : IsQuery i) (s : State) : completed i s = s := by
  cases i with
  | coreErrinfo | bsRemaining | bsTotalSize | bsExport | bsInfo | encGetState | encInfo | decGetState | decStatus
  | decInfo => rfl
  | _ => exact h.elim

/-- Settles O17: a query raises an error or replies from the state it was given. -/
theorem queriesChangeNothing : Obligations.QueriesChangeNothing := by
  intro i s t hquery hexec
  obtain ⟨hslots, henc, hdec⟩ : SameBlock s t := by
    rcases exec_cases hexec with hsame | ⟨-, hsame⟩
    · exact hsame
    · rwa [completed_query hquery] at hsame
  exact ⟨hslots, henc, hdec, exec_keeps_capacity_pending hexec⟩

/-! ### The commands that append -/

/-- The response of a raise carries the error it raises (R175). -/
theorem status_of_raise {i : Instr} {e : Status} {s t : State} {a : Response} (h : raise i e s = .next t)
    (hresp : t.responses = s.responses ++ [a]) : a.status = e := by
  cases h
  rw [← List.singleton_inj.mp (List.append_inj_right' hresp rfl)]

/-- A guarded command that answers OK passed all its checks and had its effect (R175, R178). -/
theorem guarded_of_ok {i : Instr} {s t : State} {a : Response} {cs : Checks} {effect : Result} (hc : cs.Errors)
    (h : guarded i s cs effect = .next t) (hresp : t.responses = s.responses ++ [a]) (hok : a.status = .ok) :
    firstFailure cs = none ∧ effect = .next t := by
  rcases guarded_cases i s cs effect with ⟨e, hfail, hraise⟩ | ⟨hpass, heffect⟩
  · have he := status_of_raise (hraise.symm.trans h) hresp
    exact absurd (he.symm.trans hok) (hc _ (firstFailure_some hfail))
  · exact ⟨hpass, heffect.symm.trans h⟩

/-- BS_MERGE succeeds on two different slots only (R111). -/
theorem merge_slots_ne {s t : State} {S T : Nat} {a : Response} (h : Answers (.bsMerge S T) s t a)
    (hok : a.status = .ok) : T ≠ S := by
  obtain ⟨hexec, hresp⟩ := h
  obtain ⟨hpass, -⟩ := guarded_of_ok (by simp [Checks.Errors]) hexec hresp hok
  rintro rfl
  simp [firstFailure] at hpass

/-- The narrowed interval of the claims is that of `Narrow` (R130). -/
theorem narrowed_of_narrow {low high A B : Word} {mps : Bool} {l u temp : Nat}
    (h : narrow low.toNat high.toNat mps A.toNat B.toNat = some (l, u, temp)) : narrowed low high mps A B = (l, u) := by
  cases mps with
  | false =>
    cases h
    rfl
  | true =>
    simp only [narrow, if_true] at h
    split at h
    next => cases h
    next =>
      cases h
      rfl

/-- ENC_ENCODE succeeds only when its interval narrows, and then shifts out the claims' number of bits (R130, R135). -/
theorem encode_narrows {s t : State} {S : Nat} {V P : Bool} {A B : Word} {a : Response}
    (h : Answers (.encEncode S V P A B) s t a) (hok : a.status = .ok) :
    ∃ l u temp, narrow s.enc.low.toNat s.enc.high.toNat (isMps V P) A.toNat B.toNat = some (l, u, temp) ∧
      encodeShift s.enc V P A B = sharedPrefix l u s.enc.m := by
  obtain ⟨hexec, hresp⟩ := h
  obtain ⟨-, heffect⟩ := guarded_of_ok (by simp [Checks.Errors, hostSlot]) hexec hresp hok
  cases hnarrow : narrow s.enc.low.toNat s.enc.high.toNat (isMps V P) A.toNat B.toNat with
  | none =>
    rw [hnarrow] at heffect
    have he := status_of_raise heffect hresp
    cases he.symm.trans hok
  | some r =>
    obtain ⟨l, u, temp⟩ := r
    exact ⟨l, u, temp, rfl, by rw [encodeShift, show (V == P) = isMps V P from rfl, narrowed_of_narrow hnarrow]⟩

/-- A write of slot `S` keeps the others and their bytes (R50). -/
theorem keepsSlotsBut_of_slots {s t : State} {S : Nat} {u : Slot} (h : t.slots = (s.setSlot S u).slots) :
    KeepsSlotsBut [S] s t := by
  intro j hj
  have hslot : t.slot j = s.slot j := (slot_congr h j).trans (slot_setSlot_ne (by simpa using hj) u)
  exact ⟨hslot, fun k => by simp only [State.memRead, hslot]⟩

/-- A slot with an owner is inside the block (log 7). -/
theorem inside_of_host {s : State} {S : Nat} (h : (s.slot S).owner = .host) : S < s.slots.length := by
  by_contra hout
  rw [slot_outside (Nat.le_of_not_lt hout)] at h
  cases h

/-- The state `t` differs from `s` by `n` bits that slot `S` has more, and in the listed slots only. -/
def AppendsBits (changed : List Nat) (S n : Nat) (s t : State) : Prop :=
  KeepsSlotsBut changed s t ∧ ∃ q : List Bool, q.length = n ∧ t.slot S = (s.slot S).appendBits q

theorem appendsBits_of_slots {s t : State} {S n : Nat} {q : List Bool} (hS : S < s.slots.length) (hq : q.length = n)
    (h : t.slots = (s.setSlot S ((s.slot S).appendBits q)).slots) : AppendsBits [S] S n s t :=
  ⟨keepsSlotsBut_of_slots h, q, hq, (slot_congr h S).trans (slot_setSlot_same hS _)⟩

/-- A command uses the stream that it appends to (R100). -/
theorem appendTarget_used {i : Instr} {S : Nat} (h : appendTarget i = some S) : S ∈ usedStreams i := by
  cases i with
  | bsWriteBit | bsWriteNumber | bsMerge | encEncode | encClose =>
    cases h
    simp [usedStreams, namedSlots]
  | _ => cases h

/-- An appending command that succeeds appends the claims' number of bits (R57, R106, R107, R111, R135, R136). -/
theorem appends_of_ok {i : Instr} {s t : State} {a : Response} {S : Nat} (htarget : appendTarget i = some S)
    (h : Answers i s t a) (hok : a.status = .ok) : AppendsBits (writtenSlots s i) S (bitsAppended s i) s t := by
  rcases answers_cases h with ⟨hfail, -⟩ | ⟨-, ⟨howner, -⟩, hslots, -⟩
  · exact absurd hok hfail
  have hS := inside_of_host (howner S (appendTarget_used htarget))
  cases i with
  | bsWriteBit =>
    cases htarget
    exact appendsBits_of_slots hS rfl hslots
  | bsWriteNumber =>
    cases htarget
    exact appendsBits_of_slots hS (bitsOf_length _ _) hslots
  | bsMerge _ T =>
    cases htarget
    have hTS := merge_slots_ne h hok
    refine ⟨fun j hj => ?_, _, rfl, ?_⟩
    · obtain ⟨hjS, hjT⟩ : j ≠ S ∧ j ≠ T := by simpa [writtenSlots] using hj
      have hslot : t.slot j = s.slot j := by
        rw [slot_congr hslots]
        exact (slot_freeSlot_ne hjT).trans (slot_setSlot_ne hjS _)
      exact ⟨hslot, fun k => by simp only [State.memRead, hslot]⟩
    · rw [slot_congr hslots]
      exact (slot_freeSlot_ne hTS.symm).trans (slot_setSlot_same hS _)
  | encEncode _ V P A B =>
    cases htarget
    obtain ⟨l, u, temp, hnarrow, hshift⟩ := encode_narrows h hok
    simp only [completed, hnarrow, Option.getD_some] at hslots
    exact appendsBits_of_slots hS ((renorm_length l u s.enc.m).trans hshift.symm) hslots
  | encClose =>
    cases htarget
    exact appendsBits_of_slots hS (bitsOf_length _ _) hslots
  | _ => cases htarget

/-- Settles O18: such a command appends bits to its slot, which `AppendBits` does to the buffer and the accumulator only. -/
theorem appendingCommandsFrame : Obligations.AppendingCommandsFrame := by
  intro i s t a S htarget hlegal hanswer hok
  obtain ⟨-, ⟨hcnt, hacc, -⟩, -⟩ := hlegal
  obtain ⟨hothers, q, hq, hslot⟩ := appends_of_ok htarget hanswer hok
  obtain ⟨hlen, hpending⟩ := appendBits_sizes q (s.slot S) hcnt hacc
  obtain ⟨-, -, -, hfields, -, hprefix⟩ := appendBits_spec q (s.slot S) hcnt hacc
  rw [hq] at hlen hpending
  simp only [State.memRead, hslot]
  refine ⟨hothers, fun k hk => ?_, hlen, hpending, ?_⟩
  · obtain ⟨added, hbuf⟩ := hprefix
    rw [← hbuf, List.getElem?_append_left hk]
  · rw [hfields]
    exact ⟨rfl, rfl, rfl, rfl, rfl, rfl, rfl⟩

end Sys2Proof.Machine
end

section
/-! PROOFS. The completion of the commands that write to a stream, switch it to READ mode and read from it (spec/20_memory.md
rules R53, R54 and R59, spec/40_bitstream.md rules R102 to R104 and R106 to R110). -/

namespace Sys2Proof.Machine

open Sys2Proof.Claims

/-- A command that replies from the state with one slot written answers OK, and only that slot changes. -/
theorem answers_write {i : Instr} {s : State} {S : Nat} {u : Slot} {r : Results} {out : List Byte}
    (hS : S < s.slots.length) (h : exec i s = reply (s.setSlot S u) r out) :
    ∃ t, Answers i s t (okWith r out) ∧ KeepsUnits s t ∧ KeepsSlotsBut [S] s t ∧ t.slot S = u :=
  ⟨_, ⟨h, rfl⟩, ⟨rfl, rfl, rfl, rfl, rfl, by simp⟩, keepsSlotsBut_of_slots rfl, slot_setSlot_same hS u⟩

/-- The host's stream passes the checks up to `HostSlot`, so what is left is the checks before and after it (R76, R100). -/
theorem hostStream_passes_with {s : State} {S : Nat} (h : HostMayUse s S) {pre cs : Checks}
    (hpre : firstFailure pre = none) (hcs : firstFailure cs = none) :
    firstFailure ((noSuchSlot s S, .eParam) :: (pre ++ hostSlot (s.slot S) cs)) = none := by
  obtain ⟨hin, hhost⟩ := h
  have hpass : firstFailure (hostSlot (s.slot S) cs) = none := by simp [hostSlot, firstFailure, hhost, hcs]
  simp [firstFailure, firstFailure_append, noSuchSlot, hin, hpre, hpass]

/-- Room in the words of the claims passes the capacity check (R8). -/
theorem withinCapacity_of_room {s : State} {n : Nat} (h : ¬TooManyBytes s n) : withinCapacity s.capacity n = true := by
  by_contra hfull
  exact h (withinCapacity_false.mp (by simpa using hfull))

/-- A width that R74 allows passes its check. -/
theorem width_passes {N : Nat} (h : N ≤ 64) : firstFailure [(badWidth N, .eParam)] = none := by
  simp [firstFailure, badWidth, Config.maxNumberBits, Nat.not_lt.mpr h]

/-! ### Writing -/

/-- A WRITE-mode stream with room for `n` bits passes the last two checks of a write (R59, R106, R107). -/
theorem write_passes {s : State} {S n : Nat} (hm : (s.slot S).mode = .write)
    (hroom : ¬TooManyBytes s ((s.slot S).buf.length + ((s.slot S).wrCnt + n) / 8)) :
    firstFailure [(decide ((s.slot S).mode = .read), .eMode), (!(s.slot S).fits s.capacity n, .eCapacity)] = none := by
  simp [firstFailure, hm, Slot.fits, withinCapacity_of_room hroom]

/-- Settles O27: both commands pass their checks, and `AppendBits` appends to the stream's bits. -/
theorem writesAppendTheirBits : Obligations.WritesAppendTheirBits := by
  intro s S hhost hslot hm
  obtain ⟨-, ⟨hcnt, hacc, -⟩, -⟩ := hslot
  have hbits (q : List Bool) : ((s.slot S).appendBits q).wbits = (s.slot S).wbits ++ q :=
    (appendBits_spec q (s.slot S) hcnt hacc).1
  refine ⟨fun V hroom => ?_, fun N A hN hroom => ?_⟩
  · obtain ⟨t, hanswer, hunits, hothers, ht⟩ := answers_write (i := .bsWriteBit S V) hhost.1
      (guarded_pass (hostStream_passes_with hhost (pre := []) rfl (write_passes hm hroom)))
    exact ⟨t, hanswer, hunits, hothers, by rw [ht, hbits]⟩
  · obtain ⟨t, hanswer, hunits, hothers, ht⟩ := answers_write (i := .bsWriteNumber S N A) hhost.1
      (guarded_pass (hostStream_passes_with hhost (width_passes hN) (write_passes hm hroom)))
    refine ⟨t, hanswer, hunits, hothers, ?_⟩
    rw [ht, hbits, List.drop_left, num_bitsOf]
    exact ⟨by simp, List.prefix_append _ _, rfl⟩

/-! ### Switching to READ mode -/

/-- BS_TO_READ on a stream of whole bytes (R108). -/
theorem padToRead_whole {t : Slot} (h : t.wrCnt = 0) :
    t.padToRead = { t with lastValid := 8, wrAcc := 0, wrCnt := 0, mode := .read } := by
  simp [Slot.padToRead, h]

/-- BS_TO_READ on a stream with pending bits (R54, R108). -/
theorem padToRead_pending {t : Slot} (h : 0 < t.wrCnt) :
    t.padToRead = { t with
      buf := t.buf ++ [t.paddedByte], lastValid := t.wrCnt, wrAcc := 0, wrCnt := 0, mode := .read } := by
  simp [Slot.padToRead, h]

/-- What the padding leaves in the fields that `PrimeRead` looks at or keeps (R54, R108). -/
theorem padToRead_fields {t : Slot} (h : t.wrCnt ≤ 7) :
    1 ≤ t.padToRead.lastValid ∧ t.padToRead.lastValid ≤ 8 ∧ t.padToRead.wrAcc = 0 ∧ t.padToRead.wrCnt = 0 := by
  rcases Nat.eq_zero_or_pos t.wrCnt with hwhole | hpending
  · rw [padToRead_whole hwhole]
    exact ⟨by simp, Nat.le_refl 8, rfl, rfl⟩
  · rw [padToRead_pending hpending]
    exact ⟨hpending, by show t.wrCnt ≤ 8; omega, rfl, rfl⟩

/-- Remaining counts the unread bits of a READ-mode stream (R30). -/
theorem remaining_of_read {t : Slot} (hm : t.mode = .read) : t.remaining = t.rbits.length := by
  simp only [Slot.remaining, hm]

/-- The size of a READ-mode stream is the number of valid bits of its buffer (R31). -/
theorem totalSize_of_read {t : Slot} (hm : t.mode = .read) (h8 : t.lastValid ≤ 8) :
    t.totalSize = (t.bitsFrom 0).length := by
  rw [bitsFrom_length t h8 0 (Nat.zero_le _)]
  simp only [Slot.totalSize, hm, Nat.sub_zero, eq_comm (a := 0)]

/-- A WRITE-mode stream with room for a padded byte, if it needs one, passes the last two checks of BS_TO_READ (R59, R108). -/
theorem toRead_passes {s : State} {S : Nat} (hm : (s.slot S).mode = .write)
    (hroom : ¬(0 < (s.slot S).wrCnt ∧ TooManyBytes s ((s.slot S).buf.length + 1))) :
    firstFailure [(decide ((s.slot S).mode = .read), .eMode),
      (decide ((s.slot S).wrCnt > 0) && !withinCapacity s.capacity ((s.slot S).buf.length + 1), .eCapacity)] = none := by
  rcases Nat.eq_zero_or_pos (s.slot S).wrCnt with hwhole | hpending
  · simp [firstFailure, hm, hwhole]
  · simp [firstFailure, hm, withinCapacity_of_room fun hfull => hroom ⟨hpending, hfull⟩]

/-- Settles O28: the padding keeps the bits, and `PrimeRead` makes all of them unread. -/
theorem toReadKeepsTheBits : Obligations.ToReadKeepsTheBits := by
  intro s S hhost hslot hm hroom
  obtain ⟨t, hanswer, hunits, hothers, ht⟩ := answers_write (i := .bsToRead S) hhost.1
    (guarded_pass (hostStream_passes_with hhost (pre := []) rfl (toRead_passes hm hroom)))
  obtain ⟨-, ⟨hcnt, hacc, -⟩, -⟩ := hslot
  obtain ⟨h1, h8, hpad⟩ := padToRead_fields hcnt
  obtain ⟨hunread, hread, hfields⟩ := primeRead_spec (s.slot S).padToRead h1 h8 hpad
  have hmode : (t.slot S).mode = .read := by simp [ht]
  have howner : (t.slot S).owner = .host := by simp [ht, hhost.2]
  have hbits : (t.slot S).rbits = (s.slot S).wbits := by rw [ht, hunread, padToRead_bits _ hcnt hacc]
  have hsize : (s.slot S).totalSize = (s.slot S).wbits.length := by simp only [Slot.totalSize, hm, wbits_length]
  have hlast : (t.slot S).lastValid = (s.slot S).padToRead.lastValid := by rw [ht, hfields]
  have hbuf : (t.slot S).buf = (s.slot S).padToRead.buf := by rw [ht, hfields]
  have hall : (t.slot S).bitsFrom 0 = (s.slot S).wbits := by
    rw [ht, hfields, ← padToRead_bits _ hcnt hacc]
    rfl
  refine ⟨t, hanswer, hunits, hothers, howner, hmode, hbits, ?_, ?_, ?_, ?_, ?_, fun hwhole => ?_, fun hpending => ?_, ?_⟩
  · rw [hsize, ← hbits, remaining_of_read hmode]
  · rw [hsize, totalSize_of_read hmode (hlast.trans_le h8), hall]
  · rw [ht, hfields, hpad.1]
  · rw [ht, hfields, hpad.2]
  · rw [ht, hfields]
  · rw [hbuf, hlast, padToRead_whole hwhole]
    exact ⟨rfl, rfl⟩
  · rw [hbuf, hlast, padToRead_pending hpending]
    exact ⟨rfl, _, rfl, pad_toNat hcnt hacc⟩
  · rw [← hbits, finished_iff _ hmode (ht ▸ hread)]

/-! ### Reading -/

/-- What a read of bits that are there leaves of a legal stream: the bits after them, and FINISHED with none left (R104). -/
theorem readBits_leaves {t : Slot} {n : Nat} (hm : t.mode = .read) (hr : t.ReadOk) (hn : n ≤ t.rbits.length) :
    (t.readBits n).2.rbits = t.rbits.drop n ∧ ((t.readBits n).2.progress = .finished ↔ t.rbits.drop n = []) := by
  obtain ⟨-, hleft, hread, -⟩ := readBits_spec n t hm hr hn
  exact ⟨hleft, by rw [← hleft, finished_iff _ (by simp [hm]) hread]⟩

/-- Settles O29: both commands pass their checks, and `ReadBits` takes the first bits off the unread ones. -/
theorem readsReturnTheNextBits : Obligations.ReadsReturnTheNextBits := by
  intro s S hhost hslot hm
  obtain ⟨-, -, hr, -⟩ := hslot
  refine ⟨fun b more hbits => ?_, fun N hN hn => ?_⟩
  · have hreading : (s.slot S).progress = .reading := reading_of_rbits (by simp [hbits])
    have hn : 1 ≤ (s.slot S).rbits.length := by simp [hbits]
    obtain ⟨t, hanswer, hunits, hothers, ht⟩ := answers_write (i := .bsReadBit S) hhost.1
      (guarded_pass (hostStream_passes_with hhost (pre := []) rfl (by simp [firstFailure, hreading])))
    obtain ⟨hleft, hfinished⟩ := readBits_leaves hm hr hn
    rw [(readBits_spec 1 (s.slot S) hm hr hn).1, hbits] at hanswer
    rw [hbits] at hleft hfinished
    exact ⟨t, hanswer, hunits, hothers, by rw [ht, hleft]; rfl, by rw [ht, hfinished]; rfl⟩
  · obtain ⟨t, hanswer, hunits, hothers, ht⟩ := answers_write (i := .bsReadNumber S N) hhost.1
      (guarded_pass (hostStream_passes_with hhost (width_passes hN)
        (by simp [firstFailure, remaining_of_read hm, hm, hn])))
    obtain ⟨hleft, hfinished⟩ := readBits_leaves hm hr hn
    have hfits : num ((s.slot S).rbits.take N) < 2 ^ 64 :=
      (num_lt _).trans_le (Nat.pow_le_pow_right (by decide) ((List.length_take_le _ _).trans hN))
    rw [(readBits_spec N (s.slot S) hm hr hn).1] at hanswer
    refine ⟨t, _, hanswer, hunits, hothers, resultWord_toNat hfits, by rw [ht, hleft], ?_, ?_⟩
    · rintro rfl
      exact ht
    · rw [ht, hfinished, List.drop_eq_nil_iff]
      omega

end Sys2Proof.Machine
end

section
/-! PROOFS. The image of a stream: the completion of BS_EXPORT and BS_IMPORT, and the round trip through both (spec/20_memory.md
rules R64 to R66, spec/40_bitstream.md rules R115 and R116, spec/90_conflicts.md C1). -/

namespace Sys2Proof.Machine

open Sys2Proof.Claims

/-! ### The image -/

/-- The header byte as a number (R64). -/
theorem headerByte_toNat {nv : Nat} (h : nv ≤ 8) : (headerByte nv).toNat = 0xE0 + nv := by
  interval_cases nv <;> decide

/-- The nibbles of a header byte (R64). -/
theorem headerByte_nibbles {nv : Nat} (h : nv ≤ 8) :
    (headerByte nv).toNat / 16 = 0xE ∧ (headerByte nv).toNat % 16 = nv := by
  rw [headerByte_toNat h]
  omega

/-- The stream that a copy of `t` is read back as: `t` itself in READ mode, and in WRITE mode what BS_TO_READ pads it to
(R66). -/
def Slot.readable (t : Slot) : Slot :=
  match t.mode with
  | .write => t.padToRead
  | .read => t

theorem readable_of_write {t : Slot} (h : t.mode = .write) : t.readable = t.padToRead := by simp only [Slot.readable, h]

theorem readable_of_read {t : Slot} (h : t.mode = .read) : t.readable = t := by simp only [Slot.readable, h]

/-- The image is the header with the count of valid bits in the last byte, and the bytes (R66). -/
theorem image_eq (t : Slot) : t.image = headerByte t.readable.lastValid :: t.readable.buf := by
  cases hm : t.mode with
  | read => simp only [Slot.image, hm, readable_of_read hm]
  | write =>
    rcases Nat.eq_zero_or_pos t.wrCnt with hwhole | hpending
    · simp [Slot.image, hm, hwhole, readable_of_write hm, padToRead_whole hwhole]
    · simp [Slot.image, hm, hpending, readable_of_write hm, padToRead_pending hpending]

theorem readable_lastValid {cap : Option Nat} {t : Slot} (h : t.Ok cap) :
    1 ≤ t.readable.lastValid ∧ t.readable.lastValid ≤ 8 := by
  obtain ⟨-, ⟨hcnt, -⟩, ⟨h1, h8, -⟩, -⟩ := h
  cases hm : t.mode with
  | read =>
    rw [readable_of_read hm]
    exact ⟨h1, h8⟩
  | write =>
    rw [readable_of_write hm]
    obtain ⟨hpad1, hpad8, -⟩ := padToRead_fields hcnt
    exact ⟨hpad1, hpad8⟩

/-- The valid bits of the image's bytes are the bits of the stream (R28, R29, R66). -/
theorem readable_bits {cap : Option Nat} {t : Slot} (h : t.Ok cap) : t.readable.bitsFrom 0 = allBits t := by
  obtain ⟨-, ⟨hcnt, hacc, -⟩, -⟩ := h
  cases hm : t.mode with
  | read => simp only [readable_of_read hm, allBits, hm]
  | write => simp only [readable_of_write hm, allBits, hm, padToRead_bits t hcnt hacc]

/-- BS_EXPORT replies with the image of the host's stream (R115). -/
theorem export_replies {s : State} {S : Nat} (h : HostMayUse s S) :
    exec (.bsExport S) s = reply s {} (headerByte (s.slot S).readable.lastValid :: (s.slot S).readable.buf) := by
  rw [← image_eq]
  exact guarded_pass (hostStream_passes h)

/-- Settles O33: the image's header and bytes, by the mode and the pending bits. -/
theorem exportReturnsTheImage : Obligations.ExportReturnsTheImage := by
  intro s S hhost hslot
  obtain ⟨t, hanswer, hunits, hslots⟩ := answers_query (export_replies hhost)
  obtain ⟨hhigh, hlow⟩ := headerByte_nibbles (readable_lastValid hslot).2
  obtain ⟨-, ⟨hcnt, hacc, -⟩, -⟩ := hslot
  refine ⟨t, _, _, hanswer, hunits, hslots, hhigh, fun hm => ?_, fun hm hwhole => ?_, fun hm hpending => ?_⟩
  · rw [hlow, readable_of_read hm]
    exact ⟨rfl, rfl⟩
  · rw [hlow, readable_of_write hm, padToRead_whole hwhole]
    exact ⟨rfl, rfl⟩
  · rw [hlow, readable_of_write hm, padToRead_pending hpending]
    exact ⟨rfl, _, rfl, pad_toNat hcnt hacc⟩

/-! ### Importing an image -/

/-- The low nibble of a header is the count it was made of (R64). -/
theorem imageNibble_header {nv : Nat} (h : nv ≤ 8) (body : List Byte) : imageNibble (headerByte nv :: body) = nv := by
  rw [imageNibble, BitVec.extractLsb'_toNat]
  exact (headerByte_nibbles h).2

/-- The high nibble of a header is 0xE (R64). -/
theorem imageHeader_high {nv : Nat} (h : nv ≤ 8) (body : List Byte) :
    (imageHeader (headerByte nv :: body)).extractLsb' 4 4 = 0xE := by
  obtain ⟨hhigh, -⟩ := headerByte_nibbles h
  apply BitVec.eq_of_toNat_eq
  rw [BitVec.extractLsb'_toNat, Nat.shiftRight_eq_div_pow, imageHeader, List.headD_cons, show 2 ^ 4 = 16 from rfl, hhigh]
  rfl

/-- BS_IMPORT of a good image makes a primed stream of it, in every slot that is not the decoder's (R116). -/
theorem import_replies {s : State} {S nv : Nat} {body : List Byte} (hS : S < s.slots.length)
    (ho : (s.slot S).owner ≠ .decoder) (h1 : 1 ≤ nv) (h8 : nv ≤ 8) (hbody : body ≠ [])
    (hroom : ¬TooManyBytes s body.length) :
    exec (.bsImport S (headerByte nv :: body)) s = reply (s.setSlot S (importedSlot nv body)) {} [] := by
  have hnibble := imageNibble_header h8 body
  have hpass : firstFailure ((noSuchSlot s S, .eParam) :: (decide ((s.slot S).owner = .decoder), .eOwned) ::
      imageChecks s.capacity (headerByte nv :: body)) = none := by
    simp [firstFailure, noSuchSlot, Nat.not_le.mpr hS, ho, imageChecks, imageHeader_high h8, hnibble, hbody,
      withinCapacity_of_room hroom, Nat.ne_of_gt h1, Nat.not_lt.mpr h8]
  exact (guarded_pass hpass).trans (by rw [hnibble]; rfl)

/-- BS_IMPORT refuses the image without a data byte (R116, 90_conflicts.md C1). -/
theorem import_refuses_header {s : State} {S nv : Nat} (hS : S < s.slots.length) (ho : (s.slot S).owner ≠ .decoder)
    (h8 : nv ≤ 8) : exec (.bsImport S [headerByte nv]) s = raise (.bsImport S [headerByte nv]) .eFmtHeaderOnly s := by
  have hfail : firstFailure ((noSuchSlot s S, .eParam) :: (decide ((s.slot S).owner = .decoder), .eOwned) ::
      imageChecks s.capacity [headerByte nv]) = some .eFmtHeaderOnly := by
    simp [firstFailure, noSuchSlot, Nat.not_le.mpr hS, ho, imageChecks, imageHeader_high h8]
  simp only [exec, execBsImport, guarded, hfail]

/-- The stream made of an image with a data byte, field by field (R55, R103, R116). -/
theorem importedSlot_fields (nv : Nat) {body : List Byte} (h : body ≠ []) :
    (importedSlot nv body).progress = .reading ∧ (importedSlot nv body).buf = body ∧
    (importedSlot nv body).lastValid = nv ∧ (importedSlot nv body).cursor = 0 ∧ (importedSlot nv body).wrAcc = 0 ∧
    (importedSlot nv body).wrCnt = 0 := by
  have hpos : 0 < body.length := List.length_pos_iff.mpr h
  simp [importedSlot, Slot.primeRead, hpos, emptySlot]

/-- All the valid bits of the image are unread (R103). -/
theorem importedSlot_rbits {nv : Nat} (h1 : 1 ≤ nv) (h8 : nv ≤ 8) (body : List Byte) :
    (importedSlot nv body).rbits = (importedSlot nv body).bitsFrom 0 := by
  obtain ⟨hunread, -, hfields⟩ :=
    primeRead_spec { emptySlot .host with buf := body, mode := .read, lastValid := nv } h1 h8 ⟨rfl, rfl⟩
  rw [importedSlot, hunread, hfields]
  rfl

/-- Settles O34: the header is one of the eight good ones, and the slot is the one that BS_IMPORT makes of its image. -/
theorem importPrimesTheStream : Obligations.ImportPrimesTheStream := by
  intro s S h body hS ho hlow hhigh hbody hroom
  obtain ⟨nv, h1, h8, hnv⟩ : ∃ nv, 1 ≤ nv ∧ nv ≤ 8 ∧ h.toNat = 0xE0 + nv :=
    ⟨h.toNat - 0xE0, by omega, by omega, by omega⟩
  have hh : h = headerByte nv := BitVec.eq_of_toNat_eq (hnv.trans (headerByte_toNat h8).symm)
  obtain ⟨t, hanswer, hunits, hothers, ht⟩ := answers_write hS (import_replies hS ho h1 h8 hbody hroom)
  rw [← hh] at hanswer
  obtain ⟨hprogress, hbuf, hlast, hcursor, hacc, hcnt⟩ := importedSlot_fields nv hbody
  have hunread := importedSlot_rbits h1 h8 body
  have hcount : h.toNat - 0xE0 = nv := by omega
  have hpos : 0 < body.length := List.length_pos_iff.mpr hbody
  have hremaining : (importedSlot nv body).remaining = 8 * (body.length - 1) + nv := by
    rw [remaining_of_read (importedSlot_mode nv body), hunread, bitsFrom_length _ (hlast.trans_le h8) 0 (Nat.zero_le _),
      hbuf, hlast, if_neg (by omega), Nat.sub_zero]
  refine ⟨t, hanswer, hunits, hothers, ?_⟩
  rw [ht, hcount]
  exact ⟨importedSlot_owner nv body, importedSlot_mode nv body, hprogress, hbuf, hlast, hcursor, hacc, hcnt, hremaining,
    hunread⟩

/-! ### The round trip -/

/-- The valid bits depend on the bytes and on the count of the last one's only (R29). -/
theorem bitsFrom_congr {t u : Slot} (hbuf : u.buf = t.buf) (hlast : u.lastValid = t.lastValid) (j : Nat) :
    u.bitsFrom j = t.bitsFrom j := by
  simp only [Slot.bitsFrom, Slot.byteAt, Slot.validBits, hbuf, hlast]

/-- How many bytes the image has after its header (R66). -/
theorem readable_length {cap : Option Nat} {t : Slot} (h : t.Ok cap) :
    t.readable.buf.length = ((allBits t).length + 7) / 8 := by
  obtain ⟨h1, h8⟩ := readable_lastValid h
  rw [← readable_bits h, bitsFrom_length _ h8 0 (Nat.zero_le _)]
  split <;> omega

/-- A command that replies has no other answer. -/
theorem answers_of_reply {i : Instr} {s t : State} {r : Results} {out : List Byte} {a : Response}
    (h : exec i s = reply s r out) (hanswer : Answers i s t a) : a = okWith r out ∧ t.slots = s.slots := by
  obtain ⟨hexec, hresp⟩ := hanswer
  cases h.symm.trans hexec
  exact ⟨(List.singleton_inj.mp (List.append_inj_right' hresp rfl)).symm, rfl⟩

/-- Settles O35: the imported slot has the bytes and the count of the exported image, so its bits; the image of no bits is a
header alone. -/
theorem importOfExportGivesTheBits : Obligations.ImportOfExportGivesTheBits := by
  intro s t S T img hhost hslot hT hoT hroom hexport
  obtain ⟨himg, hslots⟩ := answers_of_reply (export_replies hhost) hexport
  obtain rfl : img = _ := congrArg Response.out himg
  obtain ⟨hcap, -⟩ := exec_keeps_capacity_pending hexport.1
  obtain ⟨h1, h8⟩ := readable_lastValid hslot
  have hlen := readable_length hslot
  have hT' : T < t.slots.length := by rwa [hslots]
  have hoT' : (t.slot T).owner ≠ .decoder := by rwa [slot_congr hslots]
  refine ⟨fun hsome => ?_, fun hnone => ?_⟩
  · have hpos : 0 < (allBits (s.slot S)).length := List.length_pos_iff.mpr hsome
    have hbody : (s.slot S).readable.buf ≠ [] := List.length_pos_iff.mp (by omega)
    have hroom' : ¬TooManyBytes t (s.slot S).readable.buf.length := by rwa [TooManyBytes, hcap, hlen]
    obtain ⟨u, hanswer, -, -, hu⟩ := answers_write hT' (import_replies hT' hoT' h1 h8 hbody hroom')
    obtain ⟨-, hbuf, hlast, -⟩ := importedSlot_fields (s.slot S).readable.lastValid hbody
    have hbits := (bitsFrom_congr hbuf hlast 0).trans (readable_bits hslot)
    refine ⟨u, hanswer, ?_, ?_⟩
    · rw [hu, importedSlot_rbits h1 h8, hbits]
    · rw [hu, totalSize_of_read (importedSlot_mode _ _) (hlast.trans_le h8), hbits]
  · have hempty : (s.slot S).readable.buf = [] := List.length_eq_zero_iff.mp (by rw [hlen, hnone]; rfl)
    rw [hempty]
    exact ⟨_, import_refuses_header hT' hoT' h8, rfl⟩

end Sys2Proof.Machine
end

section
/-! PROOFS. The fields of a command word as numbers, and the rows of the opcode map by the fields their commands use
(spec/30_encoding.md rules R71, R72 and R79). -/

namespace Sys2Proof

open Sys2Proof.Claims

/-! ### The fields of a command word -/

theorem fieldOP_toNat (cw : CommandWord) : (fieldOP cw).toNat = cw.toNat % 256 := by
  simp [fieldOP, BitVec.extractLsb'_toNat]

theorem fieldS_eq (cw : CommandWord) : fieldS cw = cw.toNat / 2 ^ 8 % 2 ^ 4 := by
  simp [fieldS, BitVec.extractLsb'_toNat, Nat.shiftRight_eq_div_pow]

theorem fieldT_eq (cw : CommandWord) : fieldT cw = cw.toNat / 2 ^ 12 % 2 ^ 4 := by
  simp [fieldT, BitVec.extractLsb'_toNat, Nat.shiftRight_eq_div_pow]

theorem fieldN_eq (cw : CommandWord) : fieldN cw = cw.toNat / 2 ^ 16 % 2 ^ 7 := by
  simp [fieldN, BitVec.extractLsb'_toNat, Nat.shiftRight_eq_div_pow]

theorem fieldV_toNat (cw : CommandWord) : (fieldV cw).toNat = cw.toNat / 2 ^ 23 % 2 := by
  rw [fieldV, BitVec.getLsbD, Nat.toNat_testBit]

theorem fieldP_toNat (cw : CommandWord) : (fieldP cw).toNat = cw.toNat / 2 ^ 24 % 2 := by
  rw [fieldP, BitVec.getLsbD, Nat.toNat_testBit]

theorem fieldReserved_toNat (cw : CommandWord) : (fieldReserved cw).toNat = cw.toNat / 2 ^ 25 := by
  have := cw.isLt
  simp only [fieldReserved, BitVec.extractLsb'_toNat, Nat.shiftRight_eq_div_pow]
  omega

theorem fieldS_lt (cw : CommandWord) : fieldS cw < 2 ^ 4 := BitVec.isLt _

theorem fieldT_lt (cw : CommandWord) : fieldT cw < 2 ^ 4 := BitVec.isLt _

theorem fieldN_lt (cw : CommandWord) : fieldN cw < 2 ^ 7 := BitVec.isLt _

/-! The fields of a masked word are the fields of the word, masked by the fields of the mask. -/

section Masked
variable (cw mask : CommandWord)

theorem fieldOP_and : fieldOP (cw &&& mask) = fieldOP cw &&& fieldOP mask := BitVec.extractLsb'_and

theorem fieldReserved_and : fieldReserved (cw &&& mask) = fieldReserved cw &&& fieldReserved mask :=
  BitVec.extractLsb'_and

theorem fieldS_and : fieldS (cw &&& mask) = fieldS cw &&& fieldS mask := congrArg BitVec.toNat BitVec.extractLsb'_and

theorem fieldT_and : fieldT (cw &&& mask) = fieldT cw &&& fieldT mask := congrArg BitVec.toNat BitVec.extractLsb'_and

theorem fieldN_and : fieldN (cw &&& mask) = fieldN cw &&& fieldN mask := congrArg BitVec.toNat BitVec.extractLsb'_and

theorem fieldV_and : fieldV (cw &&& mask) = (fieldV cw && fieldV mask) := BitVec.getLsbD_and

theorem fieldP_and : fieldP (cw &&& mask) = (fieldP cw && fieldP mask) := BitVec.getLsbD_and

end Masked

/-- The seven fields make up the word (R71). -/
theorem word_eq_iff_fields {x y : CommandWord} :
    x = y ↔ fieldOP x = fieldOP y ∧ fieldReserved x = fieldReserved y ∧ fieldS x = fieldS y ∧ fieldT x = fieldT y ∧
      fieldN x = fieldN y ∧ fieldV x = fieldV y ∧ fieldP x = fieldP y := by
  refine ⟨fun h => by simp [h], fun ⟨hOP, hR, hS, hT, hN, hV, hP⟩ => BitVec.eq_of_toNat_eq ?_⟩
  have hOP := congrArg BitVec.toNat hOP
  have hR := congrArg BitVec.toNat hR
  have hV := congrArg Bool.toNat hV
  have hP := congrArg Bool.toNat hP
  simp only [fieldOP_toNat, fieldReserved_toNat, fieldS_eq, fieldT_eq, fieldN_eq, fieldV_toNat, fieldP_toNat]
    at hOP hR hS hT hN hV hP
  omega

/-- A word with a zero reserved field is the word packed from its fields. -/
theorem packWord_fields {cw : CommandWord} (h : fieldReserved cw = 0) :
    packWord (fieldOP cw) (fieldS cw) (fieldT cw) (fieldN cw) (fieldV cw) (fieldP cw) = cw :=
  word_eq_iff_fields.mpr ⟨fieldOP_pack .., (fieldReserved_pack ..).trans h.symm, fieldS_pack _ _ _ _ _ _ (fieldS_lt cw),
    fieldT_pack _ _ _ _ _ _ (fieldT_lt cw), fieldN_pack _ _ _ _ _ _ (fieldN_lt cw), fieldV_pack .., fieldP_pack ..⟩

/-! ### The rows of the opcode map -/

/-- The reserved field, and every field that `u` does not use, are zero (R72). -/
def ZeroBeside (u : FieldUse) (cw : CommandWord) : Prop :=
  fieldReserved cw = 0 ∧ (u.S = false → fieldS cw = 0) ∧ (u.T = false → fieldT cw = 0) ∧
  (u.N = false → fieldN cw = 0) ∧ (u.V = false → fieldV cw = false) ∧ (u.P = false → fieldP cw = false)

theorem unusedFieldsZero_iff (cw : CommandWord) :
    UnusedFieldsZero cw ↔ ∃ u, fieldUse (fieldOP cw).toNat = some u ∧ ZeroBeside u cw := by
  have hR : fieldReserved cw = 0 ↔ cw.toNat / 2 ^ 25 = 0 := by
    rw [← fieldReserved_toNat]
    exact BitVec.toNat_inj.symm
  have hV : fieldV cw = false ↔ cw.toNat / 2 ^ 23 % 2 = 0 := by rw [← fieldV_toNat, Bool.toNat_eq_zero]
  have hP : fieldP cw = false ↔ cw.toNat / 2 ^ 24 % 2 = 0 := by rw [← fieldP_toNat, Bool.toNat_eq_zero]
  simp only [UnusedFieldsZero, ZeroBeside, fieldOP_toNat, hR, hV, hP, fieldS_eq, fieldT_eq, fieldN_eq]

/-- The row's `match` is its opcode alone, and its `mask` covers the opcode, the reserved field and the fields that `u`
does not use (R79). -/
def RowUses (row : Row) (u : FieldUse) : Prop :=
  row.word = packWord row.opcode 0 0 0 false false ∧
  fieldOP row.mask = BitVec.allOnes 8 ∧ fieldReserved row.mask = BitVec.allOnes 7 ∧
  fieldS row.mask = (if u.S then 0 else 2 ^ 4 - 1) ∧ fieldT row.mask = (if u.T then 0 else 2 ^ 4 - 1) ∧
  fieldN row.mask = (if u.N then 0 else 2 ^ 7 - 1) ∧ fieldV row.mask = !u.V ∧ fieldP row.mask = !u.P

/-- Columns "match" and "mask" of R79 agree with its column "fields". -/
theorem rows_use_fields : ∀ row ∈ rows, ∃ u ∈ fieldUse row.opcode.toNat, RowUses row u := by
  unfold RowUses
  decide

/-- Every opcode with a use of fields has a row (R79). -/
theorem row_of_fieldUse : ∀ op : BitVec 8, (fieldUse op.toNat).isSome → ∃ row ∈ rows, row.opcode = op := by decide

/-- A masked numeric field is zero exactly when the field is, if the mask covers it. -/
theorem and_fieldMask_eq_zero {v n : Nat} (h : v < 2 ^ n) (used : Bool) :
    v &&& (if used then 0 else 2 ^ n - 1) = 0 ↔ (used = false → v = 0) := by
  cases used with
  | true => simp
  | false => simp [Nat.and_two_pow_sub_one_eq_mod, Nat.mod_eq_of_lt h]

/-- The same for a field of one bit. -/
theorem and_bitMask_eq_false (v used : Bool) : (v && !used) = false ↔ (used = false → v = false) := by
  cases used <;> simp

/-- Match under mask says that the opcode is the row's and that nothing is set beside the fields it uses (R72). -/
theorem match_iff {row : Row} {u : FieldUse} (h : RowUses row u) (cw : CommandWord) :
    cw &&& row.mask = row.word ↔ fieldOP cw = row.opcode ∧ ZeroBeside u cw := by
  obtain ⟨hword, hOP, hR, hS, hT, hN, hV, hP⟩ := h
  have hzero4 : 0 < 2 ^ 4 := by decide
  have hzero7 : 0 < 2 ^ 7 := by decide
  rw [word_eq_iff_fields, hword, fieldOP_pack, fieldReserved_pack, fieldS_pack _ _ _ _ _ _ hzero4,
    fieldT_pack _ _ _ _ _ _ hzero4, fieldN_pack _ _ _ _ _ _ hzero7, fieldV_pack, fieldP_pack,
    fieldOP_and, hOP, BitVec.and_allOnes, fieldReserved_and, hR, BitVec.and_allOnes,
    fieldS_and, hS, and_fieldMask_eq_zero (fieldS_lt cw), fieldT_and, hT, and_fieldMask_eq_zero (fieldT_lt cw),
    fieldN_and, hN, and_fieldMask_eq_zero (fieldN_lt cw), fieldV_and, hV, and_bitMask_eq_false,
    fieldP_and, hP, and_bitMask_eq_false, ZeroBeside]

/-- A word that matches a row has the row's opcode. -/
theorem fieldOP_of_match {row : Row} (hrow : row ∈ rows) {cw : CommandWord} (h : cw &&& row.mask = row.word) :
    fieldOP cw = row.opcode := by
  obtain ⟨u, -, hu⟩ := rows_use_fields row hrow
  exact ((match_iff hu cw).mp h).1

/-- R72 in its two forms: the unused fields are zero exactly when the word matches a row under its mask. -/
theorem unusedFieldsZero_iff_match (cw : CommandWord) :
    UnusedFieldsZero cw ↔ ∃ row ∈ rows, cw &&& row.mask = row.word := by
  rw [unusedFieldsZero_iff]
  constructor
  · rintro ⟨u, huse, hzero⟩
    obtain ⟨row, hrow, hop⟩ := row_of_fieldUse (fieldOP cw) (by simp [huse])
    obtain ⟨u', huse', hu'⟩ := rows_use_fields row hrow
    rw [hop, huse] at huse'
    cases huse'
    exact ⟨row, hrow, (match_iff hu' cw).mpr ⟨hop.symm, hzero⟩⟩
  · rintro ⟨row, hrow, hmatch⟩
    obtain ⟨u, huse, hu⟩ := rows_use_fields row hrow
    obtain ⟨hop, hzero⟩ := (match_iff hu cw).mp hmatch
    exact ⟨u, by rwa [hop], hzero⟩

end Sys2Proof
end

section
/-! PROOFS. What decoding a request can give, and that decoding and encoding are inverse to each other (spec/30_encoding.md
rules R70 to R83). -/

namespace Sys2Proof

open Sys2Proof.Claims

/-! ### Decoding -/

theorem findRow_of_mem {row : Row} (h : row ∈ rows) : findRow row.opcode = some row := by
  revert row
  decide

theorem mem_of_findRow {op : BitVec 8} {row : Row} (h : findRow op = some row) : row ∈ rows :=
  List.mem_of_find?_eq_some h

/-- Every row's opcode has a command (R79). -/
theorem assemble_of_mem {row : Row} (h : row ∈ rows) (r : Request) : ∃ i, assemble row.opcode r = some i := by
  fin_cases h <;> exact ⟨_, rfl⟩

/-- Decoding gives a command exactly when the word matches a row, and then it is the command of that row's opcode (R83). -/
theorem decode_command_iff {r : Request} {i : Instr} :
    decode r = .command i ↔ ∃ row ∈ rows, r.cw &&& row.mask = row.word ∧ assemble row.opcode r = some i := by
  constructor
  · intro h
    unfold decode at h
    split at h
    next => cases h
    next row hfind =>
      split at h
      next hmatch =>
        split at h
        next j hassemble =>
          cases h
          exact ⟨row, mem_of_findRow hfind, hmatch, hassemble⟩
        next => cases h
      next => cases h
  · rintro ⟨row, hrow, hmatch, hassemble⟩
    simp [decode, fieldOP_of_match hrow hmatch, findRow_of_mem hrow, hmatch, hassemble]

theorem decodes_iff_match (r : Request) :
    (∃ i, decode r = .command i) ↔ ∃ row ∈ rows, r.cw &&& row.mask = row.word := by
  constructor
  · rintro ⟨i, h⟩
    obtain ⟨row, hrow, hmatch, -⟩ := decode_command_iff.mp h
    exact ⟨row, hrow, hmatch⟩
  · rintro ⟨row, hrow, hmatch⟩
    obtain ⟨i, hassemble⟩ := assemble_of_mem hrow r
    exact ⟨i, decode_command_iff.mpr ⟨row, hrow, hmatch, hassemble⟩⟩

theorem decodes_iff_unusedFieldsZero (r : Request) : (∃ i, decode r = .command i) ↔ UnusedFieldsZero r.cw :=
  (decodes_iff_match r).trans (unusedFieldsZero_iff_match r.cw).symm

/-- A word with something set that its opcode does not use, or without a row, is illegal (R72, R80). -/
theorem decode_illegal {r : Request} (h : ¬UnusedFieldsZero r.cw) : ∃ why, decode r = .illegal why := by
  cases hdecode : decode r with
  | illegal why => exact ⟨why, rfl⟩
  | command i => exact absurd ((decodes_iff_unusedFieldsZero r).mp ⟨i, hdecode⟩) h

/-- R80's list is disjoint from R79's column of opcodes. -/
theorem fieldUse_unlisted {op : Nat} (h : UnlistedOpcode op) : fieldUse op = none := by
  unfold UnlistedOpcode at h
  unfold fieldUse
  iterate 12 rw [if_neg (by omega)]

theorem not_unusedFieldsZero_of_unlisted {cw : CommandWord} (h : UnlistedOpcode (cw.toNat % 256)) :
    ¬UnusedFieldsZero cw := by
  rintro ⟨u, huse, -⟩
  rw [fieldUse_unlisted h] at huse
  cases huse

/-! ### Encoding and back -/

/-- The word of every command matches a row (R72, R79). -/
theorem encodedWord (i : Instr) : ∃ row ∈ rows, encodeWord i &&& row.mask = row.word := by
  cases i with
  | coreErrinfo => exact Laws.EncodedWord.coreErrinfo
  | bsNew S => exact Laws.EncodedWord.bsNew S
  | bsWriteBit S V => exact Laws.EncodedWord.bsWriteBit S V
  | bsWriteNumber S N A => exact Laws.EncodedWord.bsWriteNumber S N A
  | bsToRead S => exact Laws.EncodedWord.bsToRead S
  | bsReadBit S => exact Laws.EncodedWord.bsReadBit S
  | bsReadNumber S N => exact Laws.EncodedWord.bsReadNumber S N
  | bsMerge S T => exact Laws.EncodedWord.bsMerge S T
  | bsRemaining S => exact Laws.EncodedWord.bsRemaining S
  | bsTotalSize S => exact Laws.EncodedWord.bsTotalSize S
  | bsRewind S => exact Laws.EncodedWord.bsRewind S
  | bsExport S => exact Laws.EncodedWord.bsExport S
  | bsImport S IN => exact Laws.EncodedWord.bsImport S IN
  | bsInfo S => exact Laws.EncodedWord.bsInfo S
  | encNew N => exact Laws.EncodedWord.encNew N
  | encEncode S V P A B => exact Laws.EncodedWord.encEncode S V P A B
  | encClose S => exact Laws.EncodedWord.encClose S
  | encGetState => exact Laws.EncodedWord.encGetState
  | encSetState A B => exact Laws.EncodedWord.encSetState A B
  | encInfo => exact Laws.EncodedWord.encInfo
  | decNew S N => exact Laws.EncodedWord.decNew S N
  | decInit => exact Laws.EncodedWord.decInit
  | decDecode P A B => exact Laws.EncodedWord.decDecode P A B
  | decGetState => exact Laws.EncodedWord.decGetState
  | decSetState A B => exact Laws.EncodedWord.decSetState A B
  | decStatus => exact Laws.EncodedWord.decStatus
  | decInfo => exact Laws.EncodedWord.decInfo

/-- Assembling the fields and operands of a well-formed command's own request gives the command back (R71, R73). -/
theorem assemble_encode {i : Instr} (h : i.wf = true) : assemble (fieldOP (encodeWord i)) (encode i) = some i := by
  cases i <;>
    simp_all [Instr.wf, slotFits, countFits, encode, encodeWord, operandA, operandB, payload, assemble, fieldOP_pack,
      fieldS_pack, fieldT_pack, fieldN_pack, fieldV_pack, fieldP_pack]

/-- Settles O1: the word of the command matches a row, the row's opcode is the word's, and the fields and operands of the
request are those of the command. -/
theorem decodeOfEncodeIsIdentity : Obligations.DecodeOfEncodeIsIdentity := by
  intro i hwf
  obtain ⟨row, hrow, hmatch⟩ := encodedWord i
  refine decode_command_iff.mpr ⟨row, hrow, hmatch, ?_⟩
  rw [← fieldOP_of_match hrow hmatch]
  exact assemble_encode hwf

/-! ### Decoding and back -/

/-- An assembled command is well formed: its operands come from fields of their widths (R71). -/
theorem wf_of_assemble {op : BitVec 8} {r : Request} {i : Instr} (h : assemble op r = some i) : i.wf = true := by
  have hS := fieldS_lt r.cw
  have hT := fieldT_lt r.cw
  have hN := fieldN_lt r.cw
  unfold assemble at h
  split at h <;> cases h <;> simp_all [Instr.wf, slotFits, countFits]

/-- The word of an assembled command has the opcode, the fields that the opcode uses, and zeros (R72, R79). -/
theorem encodeWord_of_assemble {op : BitVec 8} {r : Request} {i : Instr} (h : assemble op r = some i) :
    ∃ u, fieldUse op.toNat = some u ∧
      encodeWord i = packWord op (if u.S then fieldS r.cw else 0) (if u.T then fieldT r.cw else 0)
        (if u.N then fieldN r.cw else 0) (u.V && fieldV r.cw) (u.P && fieldP r.cw) := by
  have hbits : BitVec.ofNat 8 op.toNat = op := by simp
  unfold assemble at h
  split at h <;> cases h <;>
    next hop =>
      rw [hop] at hbits
      subst hbits
      exact ⟨_, rfl, rfl⟩

/-- Dropping a field that is zero when it is not used changes nothing. -/
theorem used_field {used : Bool} {v : Nat} (h : used = false → v = 0) : (if used then v else 0) = v := by
  cases used with
  | true => rfl
  | false => exact (h rfl).symm

theorem used_bit {used v : Bool} (h : used = false → v = false) : (used && v) = v := by
  cases used with
  | true => rfl
  | false => exact (h rfl).symm

/-- Dropping the unused fields of a word that has zeros there changes nothing. -/
theorem packWord_used_fields {u : FieldUse} {cw : CommandWord} (h : ZeroBeside u cw) :
    packWord (fieldOP cw) (if u.S then fieldS cw else 0) (if u.T then fieldT cw else 0) (if u.N then fieldN cw else 0)
      (u.V && fieldV cw) (u.P && fieldP cw) = cw := by
  obtain ⟨hR, hS, hT, hN, hV, hP⟩ := h
  rw [used_field hS, used_field hT, used_field hN, used_bit hV, used_bit hP, packWord_fields hR]

/-- Settles O2: the command's word has the fields of the request's word that the opcode uses, and the request's word has
zeros beside them. -/
theorem encodeOfDecodeIsIdentity : Obligations.EncodeOfDecodeIsIdentity := by
  intro r i hdecode
  obtain ⟨row, hrow, hmatch, hassemble⟩ := decode_command_iff.mp hdecode
  obtain ⟨u, huse, hword⟩ := encodeWord_of_assemble hassemble
  obtain ⟨u', huse', hu'⟩ := rows_use_fields row hrow
  obtain rfl : u = u' := Option.some_inj.mp (huse.symm.trans huse')
  obtain ⟨hop, hzero⟩ := (match_iff hu' r.cw).mp hmatch
  rw [← hop] at hword
  exact ⟨wf_of_assemble hassemble, hword.trans (packWord_used_fields hzero)⟩

/-- Settles O5: the decoder run on each word. -/
theorem specWordsDecode : Obligations.SpecWordsDecode := by
  unfold Obligations.SpecWordsDecode
  decide

end Sys2Proof
end

section
/-! PROOFS. Illegal words at the port, and that every step and every command answers (spec/30_encoding.md rules R70, R72 and
R80, spec/60_exceptions.md rule R175, spec/70_reset_and_hazards.md rules R194 and R196). -/

namespace Sys2Proof.Machine

open Sys2Proof.Claims

/-- Settles O3: both forms of R72 say that decoding gives a command, and otherwise the port refuses the word. -/
theorem wordIsLegalExactlyWhenUnusedBitsAreZero : Obligations.WordIsLegalExactlyWhenUnusedBitsAreZero := by
  intro r s
  refine ⟨decodes_iff_unusedFieldsZero r, decodes_iff_match r, fun hillegal => ?_⟩
  obtain ⟨why, hdecode⟩ := decode_illegal hillegal
  exact ⟨_, serve_illegal hdecode s, rfl⟩

/-- Settles O4: an opcode outside the map has no use of fields, so its word is illegal like the others. -/
theorem unlistedOpcodesAreIllegal : Obligations.UnlistedOpcodesAreIllegal := by
  intro s r rest hpending hcause
  obtain ⟨why, hdecode⟩ := decode_illegal (hcause.elim not_unusedFieldsZero_of_unlisted id)
  rw [step_request hpending, serve_illegal hdecode]
  rfl

/-- Every command answers once and keeps the host's events and the parameters (R70, R175). -/
theorem exec_answers (i : Instr) (s : State) :
    ∃ t r, Answers i s t r ∧ t.pending = s.pending ∧ t.slots.length = s.slots.length ∧ t.capacity = s.capacity := by
  rcases exec_raisesOrReplies i s with ⟨e, -, hraise⟩ | ⟨s', r, out, ⟨-, hresp, hpending, hcapacity, hlength⟩, hreply⟩
  · exact ⟨_, _, ⟨hraise, rfl⟩, rfl, rfl, rfl⟩
  · exact ⟨_, _, ⟨hreply, congrArg (· ++ _) hresp⟩, hpending, hlength, hcapacity⟩

/-- Serving a request gives a next state: an illegal word is refused and a legal one is a command (R83). -/
theorem serve_next (r : Request) (s : State) : ∃ t, serve r s = .next t := by
  cases hdecode : decode r with
  | illegal why => exact ⟨_, serve_illegal hdecode s⟩
  | command i =>
    obtain ⟨t, -, ⟨hexec, -⟩, -⟩ := exec_answers i s
    exact ⟨t, (serve_command hdecode s).trans hexec⟩

/-- The block never stops (R189, R196). -/
theorem step_next (s : State) : ∃ t, step s = .next t := by
  cases hpending : s.pending with
  | nil => exact ⟨s, step_idle hpending⟩
  | cons event rest =>
    cases event with
    | reset => exact ⟨_, step_reset hpending⟩
    | request r => rw [step_request hpending]; exact serve_next r _

/-- Settles O10: a step idles, resets the block or serves a request, and a command raises an error or replies. -/
theorem everyCommandAnswersOnce : Obligations.EveryCommandAnswersOnce :=
  ⟨step_next, exec_answers⟩

end Sys2Proof.Machine
end

section
/-! PROOFS. The completion of the commands that replace, join, rewind or describe a whole slot (spec/40_bitstream.md rules R101,
R105, R111, R114 and R117, spec/42_decoder.md rule R150). -/

namespace Sys2Proof.Machine

open Sys2Proof.Claims

/-- States that read the same slot at every index but the listed ones have the same bytes there (R50). -/
theorem keepsSlotsBut_of_slot {changed : List Nat} {s t : State} (h : ∀ j, j ∉ changed → t.slot j = s.slot j) :
    KeepsSlotsBut changed s t :=
  fun j hj => ⟨h j hj, fun k => by simp only [State.memRead, h j hj]⟩

/-- A slot of the block passes the range check (R76). -/
theorem noSuchSlot_of_inside {s : State} {S : Nat} (h : S < s.slots.length) : noSuchSlot s S = false :=
  decide_eq_false (Nat.not_le.mpr h)

/-! ### DEC_NEW -/

/-- The host's stream is not the one that the decoder owns (R32). -/
theorem ne_decoder_slot {s : State} (h : s.OwnershipOk) {S : Nat} (hhost : HostMayUse s S) (hp : s.dec.phase ≠ .absent) :
    S ≠ s.dec.slot := by
  obtain ⟨hin, ho⟩ := hhost
  intro hS
  have hdec : (s.slot S).owner = .decoder := (h S hin).mpr ⟨hp, hS.symm⟩
  rw [ho] at hdec
  cases hdec

/-- Dropping the stream of a decoder keeps every slot but the one that the decoder owns (R101). -/
theorem slot_dropDecoderStream_ne {s : State} {j : Nat} (h : s.dec.phase ≠ .absent → j ≠ s.dec.slot) :
    s.dropDecoderStream.slot j = s.slot j := by
  unfold State.dropDecoderStream
  split
  next => rfl
  next hpresent => exact slot_freeSlot_ne (h hpresent)

/-- The stream of a decoder that exists is freed (R101). -/
theorem slot_dropDecoderStream_same {s : State} (h : s.dec.phase ≠ .absent) (hin : s.dec.slot < s.slots.length) :
    s.dropDecoderStream.slot s.dec.slot = emptySlot .free := by
  rw [State.dropDecoderStream, if_neg h, slot_freeSlot_same hin]

theorem dropDecoderStream_enc (s : State) : s.dropDecoderStream.enc = s.enc := by
  unfold State.dropDecoderStream
  split <;> rfl

/-- DEC_NEW hands the slot over, in the state without the stream of the decoder it replaces (R150). -/
theorem decNew_replies {s : State} {S N : Nat} (h : HostMayUse s S) (hm : (s.slot S).mode = .read) (h1 : 1 ≤ N)
    (h32 : N ≤ 32) : exec (.decNew S N) s = reply (completed (.decNew S N) s) {} [] := by
  have hprecision : firstFailure [(badPrecision N, .eParam)] = none := by
    simp [firstFailure, badPrecision, Config.mMax, Nat.ne_of_gt h1, Nat.not_lt.mpr h32]
  exact guarded_pass (hostStream_passes_with h hprecision (by simp [firstFailure, hm]))

/-- Settles O41: the slot handed over, the one of the decoder that is replaced, and the others, each after the drop and the
hand-over. -/
theorem newDecoderTakesTheStream : Obligations.NewDecoderTakesTheStream := by
  intro s S N hown hhost hm h1 h32
  obtain ⟨herr, hresp, hpending, hcapacity, hlength⟩ := effect_dropDecoderStream s
  have hother := ne_decoder_slot hown hhost
  have hhanded : (completed (.decNew S N) s).slot S = { s.dropDecoderStream.slot S with owner := .decoder } :=
    slot_setSlot_same (hhost.1.trans_eq hlength.symm) _
  have hkept (j : Nat) (hj : j ≠ S) : (completed (.decNew S N) s).slot j = s.dropDecoderStream.slot j :=
    slot_setSlot_ne hj _
  have hdec : (completed (.decNew S N) s).dec =
      { phase := .uninit, m := N, low := 0, high := BitVec.ofNat 64 (2 ^ N - 1), tag := 0, count := 0, slot := S } := by
    rw [← validMask_eq]
    rfl
  refine ⟨_, ⟨decNew_replies hhost hm h1 h32, congrArg (· ++ _) hresp⟩, ?_, fun hp hin => ?_,
    keepsSlotsBut_of_slot fun j hj => ?_, hdec, dropDecoderStream_enc s, herr, hcapacity, hpending⟩
  · rw [← slot_dropDecoderStream_ne hother]
    exact hhanded
  · exact (hkept _ (hother hp).symm).trans (slot_dropDecoderStream_same hp hin)
  · obtain ⟨hjS, hjdec⟩ : j ≠ S ∧ (s.dec.phase ≠ .absent → j ≠ s.dec.slot) := by
      split at hj <;> simp_all
    exact (hkept j hjS).trans (slot_dropDecoderStream_ne hjdec)

/-! ### BS_MERGE -/

/-- The size of a WRITE-mode stream is the number of bits written (R31). -/
theorem wbits_length_of_write {t : Slot} (hm : t.mode = .write) : t.wbits.length = t.totalSize := by
  simp only [Slot.totalSize, hm, wbits_length]

/-- BS_MERGE on two different WRITE-mode streams of the host, with room for the bits of the second in the first (R111). -/
theorem merge_replies {s : State} {S T : Nat} (hST : S ≠ T) (hS : HostMayUse s S) (hT : HostMayUse s T)
    (hmS : (s.slot S).mode = .write) (hmT : (s.slot T).mode = .write)
    (hroom : ¬TooManyBytes s ((s.slot S).buf.length + ((s.slot S).wrCnt + (s.slot T).wbits.length) / 8)) :
    exec (.bsMerge S T) s = reply (completed (.bsMerge S T) s) {} [] := by
  obtain ⟨hinS, hoS⟩ := hS
  obtain ⟨hinT, hoT⟩ := hT
  refine guarded_pass ?_
  simp [firstFailure, noSuchSlot_of_inside hinS, noSuchSlot_of_inside hinT, hST, hoS, hoT, hmS, hmT, Slot.fits,
    withinCapacity_of_room hroom]

/-- Settles O30: the checks pass, `AppendBits` appends the bits of T to those of S, and T is freed. -/
theorem mergeConcatenates : Obligations.MergeConcatenates := by
  intro s S T hST hS hT hslot hmS hmT hroom
  rw [← wbits_length_of_write hmT] at hroom
  obtain ⟨-, ⟨hcnt, hacc, -⟩, -⟩ := hslot
  have hmerged : (completed (.bsMerge S T) s).slot S = (s.slot S).appendBits (s.slot T).wbits :=
    (slot_freeSlot_ne hST).trans (slot_setSlot_same hS.1 _)
  have hfreed : (completed (.bsMerge S T) s).slot T = emptySlot .free :=
    slot_freeSlot_same (by simpa using hT.1)
  have hothers (j : Nat) (hj : j ∉ [S, T]) : (completed (.bsMerge S T) s).slot j = s.slot j := by
    obtain ⟨hjS, hjT⟩ : j ≠ S ∧ j ≠ T := by simpa using hj
    exact (slot_freeSlot_ne hjT).trans (slot_setSlot_ne hjS _)
  refine ⟨_, ⟨merge_replies hST hS hT hmS hmT hroom, rfl⟩, ⟨rfl, rfl, rfl, rfl, rfl, by simp [completed]⟩,
    keepsSlotsBut_of_slot hothers, ?_, ?_, ?_, hfreed⟩
  · exact (congrArg Slot.wbits hmerged).trans (appendBits_spec _ _ hcnt hacc).1
  · exact (congrArg Slot.owner hmerged).trans ((appendBits_owner _ _).trans hS.2)
  · exact (congrArg Slot.mode hmerged).trans ((appendBits_mode _ _).trans hmS)

/-! ### BS_REWIND -/

/-- The unread bits of a stream that is READING, with the cursor moved back: the rest of the active byte, then the buffer from
byte 1 on (R29, R114). -/
theorem rbits_rewind {t : Slot} (hp : t.progress = .reading) :
    Slot.rbits { t with cursor := 0 } = topBits t.rdByte t.rdLeft ++ t.bitsFrom 1 := by
  simp only [Slot.rbits, hp]
  rfl

/-- Settles O32: the command writes the cursor, and the unread bits start from there after the active byte. -/
theorem rewindMovesTheCursorOnly : Obligations.RewindMovesTheCursorOnly := by
  intro s S hhost
  obtain ⟨t, hanswer, hunits, hothers, ht⟩ := answers_write (i := .bsRewind S) hhost.1
    (guarded_pass (hostStream_passes hhost))
  refine ⟨t, hanswer, hunits, hothers, ht, fun hok hp => ?_⟩
  rw [ht, rbits_rewind hp, remaining_of_reading (rewind_ok hok hhost.2) hp]
  exact ⟨rfl, by simp [eq_comm (a := 1)]⟩

/-! ### BS_NEW -/

/-- The row of BS_NEW is the only one with its opcode (R79). -/
theorem row_of_bsNew : ∀ row ∈ rows, row.opcode = 0x10 → row = ⟨0x10, 0x00000010, 0xFFFFF0FF⟩ := by decide

/-- The word of BS_NEW has the match and mask of its row (R79, R105). -/
theorem bsNew_word (S : Nat) : encodeWord (.bsNew S) &&& 0xFFFFF0FF = 0x00000010 := by
  obtain ⟨row, hrow, hmatch⟩ := encodedWord (.bsNew S)
  have hop : row.opcode = 0x10 := (fieldOP_of_match hrow hmatch).symm.trans (fieldOP_pack _ _ _ _ _ _)
  obtain rfl := row_of_bsNew row hrow hop
  exact hmatch

/-- A guarded command with a failing check answers with the error of the first one (R175, R178). -/
theorem answers_failure {i : Instr} {s : State} {cs : Checks} {effect : Result} {e : Status}
    (h : exec i s = guarded i s cs effect) (hfail : firstFailure cs = some e) :
    ∃ t, Answers i s t { status := e, results := {}, out := [] } :=
  ⟨_, h.trans (by rw [guarded, hfail]; rfl), rfl⟩

/-- Settles O26: by the slot that the command names, outside the block, the decoder's, or any other. -/
theorem newStreamIsEmpty : Obligations.NewStreamIsEmpty := by
  intro s S
  refine ⟨bsNew_word S, fun hout => ?_, fun hin ho => ?_, fun hin ho => ?_⟩
  · exact answers_failure (i := .bsNew S) rfl (by simp [firstFailure, noSuchSlot, hout])
  · exact answers_failure (i := .bsNew S) rfl (by simp [firstFailure, noSuchSlot_of_inside hin, ho])
  · obtain ⟨t, hanswer, hunits, hothers, ht⟩ := answers_write (i := .bsNew S) hin
      (guarded_pass (by simp [firstFailure, noSuchSlot_of_inside hin, ho]))
    exact ⟨t, hanswer, hunits, hothers, ht, by rw [ht]; rfl⟩

/-! ### BS_INFO -/

/-- A legal slot has at most eight bits left in the active byte (R26). -/
theorem rdLeft_le {cap : Option Nat} {t : Slot} (h : t.Ok cap) : t.rdLeft ≤ 8 := by
  obtain ⟨-, ⟨-, -, hwrite⟩, ⟨-, -, -, hread, hreading, hfinished⟩, -, -⟩ := h
  cases hp : t.progress with
  | notStarted =>
    cases hm : t.mode with
    | write =>
      obtain ⟨-, -, hleft, -⟩ := hwrite hm
      omega
    | read => exact absurd hp (hread hm).1
  | reading => exact (hreading hp).2.1
  | finished =>
    have hleft := (hfinished hp).1
    omega

theorem owner_code_lt (o : Owner) : o.code < 2 ^ 64 := by cases o <;> decide

theorem mode_code_lt (m : Mode) : m.code < 2 ^ 64 := by cases m <;> decide

theorem progress_code_lt (p : Progress) : p.code < 2 ^ 64 := by cases p <;> decide

/-- A byte as a result word (R77). -/
theorem byteWord_toNat (b : Byte) : (b.setWidth 64).toNat = b.toNat := BitVec.toNat_setWidth_of_le (by decide)

/-- Settles O36: the query passes its only check, and every field of a legal slot but `len` and `cursor` fits (log 5). -/
theorem infoReturnsTheSlot : Obligations.InfoReturnsTheSlot := by
  intro s S hin hok
  obtain ⟨t, hanswer, hunits, hslots⟩ := answers_query (i := .bsInfo S) (s := s)
    (guarded_pass (by simp [firstFailure, noSuchSlot_of_inside hin]))
  have hleft := rdLeft_le hok
  obtain ⟨-, ⟨hcnt, -, -⟩, ⟨-, hlast, -⟩, -, -⟩ := hok
  exact ⟨t, _, hanswer, hunits, hslots, resultWord_toNat (owner_code_lt _), resultWord_toNat (mode_code_lt _),
    resultWord_toNat (progress_code_lt _), resultWord_toNat, byteWord_toNat _, resultWord_toNat (by omega),
    resultWord_toNat, byteWord_toNat _, resultWord_toNat (by omega), resultWord_toNat (by omega)⟩

end Sys2Proof.Machine
end

section
/-! PROOFS. The interval arithmetic by itself: the narrowing, the shared leading bits and the renormalisation (spec/41_encoder.md
rules R130 to R132 and R141, spec/90_conflicts.md C2). -/

namespace Sys2Proof.Machine

/-! ### The shared leading bits -/

/-- `SharedPrefix` is at least `k` exactly when the quotients by `2^(m-k)` agree (R131). -/
theorem le_sharedPrefix_iff_div {l u m k : Nat} (hl : l < 2 ^ m) (hu : u < 2 ^ m) (hk : k ≤ m) :
    k ≤ sharedPrefix l u m ↔ l / 2 ^ (m - k) = u / 2 ^ (m - k) :=
  (le_sharedPrefix_iff l u hk).trans (div_eq_iff_testBit hl hu).symm

/-- Settles O46: the quotients agree for every `k` up to `SharedPrefix`, and the loop emits one bit a turn. -/
theorem sharedPrefixIsTheLargest : Obligations.SharedPrefixIsTheLargest := by
  intro l u m hl hu
  have hle := sharedPrefix_le l u m
  refine ⟨hle, (le_sharedPrefix_iff_div hl hu hle).mp (Nat.le_refl _), fun k hk => (le_sharedPrefix_iff_div hl hu hk).mpr,
    fun heq => ?_, renorm_length l u m⟩
  subst heq
  exact Nat.le_antisymm hle ((le_sharedPrefix_iff_div hl hl (Nat.le_refl m)).mpr rfl)

/-! ### The renormalisation -/

/-- The renormalisation in closed form, on numbers (R132). -/
theorem renorm_closed {l u m : Nat} (hm : 1 ≤ m) (hl : l < 2 ^ m) (hu : u < 2 ^ m) :
    renorm l u m =
      (l * 2 ^ sharedPrefix l u m % 2 ^ m, u * 2 ^ sharedPrefix l u m % 2 ^ m + (2 ^ sharedPrefix l u m - 1),
        (bitsOf m l).take (sharedPrefix l u m)) :=
  renormLoop_closed hm m l u hl hu (sharedPrefix_le l u m)

/-- Settles O47: the shifts and masks of R132 are those of the closed form on numbers. -/
theorem renormEqualsItsClosedForm : Obligations.RenormEqualsItsClosedForm := by
  intro l u m hm hl hu
  rw [renorm_closed hm hl hu, shl_mask, shl_mask, Nat.shiftLeft_eq 1, Nat.one_mul, or_low (sharedPrefix_le l u m)]

/-- A turn, taken when the top bits agree, maps the difference `d` of the bounds to `2 d + 1` (C2). -/
theorem turn_widens {l u m : Nat} (hm : 1 ≤ m) (h : l ≤ u) (hu : u < 2 ^ m)
    (htop : l &&& msbMask m = u &&& msbMask m) :
    (((u <<< 1) &&& validMask m) ||| 1) - ((l <<< 1) &&& validMask m) = 2 * (u - l) + 1 := by
  have hpre : l / 2 ^ (m - 1) = u / 2 ^ (m - 1) :=
    (le_sharedPrefix_iff_div (h.trans_lt hu) hu hm).mp ((top_eq_iff hm).mp htop)
  have hl' := Nat.div_add_mod l (2 ^ (m - 1))
  have hu' := Nat.div_add_mod u (2 ^ (m - 1))
  rw [hpre] at hl'
  have hfill : u * 2 ^ 1 % 2 ^ m ||| 1 = u * 2 ^ 1 % 2 ^ m + 1 := or_low (k := 1) hm
  rw [shl_mask, shl_mask, hfill, shl_of_prefix l hm, shl_of_prefix u hm]
  omega

/-- Settles O48: the loop stops because the bounds share no leading bit, and with fuel for that any fuel is enough (log 8). -/
theorem renormEndsWithDifferingTopBits : Obligations.RenormEndsWithDifferingTopBits := by
  intro l u m hm hl hu
  have hle := sharedPrefix_le l u m
  have hapart : sharedPrefix (renorm l u m).1 (renorm l u m).2.1 m = 0 := renormLoop_apart hm m l u hl hu hle
  refine ⟨renorm_length l u m, hle, fun htop => ?_, fun fuel hfuel => ?_, fun h htop => turn_widens hm h hu htop⟩
  · have hshare := (top_eq_iff hm).mp htop
    omega
  · rw [renorm_closed hm hl hu, renormLoop_closed hm fuel l u hl hu (hle.trans hfuel)]

/-- `m`-bit bounds in order that share no leading bit lie on either side of the middle (R140). -/
theorem straddles_of_apart {l u m : Nat} (hm : 1 ≤ m) (h : l ≤ u) (hu : u < 2 ^ m) (hapart : sharedPrefix l u m = 0) :
    l < 2 ^ (m - 1) ∧ 2 ^ (m - 1) ≤ u := by
  have hne : l / 2 ^ (m - 1) ≠ u / 2 ^ (m - 1) := fun heq => by
    have hshare := (le_sharedPrefix_iff_div (h.trans_lt hu) hu hm).mpr heq
    omega
  have hdouble : 2 ^ (m - 1) * 2 = 2 ^ m := Nat.two_pow_pred_mul_two hm
  constructor
  · by_contra hl
    refine hne ((Nat.div_eq_of_lt_le ?_ ?_).trans (Nat.div_eq_of_lt_le (k := 1) ?_ ?_).symm) <;> omega
  · by_contra hu'
    refine hne ((Nat.div_eq_of_lt ?_).trans (Nat.div_eq_of_lt ?_).symm) <;> omega

/-- After the renormalisation the bounds lie on either side of the middle (R140). -/
theorem renorm_straddles {l u m : Nat} (hm : 1 ≤ m) (h : l ≤ u) (hu : u < 2 ^ m) :
    (renorm l u m).1 < 2 ^ (m - 1) ∧ 2 ^ (m - 1) ≤ (renorm l u m).2.1 := by
  obtain ⟨hord, hlt⟩ := renorm_bounds hm h hu
  exact straddles_of_apart hm hord hlt (renormLoop_apart hm m l u (h.trans_lt hu) hu (sharedPrefix_le l u m))

/-! ### The narrowing -/

/-- The narrowing fails exactly for an MPS with `temp = 0` (R130). -/
theorem narrow_none_iff {l0 u0 cmp tot : Nat} {mps : Bool} :
    narrow l0 u0 mps cmp tot = none ↔ mps = true ∧ (u0 - l0 + 1) * cmp / tot = 0 := by
  rw [narrow_cases]
  generalize (u0 - l0 + 1) * cmp / tot = w
  cases mps <;> simp

/-- A narrowing that does not fail keeps one bound and moves the other by `temp` (R130). -/
theorem narrow_some {l0 u0 cmp tot : Nat} {mps : Bool} {l1 u1 temp : Nat}
    (h : narrow l0 u0 mps cmp tot = some (l1, u1, temp)) :
    temp = (u0 - l0 + 1) * cmp / tot ∧ (mps = true → l1 = l0 ∧ u1 + 1 = l0 + temp) ∧
    (mps = false → l1 = l0 + temp ∧ u1 = u0) := by
  rw [narrow_cases] at h
  generalize (u0 - l0 + 1) * cmp / tot = w at h
  cases mps with
  | true =>
    obtain ⟨hw, rfl, rfl, rfl⟩ : w ≠ 0 ∧ l0 = l1 ∧ l0 + w - 1 = u1 ∧ w = temp := by simpa using h
    exact ⟨rfl, fun _ => ⟨rfl, by omega⟩, nofun⟩
  | false =>
    obtain ⟨rfl, rfl, rfl⟩ : l0 + w = l1 ∧ u0 = u1 ∧ w = temp := by simpa using h
    exact ⟨rfl, nofun, fun _ => ⟨rfl, rfl⟩⟩

/-- Settles O49: `temp` is less than the width of the interval, so either subinterval is inside it. -/
theorem narrowStaysInsideTheInterval : Obligations.NarrowStaysInsideTheInterval := by
  intro l0 u0 cmp tot mps h0 _ hlt
  refine ⟨narrow_none_iff, fun l1 u1 temp h => ?_⟩
  obtain ⟨htemp, hmps, hlps⟩ := narrow_some h
  obtain ⟨hord, hupper⟩ := narrow_bounds h0 hlt h
  have hinside : temp < u0 - l0 + 1 := htemp ▸ temp_lt (by omega) hlt
  have hlower : l0 ≤ l1 := by
    cases mps with
    | true => exact (hmps rfl).1.ge
    | false => exact (Nat.le_add_right l0 temp).trans_eq (hlps rfl).1.symm
  exact ⟨htemp, hinside, hlower, hord, hupper, hmps, hlps⟩

end Sys2Proof.Machine
end

section
/-! PROOFS. The commands of the encoder: ENC_NEW, ENC_ENCODE and ENC_CLOSE (spec/41_encoder.md rules R130 to R136 and R142). -/

namespace Sys2Proof.Machine

open Sys2Proof.Claims

/-! ### ENC_NEW -/

/-- The row of ENC_NEW is the only one with its opcode (R79). -/
theorem row_of_encNew : ∀ row ∈ rows, row.opcode = 0x20 → row = ⟨0x20, 0x00000020, 0xFF80FFFF⟩ := by decide

/-- The word of ENC_NEW has the match and mask of its row (R79, R134). -/
theorem encNew_word (N : Nat) : encodeWord (.encNew N) &&& 0xFF80FFFF = 0x00000020 := by
  obtain ⟨row, hrow, hmatch⟩ := encodedWord (.encNew N)
  have hop : row.opcode = 0x20 := (fieldOP_of_match hrow hmatch).symm.trans (fieldOP_pack _ _ _ _ _ _)
  obtain rfl := row_of_encNew row hrow hop
  exact hmatch

/-- Settles O37: by the only check, that of the precision. -/
theorem newEncoderIsReady : Obligations.NewEncoderIsReady := by
  intro s N
  refine ⟨encNew_word N, fun hout => ?_, fun h1 h32 => ?_⟩
  · have hbad : badPrecision N = true := decide_eq_true hout
    exact answers_failure (i := .encNew N) rfl (by simp [firstFailure, hbad])
  · have hgood : badPrecision N = false := decide_eq_false (not_or.mpr ⟨Nat.not_lt.mpr h1, Nat.not_lt.mpr h32⟩)
    have hreply : exec (.encNew N) s = reply (completed (.encNew N) s) {} [] :=
      guarded_pass (by simp [firstFailure, hgood])
    refine ⟨_, ⟨hreply, rfl⟩, ⟨rfl, rfl, rfl, rfl, rfl⟩, ?_⟩
    rw [← validMask_eq]
    rfl

/-! ### The narrowed and renormalised interval of a unit -/

/-- The narrowing of an interval with room for the symbol does not fail (R130). -/
theorem narrow_of_room {low high A B : Word} {mps : Bool} (h : mps = true → tempOf low high A B ≠ 0) :
    ∃ l u temp, narrow low.toNat high.toNat mps A.toNat B.toNat = some (l, u, temp) := by
  obtain ⟨⟨l, u, temp⟩, hnarrow⟩ := Option.ne_none_iff_exists'.mp fun hnone =>
    h (narrow_none_iff.mp hnone).1 (narrow_none_iff.mp hnone).2
  exact ⟨l, u, temp, hnarrow⟩

/-- The renormalised bounds as words (R132). -/
theorem renorm_words {l u m : Nat} (h1 : 1 ≤ m) (h32 : m ≤ 32) (h : l ≤ u) (hu : u < 2 ^ m) :
    (BitVec.ofNat 64 (renorm l u m).1).toNat = l * 2 ^ sharedPrefix l u m % 2 ^ m ∧
    (BitVec.ofNat 64 (renorm l u m).2.1).toNat =
      u * 2 ^ sharedPrefix l u m % 2 ^ m + (2 ^ sharedPrefix l u m - 1) := by
  obtain ⟨hord, hlt⟩ := renorm_bounds h1 h hu
  rw [ofNat_toNat_of_lt h32 hlt, ofNat_toNat_of_lt h32 (hord.trans_lt hlt), renorm_closed h1 (h.trans_lt hu) hu]
  exact ⟨rfl, rfl⟩

/-! ### ENC_ENCODE -/

/-- The number of bits shifted out, from the narrowing itself (R131, R135). -/
theorem encodeShift_of_narrow {e : EncoderUnit} {V P : Bool} {A B : Word} {l u temp : Nat}
    (h : narrow e.low.toNat e.high.toNat (isMps V P) A.toNat B.toNat = some (l, u, temp)) :
    encodeShift e V P A B = sharedPrefix l u e.m := by
  rw [encodeShift, show (V == P) = isMps V P from rfl, narrowed_of_narrow h]

/-- What ENC_ENCODE leaves when its interval narrows (R135). -/
theorem completed_encEncode {s : State} {S : Nat} {V P : Bool} {A B : Word} {l u temp : Nat}
    (h : narrow s.enc.low.toNat s.enc.high.toNat (isMps V P) A.toNat B.toNat = some (l, u, temp)) :
    completed (.encEncode S V P A B) s =
      (s.setSlot S ((s.slot S).appendBits (renorm l u s.enc.m).2.2)).setEnc
        { s.enc with
          low := BitVec.ofNat 64 (renorm l u s.enc.m).1
          high := BitVec.ofNat 64 (renorm l u s.enc.m).2.1 } := by
  simp only [completed, h, Option.getD_some]

section Encode
variable {s : State} {S : Nat} {V P : Bool} {A B : Word} (hhost : HostMayUse s S) (hm : (s.slot S).mode = .write)
  (hp : s.enc.phase = .ready) (hctx : contextOK A.toNat B.toNat s.enc.m = true)
include hhost hm hp hctx

/-- ENC_ENCODE passes the checks it makes before the narrowing (R135). -/
theorem encode_passes :
    firstFailure ((noSuchSlot s S, .eParam) :: hostSlot (s.slot S)
      [ (decide (s.enc.phase ≠ .ready), .eState),
        (decide ((s.slot S).mode = .read), .eMode),
        (!contextOK A.toNat B.toNat s.enc.m, .eDomain) ]) = none :=
  hostStream_passes_with hhost (pre := []) rfl (by simp [firstFailure, hp, hm, hctx])

/-- A symbol that the interval has no room for raises E_DOMAIN (R130, R142). -/
theorem encode_raises (h : narrow s.enc.low.toNat s.enc.high.toNat (isMps V P) A.toNat B.toNat = none) :
    exec (.encEncode S V P A B) s = raise (.encEncode S V P A B) .eDomain s := by
  refine (guarded_pass (encode_passes hhost hm hp hctx)).trans ?_
  rw [h]

/-- Any other symbol has the capacity check left to pass (R135, R178). -/
theorem encode_guarded {l u temp : Nat}
    (h : narrow s.enc.low.toNat s.enc.high.toNat (isMps V P) A.toNat B.toNat = some (l, u, temp)) :
    exec (.encEncode S V P A B) s =
      guarded (.encEncode S V P A B) s
        [(!(s.slot S).fits s.capacity (encodeShift s.enc V P A B), .eCapacity)]
        (reply (completed (.encEncode S V P A B) s) {} []) := by
  refine (guarded_pass (encode_passes hhost hm hp hctx)).trans ?_
  rw [encodeShift_of_narrow h, completed_encEncode h, h, ← renorm_length]

end Encode

/-- A command that replies from the state with a slot and the encoder written answers OK, and nothing else changes. -/
theorem answers_writeEnc {i : Instr} {s : State} {S : Nat} {u : Slot} {e : EncoderUnit} {r : Results} {out : List Byte}
    (hS : S < s.slots.length) (h : exec i s = reply ((s.setSlot S u).setEnc e) r out) :
    ∃ t, Answers i s t (okWith r out) ∧ KeepsSlotsBut [S] s t ∧
      (t.dec = s.dec ∧ t.err = s.err ∧ t.capacity = s.capacity ∧ t.pending = s.pending) ∧ t.slot S = u ∧ t.enc = e :=
  ⟨_, ⟨h, rfl⟩, keepsSlotsBut_of_slots rfl, ⟨rfl, rfl, rfl, rfl⟩, slot_setSlot_same hS u, rfl⟩

/-- Settles O38: the interval narrows and the bits fit, and the renormalisation has its closed form. -/
theorem encodeNarrowsAndEmits : Obligations.EncodeNarrowsAndEmits := by
  intro s S V P A B hinv hhost hm hp h0 hAB hB hdomain hroom
  obtain ⟨-, hprecision, hord, hmax⟩ := hinv.enc
  obtain ⟨h1, h32⟩ := hprecision (by simp [hp])
  obtain ⟨-, ⟨hcnt, hacc, -⟩, -⟩ := hinv.slots _ (slot_mem hhost.1)
  obtain ⟨l, u, temp, hnarrow⟩ := narrow_of_room (mps := isMps V P) fun hmps => hdomain (eq_of_beq hmps)
  obtain ⟨hle, hupper⟩ := narrow_bounds hord hAB hnarrow
  have hu : u < 2 ^ s.enc.m := hupper.trans_lt (le_validMask_iff.mp hmax)
  obtain ⟨hlow, hhigh⟩ := renorm_words h1 h32 hle hu
  have hreply := (encode_guarded hhost hm hp (contextOK_iff.mpr ⟨h0, hAB, hB⟩) hnarrow).trans
    (guarded_pass (by simp [firstFailure, Slot.fits, withinCapacity_of_room hroom]))
  rw [completed_encEncode hnarrow] at hreply
  obtain ⟨t, hanswer, hothers, ⟨hdec, herr, hcapacity, hpending⟩, hslot, henc⟩ := answers_writeEnc hhost.1 hreply
  rw [encodeShift_of_narrow hnarrow, show (V == P) = isMps V P from rfl, narrowed_of_narrow hnarrow]
  refine ⟨t, hanswer, hothers, hdec, herr, hcapacity, hpending, ?_, ?_⟩
  · rw [hslot, (appendBits_spec _ _ hcnt hacc).1, renorm_closed h1 (hle.trans_lt hu) hu]
  · rw [henc]
    exact ⟨hp, rfl, hlow, hhigh⟩

/-- A guarded command that has a reply for its effect answers OK, or with the error of a failing check (R175). -/
theorem answers_guarded {i : Instr} {s s' : State} {cs : Checks} {r : Results} {out : List Byte}
    (h : exec i s = guarded i s cs (reply s' r out)) (hresp : s'.responses = s.responses) :
    ∃ t a, Answers i s t a ∧ (a.status = .ok ∨ (true, a.status) ∈ cs) := by
  rcases guarded_cases i s cs (reply s' r out) with ⟨e, hfail, hraise⟩ | ⟨-, hreply⟩
  · exact ⟨_, _, ⟨h.trans hraise, rfl⟩, .inr (firstFailure_some hfail)⟩
  · exact ⟨_, _, ⟨h.trans hreply, congrArg (· ++ _) hresp⟩, .inl rfl⟩

/-- An MPS finds no room in the interval exactly when its product is below the total (R130, R142). -/
theorem narrow_mps_none_iff {s : State} {V : Bool} {A B : Word} (hB : 0 < B.toNat) :
    narrow s.enc.low.toNat s.enc.high.toNat (isMps V V) A.toNat B.toNat = none ↔
      (s.enc.high.toNat - s.enc.low.toNat + 1) * A.toNat < B.toNat := by
  rw [narrow_none_iff, Nat.div_eq_zero_iff_lt hB]
  simp [isMps]

/-- Settles O52: by whether the interval narrows, and when it does, by the capacity check that is left. -/
theorem noRescalingOfANarrowInterval : Obligations.NoRescalingOfANarrowInterval := by
  intro s S V A B hhost hm hp h0 hAB hB
  have hctx := contextOK_iff.mpr ⟨h0, hAB, hB⟩
  have hroom := narrow_mps_none_iff (s := s) (V := V) (A := A) (h0.trans hAB)
  cases hnarrow : narrow s.enc.low.toNat s.enc.high.toNat (isMps V V) A.toNat B.toNat with
  | none =>
    exact ⟨_, _, ⟨encode_raises hhost hm hp hctx hnarrow, rfl⟩, iff_of_true rfl (hroom.mp hnarrow), fun _ => ⟨rfl, rfl⟩⟩
  | some r =>
    have hwide := mt hroom.mpr (by simp [hnarrow])
    obtain ⟨l, u, temp⟩ := r
    have hexec := encode_guarded hhost hm hp hctx hnarrow
    obtain ⟨t, a, hanswer, hstatus⟩ := answers_guarded hexec (by rw [completed_encEncode hnarrow]; rfl)
    have hother : a.status ≠ .eDomain := by
      intro hdomain
      simp [hdomain] at hstatus
    exact ⟨t, a, hanswer, iff_of_false hother hwide, fun hdomain => absurd hdomain hother⟩

/-! ### ENC_CLOSE -/

/-- Settles O39: the checks pass, and `AppendBits` appends the bits of `low`. -/
theorem closeAppendsLow : Obligations.CloseAppendsLow := by
  intro s S hhost hslot hm hp hlow hroom
  obtain ⟨-, ⟨hcnt, hacc, -⟩, -⟩ := hslot
  have hreply : exec (.encClose S) s = reply (completed (.encClose S) s) {} [] :=
    guarded_pass (hostStream_passes_with hhost (pre := []) rfl
      (by simp [firstFailure, hp, hm, Slot.fits, withinCapacity_of_room hroom]))
  obtain ⟨t, hanswer, hothers, ⟨hdec, herr, hcapacity, hpending⟩, ht, henc⟩ := answers_writeEnc hhost.1 hreply
  have hbits : (t.slot S).wbits = (s.slot S).wbits ++ bitsOf s.enc.m s.enc.low.toNat := by
    rw [ht, (appendBits_spec _ _ hcnt hacc).1]
  refine ⟨t, hanswer, hothers, henc, hdec, herr, hcapacity, hpending, ?_⟩
  rw [hbits, List.drop_left, num_bitsOf]
  exact ⟨List.prefix_append _ _, by simp, Nat.mod_eq_of_lt hlow⟩

end Sys2Proof.Machine
end

section
/-! PROOFS. The command DEC_DECODE, and what the commands change of the two units (spec/10_state.md rule R38,
spec/41_encoder.md rules R134 to R140, spec/42_decoder.md rules R150 to R157). -/

namespace Sys2Proof.Machine

open Sys2Proof.Claims

/-! ### DEC_DECODE -/

/-- The number of bits read, from the narrowing itself (R131, R153). -/
theorem decodeShift_of_narrow {d : DecoderUnit} {A B : Word} {l u temp : Nat}
    (h : narrow d.low.toNat d.high.toNat (decision d A B) A.toNat B.toNat = some (l, u, temp)) :
    decodeShift d A B = sharedPrefix l u d.m := by
  rw [decodeShift, narrowed_of_narrow h]

/-- The decision is the model's comparison of the scaled tag (R152, R153). -/
theorem decision_eq (d : DecoderUnit) (A B : Word) :
    decision d A B = decide (tagStar d.tag.toNat d.low.toNat d.high.toNat B.toNat < A.toNat) := rfl

/-- What DEC_DECODE leaves when its interval narrows (R153). -/
theorem completed_decDecode {s : State} {P : Bool} {A B : Word} {l u temp : Nat}
    (h : narrow s.dec.low.toNat s.dec.high.toNat (decision s.dec A B) A.toNat B.toNat = some (l, u, temp)) :
    completed (.decDecode P A B) s =
      (s.setSlot s.dec.slot ((s.slot s.dec.slot).readBits (sharedPrefix l u s.dec.m)).2).setDec
        { s.dec with
          low := BitVec.ofNat 64 (renorm l u s.dec.m).1
          high := BitVec.ofNat 64 (renorm l u s.dec.m).2.1
          tag := BitVec.ofNat 64
            (shiftTag s.dec.tag.toNat s.dec.m ((s.slot s.dec.slot).readBits (sharedPrefix l u s.dec.m)).1)
          count := s.dec.count + 1 } := by
  rw [decision_eq] at h
  simp only [completed, h, Option.getD_some]

/-- With a tag that is not below `low`, the decision for an MPS says that the interval has room for it (R152, R153). -/
theorem room_of_decision {d : DecoderUnit} {A B : Word} (hA : 0 < A.toNat) (hAB : A.toNat < B.toNat)
    (htag : d.low.toNat ≤ d.tag.toNat) (h : decision d A B = true) : tempOf d.low d.high A B ≠ 0 := by
  have hbelow : d.tag.toNat + 1 ≤ d.low.toNat + tempOf d.low d.high A B :=
    (tagStar_lt_iff htag hA hAB).mp (of_decide_eq_true h)
  omega

/-- The symbol as a result word: 1 exactly when the decision agrees with `P` (R77, R153). -/
theorem decodedSymbol_word (mps P : Bool) : bitWord (decodedSymbol mps P) = if mps = P then 1 else 0 := by
  cases mps <;> cases P <;> rfl

/-- DEC_DECODE replies when its interval narrows and the bits to read are there (R153). -/
theorem decode_replies {s : State} {P : Bool} {A B : Word} {l u temp : Nat} (hp : s.dec.phase = .ready)
    (hctx : contextOK A.toNat B.toNat s.dec.m = true) (htag : s.dec.low.toNat ≤ s.dec.tag.toNat)
    (h : narrow s.dec.low.toNat s.dec.high.toNat (decision s.dec A B) A.toNat B.toNat = some (l, u, temp))
    (hleft : sharedPrefix l u s.dec.m ≤ (s.slot s.dec.slot).remaining) :
    exec (.decDecode P A B) s =
      reply (completed (.decDecode P A B) s) { r0 := if decision s.dec A B = P then 1 else 0 } [] := by
  refine (guarded_pass (by simp [firstFailure, hp, hctx, htag])).trans ?_
  rw [completed_decDecode h, ← decodedSymbol_word]
  dsimp only
  rw [← decision_eq, h]
  exact guarded_pass (by simp [firstFailure, hleft])

/-- A command that replies from the state with a slot and the decoder written answers OK, and nothing else changes. -/
theorem answers_writeDec {i : Instr} {s : State} {S : Nat} {u : Slot} {d : DecoderUnit} {r : Results} {out : List Byte}
    (hS : S < s.slots.length) (h : exec i s = reply ((s.setSlot S u).setDec d) r out) :
    ∃ t, Answers i s t (okWith r out) ∧ KeepsSlotsBut [S] s t ∧
      (t.enc = s.enc ∧ t.err = s.err ∧ t.capacity = s.capacity ∧ t.pending = s.pending) ∧ t.slot S = u ∧ t.dec = d :=
  ⟨_, ⟨h, rfl⟩, keepsSlotsBut_of_slots rfl, ⟨rfl, rfl, rfl, rfl⟩, slot_setSlot_same hS u, rfl⟩

/-- Settles O43: the interval narrows and the bits are there, and the renormalisation has its closed form. -/
theorem decodeFollowsTheTag : Obligations.DecodeFollowsTheTag := by
  intro s P A B hinv hp h0 hAB hB htag hleft
  have hpresent : s.dec.phase ≠ .absent := by simp [hp]
  obtain ⟨hin, -, hm⟩ := decoder_slot hinv hpresent
  obtain ⟨-, hprecision, -, hord, hmax, -⟩ := hinv.dec
  obtain ⟨h1, h32, -⟩ := hprecision hpresent
  obtain ⟨-, -, hread, -⟩ := hinv.slots _ (slot_mem hin)
  obtain ⟨l, u, temp, hnarrow⟩ := narrow_of_room (room_of_decision h0 hAB htag)
  obtain ⟨hle, hupper⟩ := narrow_bounds hord hAB hnarrow
  obtain ⟨hlow, hhigh⟩ := renorm_words h1 h32 hle (hupper.trans_lt (le_validMask_iff.mp hmax))
  rw [decodeShift_of_narrow hnarrow] at hleft ⊢
  rw [narrowed_of_narrow hnarrow]
  have hreply := decode_replies (P := P) hp (contextOK_iff.mpr ⟨h0, hAB, hB⟩) htag hnarrow
    (hleft.trans_eq (remaining_of_read hm).symm)
  rw [completed_decDecode hnarrow] at hreply
  obtain ⟨t, hanswer, hothers, ⟨henc, herr, hcapacity, hpending⟩, hslot, hdec⟩ := answers_writeDec hin hreply
  obtain ⟨hbits, hrest, -, -⟩ := readBits_spec _ _ hm hread hleft
  have hlength : ((s.slot s.dec.slot).readBits (sharedPrefix l u s.dec.m)).1.length = sharedPrefix l u s.dec.m :=
    readBits_length _ _
  have hfits := hlength.trans_le (sharedPrefix_le l u s.dec.m)
  refine ⟨t, hanswer, hothers, by rw [hslot, hrest], ?_⟩
  rw [hdec]
  refine ⟨hp, rfl, rfl, hlow, hhigh, ?_, BitVec.toNat_add _ _, henc, herr, hcapacity, hpending⟩
  rw [ofNat_toNat_of_lt h32 (shiftTag_lt _ hfits), shiftTag_eq _ _ _ hfits, hlength, hbits]

/-! ### The interval after a command -/

/-- The interval that a symbol leaves in a unit lies on either side of the middle (R140). -/
theorem symbol_straddles {l0 u0 cmp tot m : Nat} {mps : Bool} {l u temp : Nat} (h1 : 1 ≤ m) (h32 : m ≤ 32)
    (h0 : l0 ≤ u0) (hmax : u0 ≤ validMask m) (hlt : cmp < tot) (h : narrow l0 u0 mps cmp tot = some (l, u, temp)) :
    (BitVec.ofNat 64 (renorm l u m).1).toNat < 2 ^ (m - 1) ∧
    2 ^ (m - 1) ≤ (BitVec.ofNat 64 (renorm l u m).2.1).toNat := by
  obtain ⟨hle, hupper⟩ := narrow_bounds h0 hlt h
  have hu : u < 2 ^ m := hupper.trans_lt (le_validMask_iff.mp hmax)
  obtain ⟨hord, hfits⟩ := renorm_bounds h1 hle hu
  rw [ofNat_toNat_of_lt h32 hfits, ofNat_toNat_of_lt h32 (hord.trans_lt hfits)]
  exact renorm_straddles h1 hle hu

/-- ENC_ENCODE succeeds only with a READY encoder and a Context that R133 allows (R135). -/
theorem encode_ready {s t : State} {S : Nat} {V P : Bool} {A B : Word} {a : Response}
    (h : Answers (.encEncode S V P A B) s t a) (hok : a.status = .ok) :
    s.enc.phase = .ready ∧ contextOK A.toNat B.toNat s.enc.m = true := by
  obtain ⟨hexec, hresp⟩ := h
  obtain ⟨hpass, -⟩ := guarded_of_ok (by simp [Checks.Errors, hostSlot]) hexec hresp hok
  obtain ⟨-, hpass⟩ := hostSlot_pass_after (pre := [_]) hpass
  obtain ⟨hready, hpass⟩ := firstFailure_pass hpass
  obtain ⟨-, hpass⟩ := firstFailure_pass hpass
  obtain ⟨hctx, -⟩ := firstFailure_pass hpass
  exact ⟨by simpa using hready, by simpa using hctx⟩

/-- DEC_DECODE succeeds only with a READY decoder, a Context that R133 allows and an interval that narrows (R153). -/
theorem decode_ready {s t : State} {P : Bool} {A B : Word} {a : Response} (h : Answers (.decDecode P A B) s t a)
    (hok : a.status = .ok) :
    s.dec.phase = .ready ∧ contextOK A.toNat B.toNat s.dec.m = true ∧
    ∃ l u temp, narrow s.dec.low.toNat s.dec.high.toNat (decision s.dec A B) A.toNat B.toNat = some (l, u, temp) := by
  obtain ⟨hexec, hresp⟩ := h
  obtain ⟨hpass, heffect⟩ := guarded_of_ok (by simp [Checks.Errors]) hexec hresp hok
  obtain ⟨hready, hpass⟩ := firstFailure_pass hpass
  obtain ⟨hctx, -⟩ := firstFailure_pass hpass
  refine ⟨by simpa using hready, by simpa using hctx, ?_⟩
  cases hnarrow : narrow s.dec.low.toNat s.dec.high.toNat (decision s.dec A B) A.toNat B.toNat with
  | none =>
    dsimp only at heffect
    rw [← decision_eq, hnarrow] at heffect
    cases (status_of_raise heffect hresp).symm.trans hok
  | some r => exact ⟨_, _, _, rfl⟩

/-- After a successful ENC_ENCODE the interval lies on either side of the middle (R140). -/
theorem encode_straddles {s t : State} {S : Nat} {V P : Bool} {A B : Word} {a : Response} (hinv : s.Inv)
    (h : Answers (.encEncode S V P A B) s t a) (hok : a.status = .ok) :
    t.enc.low.toNat < 2 ^ (t.enc.m - 1) ∧ 2 ^ (t.enc.m - 1) ≤ t.enc.high.toNat := by
  obtain ⟨hready, hctx⟩ := encode_ready h hok
  obtain ⟨-, hlt, -⟩ := contextOK_iff.mp hctx
  obtain ⟨l, u, temp, hnarrow, -⟩ := encode_narrows h hok
  obtain ⟨-, hprecision, hord, hmax⟩ := hinv.enc
  obtain ⟨h1, h32⟩ := hprecision (by simp [hready])
  rcases answers_cases h with ⟨hfail, -⟩ | ⟨-, -, -, henc, -⟩
  · exact absurd hok hfail
  · rw [henc, completed_encEncode hnarrow]
    exact symbol_straddles h1 h32 hord hmax hlt hnarrow

/-- After a successful DEC_DECODE the interval lies on either side of the middle (R140). -/
theorem decode_straddles {s t : State} {P : Bool} {A B : Word} {a : Response} (hinv : s.Inv)
    (h : Answers (.decDecode P A B) s t a) (hok : a.status = .ok) :
    t.dec.low.toNat < 2 ^ (t.dec.m - 1) ∧ 2 ^ (t.dec.m - 1) ≤ t.dec.high.toNat := by
  obtain ⟨hready, hctx, l, u, temp, hnarrow⟩ := decode_ready h hok
  obtain ⟨-, hlt, -⟩ := contextOK_iff.mp hctx
  obtain ⟨-, hprecision, -, hord, hmax, -⟩ := hinv.dec
  obtain ⟨h1, h32, -⟩ := hprecision (by simp [hready])
  rcases answers_cases h with ⟨hfail, -⟩ | ⟨-, -, -, -, hdec⟩
  · exact absurd hok hfail
  · rw [hdec, completed_decDecode hnarrow]
    exact symbol_straddles h1 h32 hord hmax hlt hnarrow

/-- Settles O25: the order and the maximum are in the invariant, which every command keeps; the middle is the
renormalisation's. -/
theorem intervalAfterCommand : Obligations.IntervalAfterCommand := by
  intro i s t a hinv hanswer hok
  have hinv' := exec_keepsInv hinv i t hanswer.1
  obtain ⟨-, -, hencOrd, hencMax⟩ := hinv'.enc
  obtain ⟨-, -, -, hdecOrd, hdecMax, -⟩ := hinv'.dec
  rw [validMask_eq] at hencMax hdecMax
  refine ⟨fun _ => ⟨hencOrd, hencMax⟩, fun _ => ⟨hdecOrd, hdecMax⟩, ?_, ?_⟩
  · rintro ⟨S, V, P, A, B, rfl⟩
    obtain ⟨hlow, hhigh⟩ := encode_straddles hinv hanswer hok
    exact ⟨hlow, hhigh, by omega⟩
  · rintro ⟨P, A, B, rfl⟩
    obtain ⟨hlow, hhigh⟩ := decode_straddles hinv hanswer hok
    exact ⟨hlow, hhigh, by omega⟩

/-! ### What a command changes of the units -/

/-- Settles O16: a command that fails keeps both units; one that succeeds writes the fields that its rule names. -/
theorem unitsChangeOnlyByTheirCommands : Obligations.UnitsChangeOnlyByTheirCommands := by
  intro i s t hexec
  rcases exec_cases hexec with ⟨-, henc, hdec⟩ | ⟨-, -, henc, hdec⟩
  · rw [henc, hdec]
    constructor <;> split <;> simp
  · rw [henc, hdec]
    cases i with
    | encNew => exact ⟨trivial, rfl⟩
    | encEncode => exact ⟨⟨rfl, rfl⟩, rfl⟩
    | encSetState => exact ⟨⟨rfl, rfl⟩, rfl⟩
    | encClose => exact ⟨⟨rfl, rfl, rfl⟩, rfl⟩
    | decNew => exact ⟨dropDecoderStream_enc s, trivial⟩
    | decInit => exact ⟨rfl, rfl, rfl, rfl, rfl, rfl⟩
    | decDecode => exact ⟨rfl, rfl, rfl, rfl⟩
    | decSetState => exact ⟨rfl, rfl, rfl, rfl, rfl, rfl⟩
    | _ => exact ⟨rfl, rfl⟩

end Sys2Proof.Machine
end

section
/-! PROOFS. The decision of the decoder as a test for the subinterval of the MPS, and the first tag (spec/42_decoder.md rules
R151, R152 and R158). -/

namespace Sys2Proof.Machine

open Sys2Proof.Claims

/-! ### DEC_INIT -/

/-- Settles O42: the checks pass, and `ReadBits` takes the tag's bits off the unread ones. -/
theorem initReadsTheTag : Obligations.InitReadsTheTag := by
  intro s hinv hp hn
  have hpresent : s.dec.phase ≠ .absent := by simp [hp]
  obtain ⟨hin, -, hm⟩ := decoder_slot hinv hpresent
  obtain ⟨-, hprecision, -⟩ := hinv.dec
  obtain ⟨-, h32, -⟩ := hprecision hpresent
  obtain ⟨-, -, hread, -⟩ := hinv.slots _ (slot_mem hin)
  have hreply : exec .decInit s = reply (completed .decInit s) {} [] :=
    guarded_pass (by simp [firstFailure, hp, remaining_of_read hm, hn])
  obtain ⟨t, hanswer, hothers, ⟨henc, herr, hcapacity, hpending⟩, hslot, hdec⟩ := answers_writeDec hin hreply
  obtain ⟨hbits, hrest, -, -⟩ := readBits_spec _ _ hm hread hn
  have htag : num ((s.slot s.dec.slot).rbits.take s.dec.m) < 2 ^ s.dec.m := by
    simpa [hn] using num_lt ((s.slot s.dec.slot).rbits.take s.dec.m)
  refine ⟨t, hanswer, hothers, by rw [hdec], ?_, by rw [hslot, hrest], henc, herr, hcapacity, hpending⟩
  rw [hdec, hbits, ofNat_toNat_of_lt h32 htag]

/-! ### The decision -/

/-- The tag of an interval lies in the subinterval of a symbol exactly when the decision is for that symbol (R130, R158). -/
theorem tag_in_narrowed_iff {tag l0 u0 cmp tot : Nat} {mps : Bool} {l1 u1 temp : Nat} (hlow : l0 ≤ tag) (hhigh : tag ≤ u0)
    (hc : 0 < cmp) (ht : cmp < tot) (h : narrow l0 u0 mps cmp tot = some (l1, u1, temp)) :
    (l1 ≤ tag ∧ tag ≤ u1) ↔ decide (tagStar tag l0 u0 tot < cmp) = mps := by
  obtain ⟨rfl, hmps, hlps⟩ := narrow_some h
  cases mps with
  | true =>
    obtain ⟨rfl, hu1⟩ := hmps rfl
    rw [decide_eq_true_iff, tagStar_lt_iff hlow hc ht]
    omega
  | false =>
    obtain ⟨rfl, rfl⟩ := hlps rfl
    rw [decide_eq_false_iff_not, tagStar_lt_iff hlow hc ht]
    omega

/-- What lies between two values keeps that place when the bits they share are dropped (R131). -/
theorem between_mod {l x u m k : Nat} (hl : l ≤ x) (hx : x ≤ u) (hu : u < 2 ^ m) (hk : k ≤ m)
    (h : k ≤ sharedPrefix l u m) : l % 2 ^ (m - k) ≤ x % 2 ^ (m - k) ∧ x % 2 ^ (m - k) ≤ u % 2 ^ (m - k) := by
  have hxl := between_prefix hl hx hu hk h
  have hul := between_prefix (hl.trans hx) (Nat.le_refl u) hu hk h
  have el := Nat.div_add_mod l (2 ^ (m - k))
  have ex := Nat.div_add_mod x (2 ^ (m - k))
  have eu := Nat.div_add_mod u (2 ^ (m - k))
  rw [hxl] at ex
  rw [hul] at eu
  omega

/-- A tag inside an interval is inside the renormalised one after as many shifts, whatever bits they read (R132, R158). -/
theorem shiftTag_inside {l tag u m : Nat} {q : List Bool} (hm : 1 ≤ m) (hl : l ≤ tag) (hx : tag ≤ u) (hu : u < 2 ^ m)
    (hq : q.length = sharedPrefix l u m) :
    (renorm l u m).1 ≤ shiftTag tag m q ∧ shiftTag tag m q ≤ (renorm l u m).2.1 := by
  have hk := sharedPrefix_le l u m
  obtain ⟨hlow, hhigh⟩ := between_mod hl hx hu hk (Nat.le_refl _)
  have hnum := num_lt q
  rw [renorm_closed hm (by omega) hu, shiftTag_eq tag m q (hq.trans_le hk), hq, shl_of_prefix l hk, shl_of_prefix tag hk,
    shl_of_prefix u hk]
  have hscaledLow := Nat.mul_le_mul_right (2 ^ sharedPrefix l u m) hlow
  have hscaledHigh := Nat.mul_le_mul_right (2 ^ sharedPrefix l u m) hhigh
  rw [hq] at hnum
  constructor
  · exact hscaledLow.trans (Nat.le_add_right _ _)
  · exact Nat.add_le_add hscaledHigh (Nat.le_sub_one_of_lt hnum)

/-- Settles O51: the decision without its divisions, and what it says of the narrowed and of the renormalised interval. -/
theorem decisionIsTheSubintervalTest : Obligations.DecisionIsTheSubintervalTest := by
  intro tag l0 u0 cmp tot m hlow h0 hc ht
  have htest := tagStar_lt_iff (u0 := u0) hlow hc ht
  have hroom : tagStar tag l0 u0 tot < cmp → (u0 - l0 + 1) * cmp / tot ≠ 0 := fun h => by
    have hbelow := htest.mp h
    omega
  refine ⟨htest, hroom, fun hhigh hm hu => ?_⟩
  obtain ⟨⟨l1, u1, temp⟩, hnarrow⟩ := Option.ne_none_iff_exists'.mp fun hnone => by
    obtain ⟨hmps, hzero⟩ := narrow_none_iff.mp hnone
    exact hroom (of_decide_eq_true hmps) hzero
  obtain ⟨hl1, hu1⟩ := (tag_in_narrowed_iff hlow hhigh hc ht hnarrow).mpr rfl
  have hupper := (narrow_bounds h0 ht hnarrow).2.trans_lt hu
  exact ⟨l1, u1, temp, hnarrow, hl1, hu1, fun q hq => shiftTag_inside hm hl1 hu1 hupper hq⟩

end Sys2Proof.Machine
end

section
/-! PROOFS. The round trip in numbers: what encoding and closing writes, seen through the `m` bits of the tag
(spec/42_decoder.md rules R158 and R159, spec/90_conflicts.md C3). -/

namespace Sys2Proof.Machine

open Sys2Proof.Claims

/-! ### Numbers of joined and of cut bit sequences (R12) -/

/-- A sequence put before another counts as the higher digits. -/
theorem num_append (p q : List Bool) : num (p ++ q) = num p * 2 ^ q.length + num q := by
  induction q using List.reverseRecOn with
  | nil => simp [num]
  | append_singleton q b ih =>
    rw [← List.append_assoc, num_append_bit, ih, num_append_bit, List.length_append, List.length_singleton, Nat.pow_succ]
    ring

/-- The leading bits are the higher digits. -/
theorem num_take (q : List Bool) (n : Nat) : num (q.take n) = num q / 2 ^ (q.length - n) := by
  have hrest := num_lt (q.drop n)
  rw [List.length_drop] at hrest
  have hsplit : num q = 2 ^ (q.length - n) * num (q.take n) + num (q.drop n) := by
    conv_lhs => rw [← List.take_append_drop n q]
    rw [num_append, List.length_drop, Nat.mul_comm]
  rw [hsplit, Nat.mul_add_div (by positivity), Nat.div_eq_of_lt hrest, Nat.add_zero]

/-! ### The first bits, as a tag -/

/-- The first `m` bits of a sequence with `e` before it: those of `e`, then as many of the first `m` bits as still fit. -/
theorem num_window {e bits : List Bool} {m : Nat} (he : e.length ≤ m) (hbits : m ≤ bits.length) :
    num ((e ++ bits).take m) = num e * 2 ^ (m - e.length) + num (bits.take m) / 2 ^ e.length := by
  have hcut : bits.take (m - e.length) = (bits.take m).take (m - e.length) := by
    rw [List.take_take, Nat.min_eq_left (Nat.sub_le m _)]
  have hkept : num (bits.take (m - e.length)) = num (bits.take m) / 2 ^ e.length := by
    rw [hcut, num_take, List.length_take, Nat.min_eq_left hbits, Nat.sub_sub_self he]
  rw [List.take_append, List.take_of_length_le he, num_append, List.length_take,
    Nat.min_eq_left ((Nat.sub_le m _).trans hbits), hkept]

/-- When the bits after a renormalisation start with a tag of the renormalised interval, then with the emitted bits before them
they start with a tag of the interval before it (R132, R158). -/
theorem window_inside {l u m : Nat} {bits : List Bool} (hm : 1 ≤ m) (h : l ≤ u) (hu : u < 2 ^ m) (hbits : m ≤ bits.length)
    (hinside : (renorm l u m).1 ≤ num (bits.take m) ∧ num (bits.take m) ≤ (renorm l u m).2.1) :
    l ≤ num (((renorm l u m).2.2 ++ bits).take m) ∧ num (((renorm l u m).2.2 ++ bits).take m) ≤ u := by
  have hk := sharedPrefix_le l u m
  have hprefix := between_prefix h (Nat.le_refl u) hu hk (Nat.le_refl _)
  have hemitted : num (renorm l u m).2.2 = l / 2 ^ (m - sharedPrefix l u m) := by
    rw [renorm_closed hm (h.trans_lt hu) hu, num_take, num_bitsOf, bitsOf_length, Nat.mod_eq_of_lt (h.trans_lt hu)]
  rw [num_window ((renorm_length l u m).trans_le hk) hbits, renorm_length, hemitted, Nat.mul_comm]
  obtain ⟨hlow, hhigh⟩ := hinside
  rw [renorm_closed hm (h.trans_lt hu) hu] at hlow hhigh
  dsimp only at hlow hhigh
  rw [shl_of_prefix _ hk] at hlow hhigh
  generalize sharedPrefix l u m = k at *
  have hpos : 0 < 2 ^ k := by positivity
  have hkeptLow : l % 2 ^ (m - k) ≤ num (bits.take m) / 2 ^ k := (Nat.le_div_iff_mul_le hpos).mpr hlow
  have hkeptHigh : num (bits.take m) / 2 ^ k < u % 2 ^ (m - k) + 1 := by
    rw [Nat.div_lt_iff_lt_mul hpos, Nat.succ_mul]
    omega
  have hl := Nat.div_add_mod l (2 ^ (m - k))
  have hu' := Nat.div_add_mod u (2 ^ (m - k))
  rw [hprefix] at hu'
  omega

/-- The tag moves on: shifted by as many bits as were emitted, and with as many bits read, it is the first `m` bits after those
emitted (R153, R159). -/
theorem window_shift {e bits : List Bool} {m : Nat} (he : e.length ≤ m) (hbits : m ≤ bits.length) :
    num ((e ++ bits).take m) * 2 ^ e.length % 2 ^ m + num (((e ++ bits).drop m).take e.length) = num (bits.take m) := by
  have hread : (((e ++ bits).drop m).take e.length).length = e.length := by
    rw [List.length_take, List.length_drop, List.length_append]
    omega
  have htag : (bits.take m).length = m := by rw [List.length_take, Nat.min_eq_left hbits]
  have hsplit : (e ++ bits).take m ++ ((e ++ bits).drop m).take e.length = e ++ bits.take m := by
    rw [← List.take_add, Nat.add_comm, List.take_length_add_append]
  have hnum := congrArg num hsplit
  rw [num_append, num_append, hread, htag] at hnum
  have hlow := num_lt (((e ++ bits).drop m).take e.length)
  rw [hread] at hlow
  have hroom := mod_add_le (num ((e ++ bits).take m)) he
  have hfits := num_lt (bits.take m)
  rw [htag] at hfits
  generalize num (((e ++ bits).drop m).take e.length) = r at *
  generalize num ((e ++ bits).take m) = x at *
  calc x * 2 ^ e.length % 2 ^ m + r = (x * 2 ^ e.length % 2 ^ m + r) % 2 ^ m := (Nat.mod_eq_of_lt (by omega)).symm
    _ = (num e * 2 ^ m + num (bits.take m)) % 2 ^ m := by rw [Nat.mod_add_mod, hnum]
    _ = num (bits.take m) := by rw [Nat.mul_add_mod_self_right, Nat.mod_eq_of_lt hfits]

/-! ### The code of a sequence of symbols -/

/-- `CodeOf m l u symbols bits`: encoding the symbols from the interval `{l, u}` of precision `m`, and closing, emits `bits`
(R135, R136). -/
inductive CodeOf (m : Nat) : Nat → Nat → List Symbol → List Bool → Prop
  | close (l u : Nat) : CodeOf m l u [] (bitsOf m l)
  | symbol {l u : Nat} {y : Symbol} {l1 u1 temp : Nat} {symbols : List Symbol} {bits : List Bool}
      (context : contextOK y.A.toNat y.B.toNat m = true)
      (narrowing : narrow l u (isMps y.V y.P) y.A.toNat y.B.toNat = some (l1, u1, temp))
      (rest : CodeOf m (renorm l1 u1 m).1 (renorm l1 u1 m).2.1 symbols bits) :
      CodeOf m l u (y :: symbols) ((renorm l1 u1 m).2.2 ++ bits)

/-- The closing alone has the bits of a tag (R136). -/
theorem CodeOf.length_ge {m l u : Nat} {symbols : List Symbol} {bits : List Bool} (h : CodeOf m l u symbols bits) :
    m ≤ bits.length := by
  induction h with
  | close => simp
  | symbol _ _ _ ih =>
    rw [List.length_append]
    omega

/-- The first `m` bits of a code are a tag of the interval it starts from (R158, C3). -/
theorem CodeOf.starts_inside {m l u : Nat} {symbols : List Symbol} {bits : List Bool} (h : CodeOf m l u symbols bits)
    (hm : 1 ≤ m) (hlu : l ≤ u) (hu : u < 2 ^ m) : l ≤ num (bits.take m) ∧ num (bits.take m) ≤ u := by
  induction h with
  | close l u =>
    rw [List.take_of_length_le (by simp), num_bitsOf, Nat.mod_eq_of_lt (hlu.trans_lt hu)]
    exact ⟨Nat.le_refl l, hlu⟩
  | symbol context narrowing rest ih =>
    obtain ⟨hcmp, hlt, -⟩ := contextOK_iff.mp context
    obtain ⟨-, -, hl1, hlu1, hu1, -⟩ := (narrowStaysInsideTheInterval _ _ _ _ _ hlu hcmp hlt).2 _ _ _ narrowing
    have hbound := hu1.trans_lt hu
    obtain ⟨hord, hfits⟩ := renorm_bounds hm hlu1 hbound
    obtain ⟨hfirst, hlast⟩ := window_inside hm hlu1 hbound rest.length_ge (ih hord hfits)
    exact ⟨hl1.trans hfirst, hlast.trans hu1⟩

/-- At the code of a symbol and more, the tag is not below the interval, and the decision is for that symbol (R158, R159). -/
theorem CodeOf.decision_is_symbol {m l u : Nat} {y : Symbol} {l1 u1 temp : Nat} {symbols : List Symbol} {bits : List Bool}
    (hm : 1 ≤ m) (hlu : l ≤ u) (hu : u < 2 ^ m) (context : contextOK y.A.toNat y.B.toNat m = true)
    (narrowing : narrow l u (isMps y.V y.P) y.A.toNat y.B.toNat = some (l1, u1, temp))
    (rest : CodeOf m (renorm l1 u1 m).1 (renorm l1 u1 m).2.1 symbols bits) :
    l ≤ num (((renorm l1 u1 m).2.2 ++ bits).take m) ∧
    decide (tagStar (num (((renorm l1 u1 m).2.2 ++ bits).take m)) l u y.B.toNat < y.A.toNat) = isMps y.V y.P := by
  obtain ⟨hcmp, hlt, -⟩ := contextOK_iff.mp context
  obtain ⟨hlow, hhigh⟩ := (CodeOf.symbol context narrowing rest).starts_inside hm hlu hu
  obtain ⟨hlu1, hu1⟩ := narrow_bounds hlu hlt narrowing
  have hbound := hu1.trans_lt hu
  obtain ⟨hord, hfits⟩ := renorm_bounds hm hlu1 hbound
  have hinside := window_inside hm hlu1 hbound rest.length_ge (rest.starts_inside hm hord hfits)
  exact ⟨hlow, (tag_in_narrowed_iff hlow hhigh hcmp hlt narrowing).mp hinside⟩

end Sys2Proof.Machine
end

section
/-! PROOFS. The round trip through the encoder, a stream and the decoder (spec/41_encoder.md rules R134 to R136,
spec/40_bitstream.md rule R108, spec/42_decoder.md rules R150, R151, R153 and R159, spec/90_conflicts.md C3). -/

namespace Sys2Proof.Machine

open Sys2Proof.Claims

/-! ### Runs in which every command succeeds -/

/-- A command succeeds when it answers with status OK (R175). -/
theorem okStep_iff {i : Instr} {s t : State} : okStep i s = some t ↔ ∃ a, Answers i s t a ∧ a.status = .ok := by
  constructor
  · intro h
    obtain ⟨t', a, ⟨hexec, hresp⟩, -⟩ := exec_answers i s
    obtain ⟨hok, rfl⟩ : a.status = .ok ∧ t' = t := by simpa [okStep, hexec, hresp] using h
    exact ⟨a, ⟨hexec, hresp⟩, hok⟩
  · rintro ⟨a, ⟨hexec, hresp⟩, hok⟩
    simp [okStep, hexec, hresp, hok]

/-- A run succeeds when its first command does, and the rest from there. -/
theorem okRun_cons {i : Instr} {rest : List Instr} {s t : State} :
    okRun (i :: rest) s = some t ↔ ∃ s' a, Answers i s s' a ∧ a.status = .ok ∧ okRun rest s' = some t := by
  rw [okRun]
  constructor
  · intro h
    cases hstep : okStep i s with
    | none => simp [hstep] at h
    | some s' =>
      obtain ⟨a, hanswer, hok⟩ := okStep_iff.mp hstep
      exact ⟨s', a, hanswer, hok, by simpa [hstep] using h⟩
  · rintro ⟨s', a, hanswer, hok, hrest⟩
    rw [okStep_iff.mpr ⟨a, hanswer, hok⟩]
    exact hrest

/-- What a command leaves when it answers OK (R175). -/
theorem completed_of_ok {i : Instr} {s t : State} {a : Response} (h : Answers i s t a) (hok : a.status = .ok) :
    StreamsUsable i s ∧ SameBlock (completed i s) t := by
  rcases answers_cases h with ⟨hfail, -⟩ | ⟨-, husable, hsame⟩
  · exact absurd hok hfail
  · exact ⟨husable, hsame⟩

/-- The one stream that a command uses when it answers OK is the host's (R100). -/
theorem hostMayUse_of_ok {i : Instr} {s t : State} {a : Response} {S : Nat} (hu : usedStreams i = [S])
    (h : Answers i s t a) (hok : a.status = .ok) : HostMayUse s S := by
  obtain ⟨⟨howner, -⟩, -⟩ := completed_of_ok h hok
  have hhost := howner S (by simp [hu])
  exact ⟨inside_of_host hhost, hhost⟩

/-! ### Encoding -/

/-- Appending to a slot of a legal state appends to its bits (R102). -/
theorem wbits_of_append {s t : State} {S : Nat} {q : List Bool} (hinv : s.Inv) (hin : S < s.slots.length)
    (h : t.slots = (s.setSlot S ((s.slot S).appendBits q)).slots) : (t.slot S).wbits = (s.slot S).wbits ++ q := by
  obtain ⟨-, ⟨hcnt, hacc, -⟩, -⟩ := hinv.slots _ (slot_mem hin)
  rw [slot_congr h, slot_setSlot_same hin]
  exact (appendBits_spec q _ hcnt hacc).1

/-- ENC_ENCODE that succeeds takes the interval of the encoder through `Narrow` and `Renorm`, and the stream takes the bits that
`Renorm` emits (R135). -/
theorem encode_step {s t : State} {S : Nat} {V P : Bool} {A B : Word} {a : Response} (hinv : s.Inv)
    (h : Answers (.encEncode S V P A B) s t a) (hok : a.status = .ok) :
    contextOK A.toNat B.toNat s.enc.m = true ∧
    ∃ l u temp, narrow s.enc.low.toNat s.enc.high.toNat (isMps V P) A.toNat B.toNat = some (l, u, temp) ∧
      t.enc.m = s.enc.m ∧ t.enc.low.toNat = (renorm l u s.enc.m).1 ∧ t.enc.high.toNat = (renorm l u s.enc.m).2.1 ∧
      (t.slot S).wbits = (s.slot S).wbits ++ (renorm l u s.enc.m).2.2 := by
  obtain ⟨hready, hctx⟩ := encode_ready h hok
  obtain ⟨-, hAB, -⟩ := contextOK_iff.mp hctx
  obtain ⟨l, u, temp, hnarrow, -⟩ := encode_narrows h hok
  obtain ⟨-, hprecision, hord, hmax⟩ := hinv.enc
  obtain ⟨h1, h32⟩ := hprecision (by simp [hready])
  obtain ⟨hle, hupper⟩ := narrow_bounds hord hAB hnarrow
  obtain ⟨hrenorm, hfits⟩ := renorm_bounds h1 hle (hupper.trans_lt (le_validMask_iff.mp hmax))
  obtain ⟨-, hslots, henc, -⟩ := completed_of_ok h hok
  rw [completed_encEncode hnarrow] at hslots henc
  refine ⟨hctx, l, u, temp, hnarrow, by rw [henc]; rfl, ?_, ?_,
    wbits_of_append hinv (hostMayUse_of_ok rfl h hok).1 hslots⟩
  · rw [henc]
    exact ofNat_toNat_of_lt h32 (hrenorm.trans_lt hfits)
  · rw [henc]
    exact ofNat_toNat_of_lt h32 hfits

/-- A run that encodes symbols and closes appends their code to the stream (R135, R136). -/
theorem code_of_run {S : Nat} {symbols : List Symbol} {rest : List Instr} {s t : State} (hinv : s.Inv)
    (h : okRun (symbols.map (fun y => .encEncode S y.V y.P y.A y.B) ++ .encClose S :: rest) s = some t) :
    ∃ bits s', CodeOf s.enc.m s.enc.low.toNat s.enc.high.toNat symbols bits ∧ s'.Inv ∧
      (s'.slot S).wbits = (s.slot S).wbits ++ bits ∧ okRun rest s' = some t := by
  induction symbols generalizing s with
  | nil =>
    obtain ⟨s', a, hanswer, hok, hrest⟩ := okRun_cons.mp h
    obtain ⟨-, hslots, -⟩ := completed_of_ok hanswer hok
    exact ⟨_, s', .close _ _, exec_keepsInv hinv _ _ hanswer.1,
      wbits_of_append hinv (hostMayUse_of_ok rfl hanswer hok).1 hslots, hrest⟩
  | cons y symbols ih =>
    obtain ⟨s', a, hanswer, hok, hrest⟩ := okRun_cons.mp h
    obtain ⟨hctx, l, u, temp, hnarrow, hm, hlow, hhigh, hbits⟩ := encode_step hinv hanswer hok
    obtain ⟨bits, s'', hcode, hinv'', hall, hrun⟩ := ih (exec_keepsInv hinv _ _ hanswer.1) hrest
    rw [hm, hlow, hhigh] at hcode
    exact ⟨_, s'', .symbol hctx hnarrow hcode, hinv'', by rw [hall, hbits, List.append_assoc], hrun⟩

/-! ### The stream -/

/-- BS_TO_READ that succeeds makes the bits written the unread ones (R108). -/
theorem rbits_of_toRead {s t : State} {S : Nat} {a : Response} (hinv : s.Inv) (h : Answers (.bsToRead S) s t a)
    (hok : a.status = .ok) : (t.slot S).rbits = (s.slot S).wbits := by
  obtain ⟨-, hslots, -⟩ := completed_of_ok h hok
  have hin := (hostMayUse_of_ok rfl h hok).1
  obtain ⟨-, ⟨hcnt, hacc, -⟩, -⟩ := hinv.slots _ (slot_mem hin)
  obtain ⟨h1, h8, hpad⟩ := padToRead_fields hcnt
  calc (t.slot S).rbits = (s.slot S).padToRead.primeRead.rbits := by
        rw [slot_congr hslots]
        exact congrArg Slot.rbits (slot_setSlot_same hin _)
    _ = (s.slot S).padToRead.bitsFrom 0 := (primeRead_spec _ h1 h8 hpad).1
    _ = (s.slot S).wbits := padToRead_bits _ hcnt hacc

/-! ### Decoding -/

/-- The decoder of slot `S` is READY at the interval `{l, u}` of precision `m`, and `bits` are its tag and the unread bits after
it. -/
structure DecoderAt (S m l u : Nat) (bits : List Bool) (s : State) : Prop where
  inv : s.Inv
  ready : s.dec.phase = .ready
  slot : s.dec.slot = S
  precision : s.dec.m = m
  low : s.dec.low.toNat = l
  high : s.dec.high.toNat = u
  tag : s.dec.tag.toNat = num (bits.take m)
  unread : (s.slot S).rbits = bits.drop m

/-- DEC_NEW and DEC_INIT that succeed put the decoder at the start of its stream, with the whole interval (R150, R151). -/
theorem decoderAt_of_init {s s' t : State} {S m : Nat} {a b : Response} (hinv : s.Inv) (hm : 1 ≤ m ∧ m ≤ 32)
    (hnew : Answers (.decNew S m) s s' a) (hnewOk : a.status = .ok) (hinit : Answers .decInit s' t b)
    (hlength : m ≤ (s.slot S).rbits.length) :
    DecoderAt S m 0 (2 ^ m - 1) (s.slot S).rbits t ∧ t.dec.count = 0 := by
  obtain ⟨⟨-, hmode⟩, -⟩ := completed_of_ok hnew hnewOk
  have hread : (s.slot S).mode = .read := read_of_check (decide_eq_false hmode)
  obtain ⟨s'', ⟨hexec, -⟩, hslot, -, -, hdec, -⟩ := newDecoderTakesTheStream s S m hinv.ownership
    (hostMayUse_of_ok rfl hnew hnewOk) hread hm.1 hm.2
  cases hexec.symm.trans hnew.1
  have hinv' := exec_keepsInv hinv _ _ hnew.1
  have hrbits : (s'.slot S).rbits = (s.slot S).rbits := by rw [hslot]; rfl
  obtain ⟨t', ⟨hexec', -⟩, -, hdec', htag, hleft, -⟩ := initReadsTheTag s' hinv' (by rw [hdec])
    (by rw [hdec]; exact hlength.trans_eq (congrArg List.length hrbits.symm))
  cases hexec'.symm.trans hinit.1
  rw [hdec] at hdec' htag hleft
  dsimp only at hdec' htag hleft
  rw [hrbits] at htag hleft
  have hhigh : t.dec.high.toNat = 2 ^ m - 1 := by
    rw [hdec']
    exact ofNat_toNat_of_lt hm.2 (Nat.sub_one_lt (by positivity))
  have hat : DecoderAt S m 0 (2 ^ m - 1) (s.slot S).rbits t :=
    { inv := exec_keepsInv hinv' _ _ hinit.1
      ready := by rw [hdec']
      slot := by rw [hdec']
      precision := by rw [hdec']
      low := by rw [hdec']; rfl
      high := hhigh
      tag := htag
      unread := hleft }
  exact ⟨hat, by rw [hdec']⟩

/-- The word that stands for a decision is the symbol that the decision was made for (R77, R130, R153). -/
theorem symbolWord_of_isMps (V P : Bool) : (if isMps V P = P then (1 : Word) else 0) = if V then 1 else 0 := by
  cases V <;> cases P <;> rfl

/-- At the code of a symbol and more, DEC_DECODE with the symbol's Context returns the symbol, and the decoder is at the code of
the rest (R153, R158, R159). -/
theorem decode_step {S m l u : Nat} {y : Symbol} {l1 u1 temp : Nat} {symbols : List Symbol} {bits : List Bool} {s : State}
    (hat : DecoderAt S m l u ((renorm l1 u1 m).2.2 ++ bits) s) (context : contextOK y.A.toNat y.B.toNat m = true)
    (narrowing : narrow l u (isMps y.V y.P) y.A.toNat y.B.toNat = some (l1, u1, temp))
    (rest : CodeOf m (renorm l1 u1 m).1 (renorm l1 u1 m).2.1 symbols bits) :
    ∃ t, Answers (.decDecode y.P y.A y.B) s t (okWith { r0 := if y.V then 1 else 0 } []) ∧
      DecoderAt S m (renorm l1 u1 m).1 (renorm l1 u1 m).2.1 bits t ∧
      t.dec.count.toNat = (s.dec.count.toNat + 1) % 2 ^ 64 := by
  obtain ⟨hinv, hready, rfl, rfl, rfl, rfl, htag, hunread⟩ := hat
  obtain ⟨hcmp, hlt, htot⟩ := contextOK_iff.mp context
  obtain ⟨-, hprecision, -, hord, hmax, -⟩ := hinv.dec
  obtain ⟨h1, -, -⟩ := hprecision (by simp [hready])
  have hu := le_validMask_iff.mp hmax
  have hdecides := CodeOf.decision_is_symbol h1 hord hu context narrowing rest
  rw [← htag] at hdecides
  obtain ⟨hlow, hdecision⟩ : _ ∧ decision s.dec y.A y.B = isMps y.V y.P := hdecides
  obtain ⟨hlu1, hu1⟩ := narrow_bounds hord hlt narrowing
  have hbound := hu1.trans_lt hu
  have hshift : decodeShift s.dec y.A y.B = (renorm l1 u1 s.dec.m).2.2.length := by
    rw [decodeShift_of_narrow (hdecision.symm ▸ narrowing), renorm_length]
  have hlength := rest.length_ge
  obtain ⟨t, hanswer, -, hleft, hready', hm', hslot', hlow', hhigh', htag', hcount, -⟩ :=
    decodeFollowsTheTag s y.P y.A y.B hinv hready hcmp hlt htot hlow (by
      rw [hshift, hunread, List.length_drop, List.length_append]
      omega)
  rw [hdecision, narrowed_of_narrow narrowing, hshift] at hlow' hhigh'
  rw [hshift, hunread] at htag' hleft
  rw [hdecision, symbolWord_of_isMps] at hanswer
  have hemitted := (renorm_length l1 u1 s.dec.m).trans_le (sharedPrefix_le l1 u1 s.dec.m)
  refine ⟨t, hanswer, ⟨exec_keepsInv hinv _ _ hanswer.1, hready', hslot', hm', ?_, ?_, ?_, ?_⟩, hcount⟩
  · rw [hlow', renorm_length, renorm_closed h1 (hlu1.trans_lt hbound) hbound]
  · rw [hhigh', renorm_length, renorm_closed h1 (hlu1.trans_lt hbound) hbound]
  · rw [htag', htag]
    exact window_shift hemitted hlength
  · rw [hleft, List.drop_drop, Nat.add_comm, List.drop_length_add_append]

/-- At the code of symbols, decoding with their Contexts succeeds, returns them, and consumes every bit (R159). -/
theorem run_of_code {S m l u : Nat} {symbols : List Symbol} {bits : List Bool} (h : CodeOf m l u symbols bits) {s : State}
    (hat : DecoderAt S m l u bits s) :
    ∃ t, okRun (symbols.map (fun y => .decDecode y.P y.A y.B)) s = some t ∧
      t.responses = s.responses ++ symbols.map (fun y => okWith { r0 := if y.V then 1 else 0 } []) ∧
      (t.slot S).rbits = [] ∧ t.dec.count.toNat = (s.dec.count.toNat + symbols.length) % 2 ^ 64 := by
  induction h generalizing s with
  | close l u =>
    refine ⟨s, rfl, by simp, ?_, (Nat.mod_eq_of_lt s.dec.count.isLt).symm⟩
    rw [hat.unread, List.drop_eq_nil_of_le (by simp)]
  | symbol context narrowing rest ih =>
    obtain ⟨s', hanswer, hat', hcount'⟩ := decode_step hat context narrowing rest
    obtain ⟨t, hrun, hresp, hleft, hcount⟩ := ih hat'
    refine ⟨t, okRun_cons.mpr ⟨s', _, hanswer, rfl, hrun⟩, ?_, hleft, ?_⟩
    · rw [hresp, hanswer.2, List.map_cons, List.append_assoc, List.singleton_append]
    · rw [hcount, hcount', List.length_cons]
      omega

/-- Settles O53: the encoder writes the code of the symbols into the stream, and the decoder, at that code, gives them back. -/
theorem decodingReturnsTheEncodedSymbols : Obligations.DecodingReturnsTheEncodedSymbols := by
  intro s t S m symbols hinv hhost hempty hrun
  rw [List.append_assoc] at hrun
  obtain ⟨s1, a1, hnew, hok1, hrun⟩ := okRun_cons.mp hrun
  have hinv1 := exec_keepsInv hinv _ _ hnew.1
  obtain ⟨-, hslots, henc, -⟩ := completed_of_ok hnew hok1
  simp only [completed, setEnc_slots, setEnc_enc] at hslots henc
  obtain ⟨-, hprecision, -⟩ := hinv1.enc
  have hm : 1 ≤ m ∧ m ≤ 32 := by simpa [henc] using hprecision
  obtain ⟨bits, s2, hcode, hinv2, hbits, hrun⟩ := code_of_run hinv1 hrun
  obtain ⟨s3, a3, htoRead, hok3, hrun⟩ := okRun_cons.mp hrun
  obtain ⟨s4, a4, hdecNew, hok4, hrun⟩ := okRun_cons.mp hrun
  obtain ⟨s5, a5, hinit, -, hrun⟩ := okRun_cons.mp hrun
  cases hrun
  have hinv3 := exec_keepsInv hinv2 _ _ htoRead.1
  have hstream : (s3.slot S).rbits = bits := by
    rw [rbits_of_toRead hinv2 htoRead hok3, hbits, slot_congr hslots]
    exact (congrArg (·.wbits ++ bits) hempty).trans (List.nil_append bits)
  have hhigh : (BitVec.ofNat 64 (validMask m)).toNat = 2 ^ m - 1 := by
    rw [validMask_eq, ofNat_toNat_of_lt hm.2 (Nat.sub_one_lt (by positivity))]
  rw [henc] at hcode
  dsimp only at hcode
  rw [hhigh] at hcode
  have hlength := hcode.length_ge
  rw [← hstream] at hlength
  obtain ⟨hat, hcount⟩ := decoderAt_of_init hinv3 hm hdecNew hok4 hinit hlength
  rw [hstream] at hat
  obtain ⟨u, hdecodes, hresp, hleft, hcounted⟩ := run_of_code hcode hat
  refine ⟨u, hdecodes, hresp, hleft, ?_⟩
  rw [hcounted, hcount]
  simp

end Sys2Proof.Machine
end

section
/-! PROOFS. The query of the error record (spec/43_core.md rule R170). -/

namespace Sys2Proof.Machine

open Sys2Proof.Claims

/-- A truth value is returned as the number 1 or 0 (R77). -/
theorem bitWord_toNat (b : Bool) : (bitWord b).toNat = if b then 1 else 0 := by cases b <;> rfl

theorem status_code_lt (e : Status) : e.code < 2 ^ 64 := by cases e <;> decide

/-- Settles O45: the command checks nothing and replies from the state it was given, and each field of the error record fits in
its result word (R40, R77). -/
theorem errinfoReturnsTheRecord : Obligations.ErrinfoReturnsTheRecord := by
  intro s
  obtain ⟨t, hanswer, hunits, hslots⟩ := answers_query (i := .coreErrinfo) (s := s) rfl
  exact ⟨t, _, hanswer, hunits, hslots, bitWord_toNat _, resultWord_toNat (status_code_lt _),
    BitVec.toNat_setWidth_of_le (by decide), BitVec.toNat_setWidth_of_le (by decide)⟩

end Sys2Proof.Machine
end

section
/-! PROOFS. The error record and the answer of a command that fails (spec/60_exceptions.md rules R175 to R179). -/

namespace Sys2Proof.Machine

open Sys2Proof.Claims

/-- A command raises an error and answers with it, or it answers OK and the error record is as before (R175, R177). -/
theorem answers_raises_or_ok {i : Instr} {s t : State} {a : Response} (h : Answers i s t a) :
    (∃ e, e ≠ .ok ∧ raise i e s = .next t ∧ a = { status := e, results := {}, out := [] }) ∨
    (a.status = .ok ∧ t.err = s.err) := by
  obtain ⟨hexec, hresp⟩ := h
  rcases exec_raisesOrReplies i s with ⟨e, he, hraise⟩ | ⟨s', r, out, ⟨herr, hbefore, -⟩, hreply⟩
  · have hnext := hraise.symm.trans hexec
    refine .inl ⟨e, he, hnext, ?_⟩
    cases hnext
    exact (List.singleton_inj.mp (List.append_inj_right' hresp rfl)).symm
  · cases hreply.symm.trans hexec
    rw [← List.singleton_inj.mp (List.append_inj_right' hresp rfl)]
    exact .inr ⟨rfl, herr⟩

/-- Settles O12: a command that fails raises an error, and a raise writes the record and the responses only. -/
theorem failingCommandIsPrecise : Obligations.FailingCommandIsPrecise := by
  intro i s t a h hfail
  rcases answers_raises_or_ok h with ⟨e, -, hraise, rfl⟩ | ⟨hok, -⟩
  · cases hraise
    exact ⟨rfl, rfl, rfl, rfl, rfl, rfl, rfl⟩
  · exact absurd hok hfail

/-- The record of `t` is that of `s` after an answer with the given status to a request with the word `cw` (R177). -/
def RecordFollows (cw : CommandWord) (status : Status) (s t : State) : Prop :=
  (status = .ok ∧ t.err = s.err) ∨ (status ≠ .ok ∧ t.err = s.err.record cw status)

/-- A command records its error with its own word (R177). -/
theorem exec_recordFollows {i : Instr} {s t : State} {a : Response} (h : Answers i s t a) :
    RecordFollows (encodeWord i) a.status s t := by
  rcases answers_raises_or_ok h with ⟨e, he, hraise, rfl⟩ | hok
  · cases hraise
    exact .inr ⟨he, rfl⟩
  · exact .inl hok

/-- A request gets one response, and the record follows its status, with the word of the request (R177, log 9). -/
theorem serve_recordFollows (r : Request) (s : State) :
    ∃ t a, serve r s = .next t ∧ t.responses = s.responses ++ [a] ∧ RecordFollows r.cw a.status s t := by
  cases hdecode : decode r with
  | illegal why => exact ⟨_, _, serve_illegal hdecode s, rfl, .inr ⟨by decide, rfl⟩⟩
  | command i =>
    obtain ⟨t, a, hanswer, -⟩ := exec_answers i s
    obtain ⟨hexec, hresp⟩ := hanswer
    obtain ⟨-, hword⟩ := encodeOfDecodeIsIdentity r i hdecode
    exact ⟨t, a, (serve_command hdecode s).trans hexec, hresp, hword ▸ exec_recordFollows ⟨hexec, hresp⟩⟩

/-- Settles O11: the record of a served request follows the status, field by field; a reset clears it. -/
theorem errorRecordFollowsStatus : Obligations.ErrorRecordFollowsStatus := by
  refine ⟨fun s r rest hpending => ?_, fun s rest hpending => ⟨_, step_reset hpending, rfl⟩⟩
  obtain ⟨t, a, hserve, hresp, hrecord⟩ := serve_recordFollows r (s.withPending rest)
  refine ⟨t, a, (step_request hpending).trans hserve, hresp, ?_⟩
  rcases hrecord with ⟨hok, herr⟩ | ⟨hfail, herr⟩
  · exact ⟨fun _ => herr, fun hfail => absurd hok hfail⟩
  · refine ⟨fun hok => absurd hok hfail, fun _ => ?_⟩
    rw [herr, withPending_err]
    exact ⟨rfl, fun hfirst => by simp [ErrorRecord.record, hfirst], fun hlater => by simp [ErrorRecord.record, hlater],
      record_count _ _ _⟩

end Sys2Proof.Machine
end

section
/-! PROOFS. The checks of every command as one list, in the order of spec/60_exceptions.md rule R178. An error of rule R176
applies exactly when a check for it fails: so the error reported is the first that applies. -/

namespace Sys2Proof.Machine

open Sys2Proof.Claims

/-! ### The checks of a command -/

/-- The checks of an image, without those that look for a header that is not there. -/
def formatChecks (cap : Option Nat) : List Byte → Checks
  | [] => [(true, .eFmtEmpty)]
  | h :: body => imageChecks cap (h :: body)

/-- Of an empty image nothing is looked at but its length (R116, R178). -/
theorem firstFailure_formatChecks (cap : Option Nat) (IN : List Byte) :
    firstFailure (formatChecks cap IN) = firstFailure (imageChecks cap IN) := by
  cases IN <;> rfl

/-- All checks of a command, the later ones of the two symbol commands with the earlier. -/
def checksOf (i : Instr) (s : State) : Checks :=
  match i with
  | .coreErrinfo | .encInfo | .decInfo => []
  | .bsNew S => [(noSuchSlot s S, .eParam), ((s.slot S).owner = .decoder, .eOwned)]
  | .bsWriteBit S _ =>
    (noSuchSlot s S, .eParam) :: hostSlot (s.slot S)
      [((s.slot S).mode = .read, .eMode), (!(s.slot S).fits s.capacity 1, .eCapacity)]
  | .bsWriteNumber S N _ =>
    (noSuchSlot s S, .eParam) :: (badWidth N, .eParam) :: hostSlot (s.slot S)
      [((s.slot S).mode = .read, .eMode), (!(s.slot S).fits s.capacity N, .eCapacity)]
  | .bsToRead S =>
    (noSuchSlot s S, .eParam) :: hostSlot (s.slot S)
      [((s.slot S).mode = .read, .eMode),
        ((s.slot S).wrCnt > 0 && !withinCapacity s.capacity ((s.slot S).buf.length + 1), .eCapacity)]
  | .bsReadBit S => (noSuchSlot s S, .eParam) :: hostSlot (s.slot S) [((s.slot S).progress ≠ .reading, .eExhausted)]
  | .bsReadNumber S N =>
    (noSuchSlot s S, .eParam) :: (badWidth N, .eParam) :: hostSlot (s.slot S)
      [((s.slot S).mode = .write, .eExhausted), ((s.slot S).remaining < N, .eExhausted)]
  | .bsMerge S T =>
    [(noSuchSlot s S, .eParam), (noSuchSlot s T, .eParam), (S = T, .eParam),
      ((s.slot S).owner = .free || (s.slot T).owner = .free, .eFree),
      ((s.slot S).owner = .decoder || (s.slot T).owner = .decoder, .eOwned),
      ((s.slot S).mode = .read || (s.slot T).mode = .read, .eMode),
      (!(s.slot S).fits s.capacity (s.slot T).wbits.length, .eCapacity)]
  | .bsRemaining S | .bsTotalSize S | .bsRewind S | .bsExport S => (noSuchSlot s S, .eParam) :: hostSlot (s.slot S) []
  | .bsImport S IN =>
    (noSuchSlot s S, .eParam) :: ((s.slot S).owner = .decoder, .eOwned) :: formatChecks s.capacity IN
  | .bsInfo S => [(noSuchSlot s S, .eParam)]
  | .encNew N => [(badPrecision N, .eParam)]
  | .encEncode S V P A B =>
    (noSuchSlot s S, .eParam) :: hostSlot (s.slot S)
      [(s.enc.phase ≠ .ready, .eState), ((s.slot S).mode = .read, .eMode), (!contextOK A.toNat B.toNat s.enc.m, .eDomain),
        (isMps V P && decide (tempOf s.enc.low s.enc.high A B = 0), .eDomain),
        (!(s.slot S).fits s.capacity (encodeShift s.enc V P A B), .eCapacity)]
  | .encClose S =>
    (noSuchSlot s S, .eParam) :: hostSlot (s.slot S)
      [(s.enc.phase ≠ .ready, .eState), ((s.slot S).mode = .read, .eMode),
        (!(s.slot S).fits s.capacity s.enc.m, .eCapacity)]
  | .encGetState => [(s.enc.phase = .uninit, .eState)]
  | .encSetState A B =>
    [(s.enc.phase = .uninit, .eState), (!(A.toNat ≤ B.toNat && B.toNat ≤ validMask s.enc.m), .eDomain)]
  | .decNew S N =>
    (noSuchSlot s S, .eParam) :: (badPrecision N, .eParam) :: hostSlot (s.slot S) [((s.slot S).mode = .write, .eMode)]
  | .decInit =>
    [(s.dec.phase ≠ .uninit, .eState), ((s.slot s.dec.slot).remaining < s.dec.m, .eExhausted)]
  | .decDecode _ A B =>
    [(s.dec.phase ≠ .ready, .eState), (!contextOK A.toNat B.toNat s.dec.m, .eDomain),
      (s.dec.tag.toNat < s.dec.low.toNat, .eDomain),
      (decision s.dec A B && decide (tempOf s.dec.low s.dec.high A B = 0), .eDomain),
      ((s.slot s.dec.slot).remaining < decodeShift s.dec A B, .eExhausted)]
  | .decGetState | .decStatus => [(s.dec.phase = .absent, .eState)]
  | .decSetState A B =>
    [(s.dec.phase = .absent, .eState), (!(A.toNat ≤ B.toNat && B.toNat ≤ validMask s.dec.m), .eDomain)]

/-- A command makes its checks, and when all pass it replies from the state that it leaves. -/
def MakesChecks (i : Instr) (s : State) : Prop :=
  ∃ r out, exec i s = guarded i s (checksOf i s) (reply (completed i s) r out)

/-- Checks made after others that passed are made in one list with them (R178). -/
theorem guarded_append (i : Instr) (s : State) (pre cs : Checks) (effect : Result) :
    guarded i s (pre ++ cs) effect = guarded i s pre (guarded i s cs effect) := by
  simp only [guarded, firstFailure_append]
  cases firstFailure pre <;> rfl

/-- Of an empty image BS_IMPORT reports that it is empty, whatever the checks of a header say (R116). -/
theorem import_makesChecks (S : Nat) (IN : List Byte) (s : State) : MakesChecks (.bsImport S IN) s := by
  refine ⟨{}, [], ?_⟩
  simp only [exec, execBsImport, guarded, checksOf, firstFailure, firstFailure_formatChecks]
  rfl

/-- The narrowing of an interval fails exactly for an MPS without room (R130). -/
theorem narrow_fails_iff {low high A B : Word} {mps : Bool} :
    narrow low.toNat high.toNat mps A.toNat B.toNat = none ↔ (mps && decide (tempOf low high A B = 0)) = true := by
  simp [narrow_none_iff, tempOf]

/-- The narrowing of ENC_ENCODE is a check between its first ones and that of the capacity (R135, R178). -/
theorem encode_makesChecks (S : Nat) (V P : Bool) (A B : Word) (s : State) : MakesChecks (.encEncode S V P A B) s := by
  refine ⟨{}, [], Eq.symm ((guarded_append _ s (_ :: hostSlot _ [_, _, _]) [_, _] _).trans (congrArg _ ?_))⟩
  cases hnarrow : narrow s.enc.low.toNat s.enc.high.toNat (isMps V P) A.toNat B.toNat with
  | none => simp [guarded, firstFailure, narrow_fails_iff.mp hnarrow]
  | some r =>
    obtain ⟨l, u, temp⟩ := r
    have hroom := mt narrow_fails_iff.mpr (Option.ne_none_iff_exists'.mpr ⟨_, hnarrow⟩)
    dsimp only
    rw [renorm_length, ← encodeShift_of_narrow hnarrow, ← completed_encEncode hnarrow]
    simp [guarded, firstFailure, hroom]

/-- The narrowing of DEC_DECODE is a check between its first ones and that of the bits to read (R153, R178). -/
theorem decode_makesChecks (P : Bool) (A B : Word) (s : State) : MakesChecks (.decDecode P A B) s := by
  refine ⟨{ r0 := bitWord (decodedSymbol (decision s.dec A B) P) }, [],
    Eq.symm ((guarded_append _ s [_, _, _] [_, _] _).trans (congrArg _ ?_))⟩
  dsimp only
  rw [← decision_eq]
  cases hnarrow : narrow s.dec.low.toNat s.dec.high.toNat (decision s.dec A B) A.toNat B.toNat with
  | none => simp [guarded, firstFailure, narrow_fails_iff.mp hnarrow]
  | some r =>
    obtain ⟨l, u, temp⟩ := r
    have hroom := mt narrow_fails_iff.mpr (Option.ne_none_iff_exists'.mpr ⟨_, hnarrow⟩)
    dsimp only
    rw [← decodeShift_of_narrow hnarrow, completed_decDecode hnarrow, ← decodeShift_of_narrow hnarrow]
    simp [guarded, firstFailure, hroom]

/-- Every command makes its checks first; only the symbol commands and BS_IMPORT need more than their meaning (R13, R178). -/
theorem exec_makesChecks (i : Instr) (s : State) : MakesChecks i s := by
  cases i with
  | bsImport S IN => exact import_makesChecks S IN s
  | encEncode S V P A B => exact encode_makesChecks S V P A B s
  | decDecode P A B => exact decode_makesChecks P A B s
  | _ => exact ⟨_, _, rfl⟩

/-- The status of an answer is the error of the first failing check, or OK (R175, R178). -/
theorem status_eq_firstFailure {i : Instr} {s t : State} {a : Response} (h : Answers i s t a) :
    a.status = (firstFailure (checksOf i s)).getD .ok := by
  obtain ⟨hexec, hresp⟩ := h
  obtain ⟨r, out, hchecks⟩ := exec_makesChecks i s
  rcases guarded_cases i s (checksOf i s) (reply (completed i s) r out) with ⟨e, hfail, hraise⟩ | ⟨hpass, hreply⟩
  · rw [hfail]
    exact status_of_raise (hraise.symm.trans (hchecks.symm.trans hexec)) hresp
  · cases (hchecks.trans hreply).symm.trans hexec
    rw [hpass, ← List.singleton_inj.mp (List.append_inj_right' hresp rfl)]
    rfl

/-! ### The order of the checks -/

/-- A list of checks in the order of R178, that of the codes. -/
def Checks.InOrder (cs : Checks) : Prop := cs.Pairwise fun c d => c.2.code ≤ d.2.code

theorem checksOf_inOrder (i : Instr) (s : State) : (checksOf i s).InOrder := by
  cases i with
  | bsImport S IN => cases IN <;> simp [Checks.InOrder, checksOf, formatChecks, imageChecks, Status.code]
  | _ => simp [Checks.InOrder, checksOf, hostSlot, Status.code]

/-- Of checks in order, the first that fails has the least code of those that fail. -/
theorem firstFailure_least {cs : Checks} (hord : cs.InOrder) {e e' : Status} (h : firstFailure cs = some e)
    (hfail : (true, e') ∈ cs) : e.code ≤ e'.code := by
  induction cs with
  | nil => cases hfail
  | cons c cs ih =>
    obtain ⟨failing, e1⟩ := c
    obtain ⟨hfirst, hrest⟩ := List.pairwise_cons.mp hord
    cases failing with
    | true =>
      cases h
      rcases List.mem_cons.mp hfail with heq | hlater
      · cases heq
        exact Nat.le_refl _
      · exact hfirst _ hlater
    | false => exact ih hrest h (List.mem_of_ne_of_mem (by simp) hfail)

/-! ### The causes of the errors -/

/-! ### The causes of the errors -/

theorem badWidth_iff {N : Nat} : badWidth N = true ↔ 64 < N := decide_eq_true_iff

theorem badPrecision_iff {N : Nat} : badPrecision N = true ↔ N < 1 ∨ 32 < N := decide_eq_true_iff

theorem tooManyBytes_iff {s : State} {n : Nat} : TooManyBytes s n ↔ withinCapacity s.capacity n = false :=
  withinCapacity_false.symm

/-- The high nibble of a header as a number (R64). -/
theorem highNibble_iff {h : Byte} : h.extractLsb' 4 4 = 14#4 ↔ h.toNat / 16 = 0xE := by
  have hlt := h.isLt
  rw [← BitVec.toNat_inj, BitVec.extractLsb'_toNat, Nat.shiftRight_eq_div_pow]
  change h.toNat / 16 % 16 = 14 ↔ _
  omega

/-- The low nibble of a header as a number (R64). -/
theorem imageNibble_cons (h : Byte) (body : List Byte) : imageNibble (h :: body) = h.toNat % 16 := by
  rw [imageNibble, BitVec.extractLsb'_toNat]
  rfl

/-- The failing checks of an image, in the words of R176. -/
theorem mem_formatChecks {cap : Option Nat} {IN : List Byte} {e : Status} :
    (true, e) ∈ formatChecks cap IN ↔
      (e = .eFmtEmpty ∧ IN = []) ∨
      (e = .eFmtHeader ∧ ∃ h body, IN = h :: body ∧ h.toNat / 16 ≠ 0xE) ∨
      (e = .eFmtHeaderOnly ∧ ∃ h, IN = [h]) ∨
      (e = .eFmtNibble ∧ ∃ h body, IN = h :: body ∧ (h.toNat % 16 = 0 ∨ 8 < h.toNat % 16)) ∨
      (e = .eCapacity ∧ withinCapacity cap (IN.length - 1) = false) := by
  cases IN with
  | nil => cases cap <;> simp [formatChecks, withinCapacity]
  | cons h body =>
    simp [formatChecks, imageChecks, imageHeader, highNibble_iff, imageNibble_cons, and_comm (b := e = _)]

/-! For each row of R176, command by command: the error applies exactly when a check for it fails. -/

section Causes
variable (i : Instr) (s : State)

theorem param_applies_iff : Applies i s .eParam ↔ (true, .eParam) ∈ checksOf i s := by
  cases i with
  | bsMerge S T => simp [Applies, checksOf, namedSlots, CountOutOfRange, noSuchSlot, or_assoc, eq_comm (a := T)]
  | _ =>
    simp [Applies, checksOf, hostSlot, mem_formatChecks, namedSlots, CountOutOfRange, noSuchSlot, badWidth_iff,
      badPrecision_iff]

theorem free_applies_iff : Applies i s .eFree ↔ (true, .eFree) ∈ checksOf i s := by
  cases i <;> simp [Applies, checksOf, hostSlot, mem_formatChecks, usedStreams, namedSlots]

theorem owned_applies_iff : Applies i s .eOwned ↔ (true, .eOwned) ∈ checksOf i s := by
  cases i <;> simp [Applies, checksOf, hostSlot, mem_formatChecks, takenSlots, namedSlots]

theorem state_applies_iff : Applies i s .eState ↔ (true, .eState) ∈ checksOf i s := by
  cases i <;> simp [Applies, checksOf, hostSlot, mem_formatChecks, WrongPhase]

theorem mode_applies_iff : Applies i s .eMode ↔ (true, .eMode) ∈ checksOf i s := by
  cases i <;> simp [Applies, checksOf, hostSlot, mem_formatChecks, WrongMode]

/-- The domains are the Context of R133, the room for an MPS of R130 and the interval of R138. -/
theorem domain_applies_iff : Applies i s .eDomain ↔ (true, .eDomain) ∈ checksOf i s := by
  cases i <;> simp [Applies, checksOf, hostSlot, mem_formatChecks, OutsideDomain, ← contextOK_iff, isMps, validMask_eq]

theorem exhausted_applies_iff : Applies i s .eExhausted ↔ (true, .eExhausted) ∈ checksOf i s := by
  cases i <;> simp [Applies, checksOf, hostSlot, mem_formatChecks, WantsTooManyBits]

theorem capacity_applies_iff : Applies i s .eCapacity ↔ (true, .eCapacity) ∈ checksOf i s := by
  cases i <;>
    simp [Applies, checksOf, hostSlot, mem_formatChecks, ExceedsCapacity, tooManyBytes_iff, appendTarget, bitsAppended,
      Slot.fits]

/-- Every row of R176's table; those of the image are in the words of the checks already. -/
theorem applies_iff_failing (e : Status) : Applies i s e ↔ (true, e) ∈ checksOf i s := by
  cases e with
  | eParam => exact param_applies_iff i s
  | eFree => exact free_applies_iff i s
  | eOwned => exact owned_applies_iff i s
  | eState => exact state_applies_iff i s
  | eMode => exact mode_applies_iff i s
  | eDomain => exact domain_applies_iff i s
  | eExhausted => exact exhausted_applies_iff i s
  | eCapacity => exact capacity_applies_iff i s
  | ok | eIllegal | eFmtEmpty | eFmtHeader | eFmtHeaderOnly | eFmtNibble =>
    cases i <;> simp [Applies, checksOf, hostSlot, mem_formatChecks]

end Causes

/-- Settles O13: the checks are in the order of the codes, and the errors that apply are those of the failing checks. -/
theorem reportedStatusIsTheFirstThatApplies : Obligations.ReportedStatusIsTheFirstThatApplies := by
  refine ⟨fun r s why hdecode => ⟨_, serve_illegal hdecode s, rfl⟩, fun i s t a h => ?_⟩
  rw [status_eq_firstFailure h]
  cases hfirst : firstFailure (checksOf i s) with
  | none =>
    have hnone : ∀ e, ¬Applies i s e := fun e he =>
      Bool.noConfusion (firstFailure_none.mp hfirst _ ((applies_iff_failing i s e).mp he))
    exact ⟨iff_of_true rfl hnone, fun hfail => absurd rfl hfail⟩
  | some e =>
    have happlies : Applies i s e := (applies_iff_failing i s e).mpr (firstFailure_some hfirst)
    have hleast : ∀ e', Applies i s e' → e.code ≤ e'.code := fun e' he' =>
      firstFailure_least (checksOf_inOrder i s) hfirst ((applies_iff_failing i s e').mp he')
    have herror : e ≠ .ok := by
      rintro rfl
      exact happlies
    exact ⟨iff_of_false herror fun hnone => hnone e happlies, fun _ => ⟨happlies, hleast⟩⟩

end Sys2Proof.Machine
end

section
/-! PROOFS. Reset, the idle block, and what no command writes (spec/70_reset_and_hazards.md rules R190, R191 and R198,
spec/60_exceptions.md rule R188). -/

namespace Sys2Proof.Machine

open Sys2Proof.Claims

/-! ### The slots that a command leaves alone -/

/-- A command that succeeds writes only slots that it names or that the decoder owns (R50, R198). -/
theorem completed_slot_of_not_written {i : Instr} {s : State} {j : Nat} (h : j ∉ writtenSlots s i) :
    (completed i s).slot j = s.slot j := by
  cases i with
  | bsNew | bsWriteBit | bsWriteNumber | bsToRead | bsReadBit | bsReadNumber | bsRewind | bsImport | encEncode | encClose
  | decInit | decDecode => exact slot_setSlot_ne (s := s) (List.ne_of_not_mem_cons h) _
  | bsMerge S T =>
    obtain ⟨hjS, hjT⟩ : j ≠ S ∧ j ≠ T := by simpa [writtenSlots] using h
    exact (slot_freeSlot_ne hjT).trans (slot_setSlot_ne hjS _)
  | decNew S N =>
    obtain ⟨hjS, hjdec⟩ : j ≠ S ∧ (s.dec.phase ≠ .absent → j ≠ s.dec.slot) := by
      simp only [writtenSlots] at h
      split at h <;> simp_all
    exact (slot_setSlot_ne hjS _).trans (slot_dropDecoderStream_ne hjdec)
  | _ => rfl

/-- Settles O15: a command that fails leaves every slot, and one that succeeds leaves those that it does not write. -/
theorem onlyNamedOrOwnedSlotsChange : Obligations.OnlyNamedOrOwnedSlotsChange := by
  intro i s t hexec
  refine keepsSlotsBut_of_slot fun j hj => ?_
  rcases exec_cases hexec with ⟨hslots, -⟩ | ⟨-, hslots, -⟩
  · exact slot_congr hslots j
  · exact (slot_congr hslots j).trans (completed_slot_of_not_written hj)

/-! ### Reset and the idle block -/

/-- Settles O8: the state of a reset event has the block's capacity and the later events, and a step without an event idles
(logs 1 to 4). -/
theorem resetStartsARunAndIdleHolds : Obligations.ResetStartsARunAndIdleHolds :=
  ⟨fun _ _ hpending => ⟨_, step_reset hpending, rfl, rfl, rfl⟩, fun _ hpending => step_idle hpending⟩

/-! ### The commands after reset -/

theorem status_code_injective {e e' : Status} (h : e.code = e'.code) : e = e' := by
  cases e <;> cases e' <;> simp_all [Status.code]

/-- A command answers with the error that applies, if none with a lower code does (R176, R178). -/
theorem answers_first_applying {i : Instr} {s : State} {e : Status} (h : Applies i s e)
    (hleast : ∀ e', Applies i s e' → e.code ≤ e'.code) :
    ∃ t, Answers i s t { status := e, results := {}, out := [] } := by
  obtain ⟨t, a, hanswer, -⟩ := exec_answers i s
  obtain ⟨hok, hfail⟩ := reportedStatusIsTheFirstThatApplies.2 i s t a hanswer
  rcases answers_raises_or_ok hanswer with ⟨e', he', -, rfl⟩ | ⟨hstatus, -⟩
  · obtain ⟨happlies, hfirst⟩ := hfail he'
    obtain rfl : e = e' := status_code_injective (Nat.le_antisymm (hleast _ happlies) (hfirst _ h))
    exact ⟨t, hanswer⟩
  · exact absurd h (hok.mp hstatus e)

/-- A command whose slots exist, whose count is in range and which does not merge a slot into itself raises no E_PARAM. -/
theorem not_param_applies {i : Instr} {s : State} (hslots : ∀ S ∈ namedSlots i, S < s.slots.length)
    (hcount : ¬CountOutOfRange i) (hmerge : ∀ S, i ≠ .bsMerge S S) : ¬Applies i s .eParam := by
  rintro (⟨S, hS, hout⟩ | hrange | ⟨S, rfl⟩)
  · exact Nat.not_le.mpr (hslots S hS) hout
  · exact hcount hrange
  · exact hmerge S rfl

section AfterReset
variable {p : Params} {i : Instr} {S : Nat}

theorem resetWith_slots_length : (State.resetWith p).slots.length = p.numStreams := List.length_replicate

/-- BS_INFO of a slot of the block returns the slot of R27, whose only field that is not zero is `last_valid`. -/
theorem bsInfo_after_reset (hS : S < p.numStreams) :
    exec (.bsInfo S) (State.resetWith p) = reply (State.resetWith p) { r9 := 8 } [] := by
  have hinside : noSuchSlot (State.resetWith p) S = false := noSuchSlot_of_inside (hS.trans_eq resetWith_slots_length.symm)
  refine (guarded_pass (by simp [firstFailure, hinside])).trans ?_
  rw [slot_resetWith]
  rfl

/-- Every stream is FREE after reset, so a command that passes the checks of its operands stops at the stream it uses. -/
theorem answers_free_after_reset (hused : S ∈ usedStreams i) (hparam : ¬Applies i (State.resetWith p) .eParam) :
    ∃ t, Answers i (State.resetWith p) t { status := .eFree, results := {}, out := [] } := by
  have hfree : Applies i (State.resetWith p) .eFree := ⟨S, hused, by rw [slot_resetWith]; rfl⟩
  refine answers_first_applying hfree fun e he => ?_
  cases e with
  | ok | eIllegal => exact he.elim
  | eParam => exact absurd he hparam
  | _ => simp [Status.code]

/-- A command that names no slot and needs a unit stops at the phase of that unit. -/
theorem answers_state_after_reset (hnamed : namedSlots i = []) (hused : usedStreams i = []) (hcount : ¬CountOutOfRange i)
    (hphase : WrongPhase (State.resetWith p) i) :
    ∃ t, Answers i (State.resetWith p) t { status := .eState, results := {}, out := [] } := by
  refine answers_first_applying (e := .eState) hphase fun e he => ?_
  cases e with
  | ok | eIllegal => exact he.elim
  | eParam => exact absurd he (not_param_applies (by simp [hnamed]) hcount (by rintro S rfl; cases hnamed))
  | eFree =>
    obtain ⟨S, hS, -⟩ := he
    simp [hused] at hS
  | eOwned =>
    obtain ⟨S, -, howner⟩ := he
    rw [slot_resetWith] at howner
    cases howner
  | _ => simp [Status.code]

end AfterReset

/-- Settles O9: the INFO commands reply with the fields of R41, and the others answer with the first error that applies. -/
theorem commandsAfterReset : Obligations.CommandsAfterReset := by
  intro p _ S hS
  refine ⟨⟨_, bsInfo_after_reset hS, rfl⟩, ⟨_, rfl, rfl⟩, ⟨_, rfl, rfl⟩, ⟨_, rfl, rfl⟩,
    fun i hused hcount hmerge hslots => ?_, fun i hunit => ?_⟩
  · refine answers_free_after_reset hused (not_param_applies (fun T hT => ?_) hcount hmerge)
    exact (hslots T hT).trans_eq resetWith_slots_length.symm
  · rcases hunit with rfl | ⟨A, B, rfl⟩ | rfl | ⟨P, A, B, rfl⟩ | rfl | ⟨A, B, rfl⟩ | rfl <;>
      exact answers_state_after_reset rfl rfl id (by simp [WrongPhase, State.resetWith])

end Sys2Proof.Machine
end
